-- ==== Sys2Proof/Word.lean ====
section
/-! DEFINITION. The word types of the adapter: the 8-bit values that every byte transfer and every
integer operand has (30_encoding.md R71), and the 24-bit request word (30_encoding.md R70). -/

namespace Sys2Proof

/-- `u8`: a byte on the bus, an integer operand, a display RAM byte (00_scope.md section 5.1, R71). -/
abbrev Byte := BitVec 8

/-- `req_word[23:0]`, the host's request (30_encoding.md R70). -/
abbrev ReqWord := BitVec 24

end Sys2Proof
end

