-- ==== Sys2Proof/Config.lean ====
section
/-! DEFINITION. What an implementation fixes (the parameters of 00_scope.md R3) and the FREE VALUES:
opaque constants without a body, one for each kind of value the spec leaves open, applied to a plain
counter of State (the number of free values used before) so that each use is a fresh value. Nothing can be
proved of any of them. -/

namespace Sys2Proof

/-- The seven segments and the dot of one digit (30_encoding.md R86). -/
inductive Segment where
  | a | b | c | d | e | f | g | dot
  deriving DecidableEq, Repr

/-- The default of the parameter `T_SETTLE`, in microseconds: the least time a `WAIT` lasts (00_scope.md R3,
40_pin_interface.md R108). State carries the parameter itself. -/
def Config.tSettle : Nat := 5

/-- The default of the parameter `T_STB_GAP`, in microseconds: extra time after a strobe edge (00_scope.md R3,
70_reset_and_hazards.md R248). State carries the parameter itself. -/
def Config.tStbGap : Nat := 0

/-- The default of the parameter `DIGIT_ROM` (00_scope.md R3, 10_state.md R16). State carries the ROM itself, so
that a statement can be made for every ROM. -/
def Config.digitRom : Vector Byte 10 :=
  #v[0x3F, 0x06, 0x5B, 0x4F, 0x66, 0x6D, 0x7D, 0x07, 0x7F, 0x6F]

/-- The default of the parameter `SEG_ASSIGN`: the segment that bit 0, 1, … 6 of a segment byte lights
(00_scope.md R3, 30_encoding.md R86). -/
def Config.segAssign : List Segment := [.a, .b, .c, .d, .e, .f, .g]

/-- FREE: the `n`-th level sampled from a line that nobody drives and nothing pulls (40_pin_interface.md R107), and,
with the peer as an unconstrained oracle, any level it puts on the line (20_memory.md R50). -/
opaque Config.freeBit : Nat → Bool

/-- FREE: a byte the peer transmits where the spec does not say which: a fifth or later key-scan byte
of one frame, a key-scan byte in test mode (20_memory.md R61 c, e). -/
opaque Config.freeByte : Nat → Byte

/-- FREE: what digit `p` shows in test mode, a byte of its own for each digit (20_memory.md R61 e). -/
opaque Config.freeShown : Nat → Nat → Byte

/-- FREE: whether the LED slot at address `a` is lit in test mode, a bit of its own for each slot (20_memory.md R61 e). -/
opaque Config.freeLit : Nat → Nat → Bool

/-- FREE: the contents of display RAM address `a` in epoch `n`: epoch 0 is the peer's power-on (20_memory.md R62),
each later epoch begins where the spec leaves the contents unspecified (20_memory.md R61). -/
opaque Config.freeRam : Nat → Nat → Byte

/-- FREE: the peer's `mode.fixed` after behaviour the spec leaves unspecified (20_memory.md R61). -/
opaque Config.freeFixed : Nat → Bool

/-- FREE: the peer's `mode.read` after behaviour the spec leaves unspecified (20_memory.md R61). -/
opaque Config.freeRead : Nat → Bool

/-- FREE: the peer's `mode.test` after behaviour the spec leaves unspecified (20_memory.md R61). -/
opaque Config.freeTest : Nat → Bool

/-- FREE: the peer's address pointer after behaviour the spec leaves unspecified (20_memory.md R61). -/
opaque Config.freePtr : Nat → BitVec 4

/-- FREE: the peer's `disp.on` after behaviour the spec leaves unspecified (20_memory.md R61). -/
opaque Config.freeOn : Nat → Bool

/-- FREE: the peer's `disp.br` after behaviour the spec leaves unspecified (20_memory.md R61). -/
opaque Config.freeBr : Nat → BitVec 3

end Sys2Proof
end

