-- ==== Sys2Proof/Syntax.lean ====
section
/-! DEFINITION. The instructions: one constructor for each row of spec/opcode_table.json. The nine `HOSTREQ` rows are
the host operations (30_encoding.md R72); each carries all three operand fields `f`, `a`, `b` of its request word,
those the operation does not read too (R75), because acceptance latches every field (10_state.md R13). The seven
`WIRECMD` rows are the command bytes on the wire (30_encoding.md R81 to R85), executed by the peer when one
arrives as the first byte of a frame. -/

namespace Sys2Proof

inductive Instr where
  /-- `INIT en, br`: `f` = enable, `a` = brightness (45_initialization.md R185). -/
  | init (f : Bool) (a b : Byte)
  /-- `ENABLE flag`: `f` = flag (42_command_encoder.md R141). -/
  | enable (f : Bool) (a b : Byte)
  /-- `SET_BRIGHTNESS br`: `a` = brightness (42_command_encoder.md R140). -/
  | setBrightness (f : Bool) (a b : Byte)
  /-- `DISPLAY_SEGMENTS pos, segs`: `a` = position, `b` = segments (43_display_memory.md R152). -/
  | displaySegments (f : Bool) (a b : Byte)
  /-- `CLEAR_SEGMENTS` (43_display_memory.md R157). -/
  | clearSegments (f : Bool) (a b : Byte)
  /-- `DISPLAY_DIGIT pos, digit, dot`: `a` = position, `b` = digit, `f` = dot (43_display_memory.md R154). -/
  | displayDigit (f : Bool) (a b : Byte)
  /-- `SET_LED pos, value`: `a` = position, `b` = value (43_display_memory.md R158). -/
  | setLed (f : Bool) (a b : Byte)
  /-- `CLEAR_LEDS` (43_display_memory.md R159). -/
  | clearLeds (f : Bool) (a b : Byte)
  /-- `SCAN_KEYS` (44_key_scanner.md R177). -/
  | scanKeys (f : Bool) (a b : Byte)
  /-- `0x40`: write mode, auto-increment (30_encoding.md R81). -/
  | dataCmdWriteAuto
  /-- `0x44`: write mode, fixed address (30_encoding.md R81). -/
  | dataCmdWriteFixed
  /-- `0x42`: read mode, key scan (30_encoding.md R81). -/
  | dataCmdRead
  /-- `0101 0FR0`: test mode with the fixed and read bits (30_encoding.md R85). -/
  | testCmd (fixed read : Bool)
  /-- `1000 Nbbb`: display on or off and a brightness level 0 to 7 (30_encoding.md R82). -/
  | displayCtrl (on : Bool) (level : Nat)
  /-- `1100 aaaa`: a display RAM address 0 to 15 (30_encoding.md R83). -/
  | setAddr (addr : Nat)
  /-- `0xFF`: the wrapped address of LED position 0 (30_encoding.md R83, 43_display_memory.md R156). -/
  | setAddrWrapped
  deriving DecidableEq, Repr

/-- What an instruction is made of on its way in: a request word on the host port (30_encoding.md R70), or a
command byte that reaches the peer as the first byte of a frame (30_encoding.md R80). -/
inductive Packet where
  | request (w : ReqWord)
  | wire (c : Byte)
  deriving DecidableEq, Repr

end Sys2Proof
end

