-- ==== Sys2Proof/Machine/State.lean ====
section
/-! DEFINITION. The state of the machine as plain data: the adapter's registers (10_state.md R10), its host port
(10_state.md R20), the reference peer (20_memory.md R51) and the model's own record, the pin trace; the reset state; the
faults and refusals. -/

namespace Sys2Proof.Machine

/-! ## Pins (10_state.md R12) -/

/-- One line: its out latch and its direction, `oe` = the adapter drives the line. -/
structure Line where
  out : Bool
  oe : Bool
  deriving DecidableEq, Repr

/-- The six register bits behind the pin interface. -/
structure Pins where
  clk : Line
  stb : Line
  dio : Line
  deriving DecidableEq, Repr

/-- The pin events, the alphabet of every pin trace (00_scope.md section 5.3, 40_pin_interface.md R102 to R109). -/
inductive PinEvent where
  | clk (v : Bool)
  | stb (v : Bool)
  | dio (v : Bool)
  | dirIn
  | dirOut
  | dirAllOut
  | wait
  | sample (level : Bool)
  deriving DecidableEq, Repr

/-! ## The adapter's registers -/

/-- `CFG`, the Bus Configuration (10_state.md R11). -/
structure Cfg where
  en : Bool
  br : BitVec 3
  deriving DecidableEq, Repr

/-- The operand latches `OP`, `F`, `A`, `B` (10_state.md R13). -/
structure Operands where
  op : BitVec 4
  f : Bool
  a : Byte
  b : Byte
  deriving DecidableEq, Repr

/-- The working registers (10_state.md R14, R17). -/
structure Work where
  shr : Byte
  acc : Byte
  keys : Byte
  bitCnt : BitVec 4
  byteCnt : BitVec 5
  posCnt : BitVec 4
  tmr : Nat
  deriving DecidableEq, Repr

/-- `RSP`, `RSP_ILL` and `rsp_valid` (10_state.md R15, R20). -/
structure Response where
  data : Byte
  illegal : Bool
  valid : Bool
  deriving DecidableEq, Repr

/-- `SEQ`: idle, or the operation in progress and the index of the next pin event of its trace (10_state.md R18). -/
inductive Seq where
  | idle
  | running (op : BitVec 4) (k : Nat)
  deriving DecidableEq, Repr

/-! ## Parameters of time -/

/-- The parameters `T_SETTLE` and `T_STB_GAP`, in microseconds (00_scope.md R3, 92_eei_decisions.md D14). They are carried
in State so that a statement can be made for every value, zero too (60_exceptions.md R211); no step and no reset changes
them. -/
structure Timing where
  tSettle : Nat
  tStbGap : Nat
  deriving DecidableEq, Repr

/-! ## The reference peer (20_memory.md R51) -/

/-- What the bytes after the first of the frame in progress are (20_memory.md R56): nothing received yet, data bytes to
store, key-scan bytes to transmit, or a case the spec leaves unspecified. -/
inductive FrameKind where
  | command
  | data
  | scan
  | unspecified
  deriving DecidableEq, Repr

/-- Progress within the current strobe-low frame. `drive` is the level the peer holds on the data line
(20_memory.md R58, R59): none while it does not drive it. -/
structure Frame where
  bytes : List Byte
  nbits : Fin 8
  sh : Byte
  kind : FrameKind
  drive : Option Bool
  deriving DecidableEq, Repr

/-- The peer's data mode (20_memory.md R51, R53). -/
structure Mode where
  fixed : Bool
  read : Bool
  test : Bool
  deriving DecidableEq, Repr

/-- The peer's display control (20_memory.md R51, R54). -/
structure Disp where
  on : Bool
  br : BitVec 3
  deriving DecidableEq, Repr

/-- The parameter `PEER` (00_scope.md R3, 20_memory.md R50): the reference peer; no device on the bus; an
unconstrained oracle. No step changes it. -/
inductive PeerKind where
  | reference
  | absent
  | oracle
  deriving DecidableEq, Repr

/-- The device on the bus. `ram` lists the display RAM bytes whose contents are known; an unlisted address holds
`Config.freeRam epoch` of it. The physical keys are the peer's input and may change at any time (20_memory.md R60): `keyFeed`
lists what they are at each read of the peer from its power-on, `keys` is what they stay at after that, and `keyReads` counts
the reads so far. `epoch` and `draws` are the model's own counters of free values. -/
structure Peer where
  kind : PeerKind
  ram : List Host.Cell
  epoch : Nat
  draws : Nat
  mode : Mode
  ptr : BitVec 4
  disp : Disp
  keys : Byte
  keyFeed : List Byte
  keyReads : Nat
  frame : Option Frame
  deriving DecidableEq, Repr

/-! ## The host port (10_state.md R20) -/

/-- The inputs that act on the machine from outside, read by the step. `requests` are the request words the host presents,
one after another (30_encoding.md R91): `req_valid` is that there is one, `req_word` is the first. `rst` is the
reset input. `busIn` is a command byte that logic sharing the lines sends to the peer in a frame of its own while the
adapter is idle and no request is presented (70_reset_and_hazards.md R243). `perEvent` is the model's choice of step: false, one host operation is one
transition (10_state.md R21), true, each step emits one pin event (10_state.md R18). -/
structure HostPort where
  rst : Bool
  requests : List ReqWord
  busIn : Option Byte
  perEvent : Bool
  deriving DecidableEq, Repr

/-! ## State -/

/-- The whole machine. `trace` is the pin trace of all operations so far, newest event first (`State.pinTrace` gives it in
order). `digitRom` is the constant `DIGIT_ROM` (10_state.md R16), which no step changes; `timing` holds the parameters of time
(00_scope.md R3). -/
structure State where
  cfg : Cfg
  pins : Pins
  operands : Operands
  work : Work
  rsp : Response
  digitRom : Vector Byte 10
  timing : Timing
  seq : Seq
  host : HostPort
  peer : Peer
  trace : List PinEvent
  deriving DecidableEq, Repr

/-- The pin trace in the order of its events. -/
def State.pinTrace (s : State) : List PinEvent := s.trace.reverse

/-- The peer at its own power-on (20_memory.md R62): display RAM unspecified (nothing listed), write mode,
auto-increment, pointer 0, display off; `disp.br` is unspecified and 0 here (assumption 2). -/
def Peer.powerOn : Peer where
  kind := .reference
  ram := []
  epoch := 0
  draws := 1
  mode := { fixed := false, read := false, test := false }
  ptr := 0
  disp := { on := false, br := 0 }
  keys := 0
  keyFeed := []
  keyReads := 0
  frame := none

/-- The machine right after reset, no request presented, the reference peer just powered on (10_state.md R26,
20_memory.md R62). -/
def State.reset : State where
  cfg := { en := false, br := 0 }
  pins := { clk := ⟨false, false⟩, stb := ⟨false, false⟩, dio := ⟨false, false⟩ }
  operands := { op := 0, f := false, a := 0, b := 0 }
  work := { shr := 0, acc := 0, keys := 0, bitCnt := 0, byteCnt := 0, posCnt := 0, tmr := 0 }
  rsp := { data := 0, illegal := false, valid := false }
  digitRom := Config.digitRom
  timing := { tSettle := Config.tSettle, tStbGap := Config.tStbGap }
  seq := .idle
  host := { rst := false, requests := [], busIn := none, perEvent := false }
  peer := Peer.powerOn
  trace := []

/-! ## Faults and refusals -/

/-- The ways a step can fault: none. "The adapter raises no synchronous exception" (60_exceptions.md R200), so the type is
empty, and no step faults. -/
inductive Fault where
  deriving DecidableEq, Repr

/-- The ways a step can be refused. -/
inductive Refusal where
  /-- Raised by `exec` alone, for an instruction that has no meaning yet; no arm raises it now. Safe: the run
  stops. -/
  | notModelled (mnemonic : String)
  deriving DecidableEq, Repr

end Sys2Proof.Machine
end

