-- ==== Sys2Proof/Machine/Flags.lean ====
section
/-! DEFINITION. The flag-like outputs and the ports of the adapter (10_state.md R12, R19, R20, R22). The adapter has no
condition codes and no flag that an operation sets as a side effect (R19): each output below is a view of registers. -/

namespace Sys2Proof.Machine

/-- `busy`: 1 exactly when `SEQ` is not idle (10_state.md R19). -/
def State.busy (s : State) : Bool :=
  match s.seq with
  | .idle => false
  | .running _ _ => true

/-- `req_ready` = not busy, and 0 while `rst` = 1 (10_state.md R19, 70_reset_and_hazards.md R230); in the `rsp_valid` cycle it
is 1 (assumption 23). -/
def State.reqReady (s : State) : Bool := !s.busy && !s.host.rst

/-- `req_valid`: the host presents a request (10_state.md R20). -/
def State.reqValid (s : State) : Bool := !s.host.requests.isEmpty

/-- `req_word`, 0 while no request is presented (10_state.md R20). -/
def State.reqWord (s : State) : ReqWord := s.host.requests.headD 0

/-- `rsp_valid` (10_state.md R20). -/
def State.rspValid (s : State) : Bool := s.rsp.valid

/-- `rsp_data` = `RSP` (10_state.md R15, R20). -/
def State.rspData (s : State) : Byte := s.rsp.data

/-- `rsp_illegal` = `RSP_ILL` (10_state.md R15, R20). -/
def State.rspIllegal (s : State) : Bool := s.rsp.illegal

/-- `cfg_enabled` (10_state.md R22). -/
def State.cfgEnabled (s : State) : Bool := s.cfg.en

/-- `cfg_brightness` (10_state.md R22). -/
def State.cfgBrightness (s : State) : BitVec 3 := s.cfg.br

/-- `CFG` as one 4-bit register, enable above brightness (10_state.md R11). -/
def Cfg.word (c : Cfg) : BitVec 4 := BitVec.ofBool c.en ++ c.br

/-- `clk_o` (10_state.md R12). -/
def State.clkO (s : State) : Bool := s.pins.clk.out

/-- `clk_oe` (10_state.md R12). -/
def State.clkOe (s : State) : Bool := s.pins.clk.oe

/-- `stb_o` (10_state.md R12). -/
def State.stbO (s : State) : Bool := s.pins.stb.out

/-- `stb_oe` (10_state.md R12). -/
def State.stbOe (s : State) : Bool := s.pins.stb.oe

/-- `dio_o` (10_state.md R12). -/
def State.dioO (s : State) : Bool := s.pins.dio.out

/-- `dio_oe` (10_state.md R12). -/
def State.dioOe (s : State) : Bool := s.pins.dio.oe

/-- `dio_pu`: the pull-up of the data line is on when the line is an input and its latch is 1 (10_state.md R12,
40_pin_interface.md R106). -/
def Pins.dioPu (p : Pins) : Bool := !p.dio.oe && p.dio.out

/-- `dio_pu` as a port (10_state.md R12). -/
def State.dioPu (s : State) : Bool := s.pins.dioPu

end Sys2Proof.Machine
end

