-- ==== Sys2Proof/Machine/Operands.lean ====
section
/-! DEFINITION. The operand forms: the pure functions of operands that the operations use, each under its name in the
spec. Command encoder: 30_encoding.md R81 to R83, 42_command_encoder.md R135, R137. Display memory: 43_display_memory.md
R150 to R156. Key decoder: 44_key_scanner.md R176. Key-scan bytes: 20_memory.md R58. -/

namespace Sys2Proof.Machine

/-- `DataCmd(T, F, R)` (30_encoding.md R81). -/
def dataCmd (t f r : Bool) : Byte :=
  0x40 ||| (if t then 0x10 else 0) ||| (if f then 0x04 else 0) ||| (if r then 0x02 else 0)

/-- `DispCmd(en, br3)` (30_encoding.md R82). -/
def dispCmd (en : Bool) (br : BitVec 3) : Byte :=
  0x80 ||| (if en then 0x08 else 0) ||| br.setWidth 8

/-- `AddrCmd(a8)`: the base ORed with the whole byte (30_encoding.md R83). -/
def addrCmd (a : Byte) : Byte := 0xC0 ||| a

/-- The display RAM address in an address command: its low four bits (20_memory.md R55). -/
def pointerOf (c : Byte) : BitVec 4 := c.extractLsb' 0 4

/-- `Clamp(br)` = min(br, 7), a saturation (42_command_encoder.md R137). -/
def clamp (br : Byte) : BitVec 3 := BitVec.ofNat 3 (min br.toNat 7)

/-- The position check: `A <= 7`, unsigned (43_display_memory.md R151). -/
def positionOk (a : Byte) : Bool := decide (a.toNat ≤ 7)

/-- `DigitAddr(p)` = 2p (43_display_memory.md R150). -/
def digitAddr (p : Byte) : Byte := p <<< 1

/-- `LedAddr(p)` = (2p - 1) mod 256, the wrap at position 0 preserved (43_display_memory.md R156). -/
def ledAddr (p : Byte) : Byte := (p <<< 1) - 1

/-- `nz(v)`: 1 when `v` is not 0, else 0 (00_scope.md section 5.1, 43_display_memory.md R155). -/
def nz (v : Byte) : Byte := if v = 0 then 0 else 1

/-- `SegOf(digit, dot)`: the ROM's entry for 0 to 9, blank for 10 and above, the dot in bit 7
(43_display_memory.md R153). -/
def segOf (rom : Vector Byte 10) (digit : Byte) (dot : Bool) : Byte :=
  (if h : digit.toNat < 10 then rom[digit.toNat] else 0) ||| (if dot then 0x80 else 0)

/-- `KeyDecode(b0, b1, b2, b3)`, each shifted byte truncated to 8 bits (44_key_scanner.md R176). -/
def keyDecode (b0 b1 b2 b3 : Byte) : Byte := b0 ||| (b1 <<< 1) ||| (b2 <<< 2) ||| (b3 <<< 3)

/-- The `k`-th key-scan byte: key `k` in bit 0, key `k + 4` in bit 4 (20_memory.md R58). -/
def scanByte (keys : Byte) (k : Nat) : Byte :=
  (if keys.getLsbD k then 0x01 else 0) ||| (if keys.getLsbD (k + 4) then 0x10 else 0)

/-- The value of a byte whose bits arrive least significant first: shift right, then insert at bit 7
(41_bus_transport.md R116, 20_memory.md R52; the order is that of 90_conflicts.md C1). -/
def shiftIn (acc : Byte) (level : Bool) : Byte := (acc >>> 1) ||| (if level then 0x80 else 0)

/-- The byte whose bits are the first eight levels, the first in bit 0 (20_memory.md R44). -/
def byteOfLevels (levels : List Bool) : Byte := levels.foldl shiftIn 0

/-- The eight levels of a byte in the order they travel, least significant first (20_memory.md R44). -/
def levelsOf (v : Byte) : List Bool := (List.range 8).map v.getLsbD

end Sys2Proof.Machine
end

