-- ==== Sys2Proof/Machine/Ops.lean ====
section
/-! DEFINITION. The named operations over memory, peer, pins and registers: display RAM reads and writes, the reference
peer's reactions (20_memory.md R50 to R62), the levels of the lines and the emission of a pin event
(40_pin_interface.md), acceptance and completion of a request (10_state.md R21), and reset. There is no exception to take
and none to return from (60_exceptions.md R200, R204, R205). -/

namespace Sys2Proof.Machine

/-! ## Display RAM (20_memory.md R40)

Sixteen one-byte addresses; the list holds the bytes whose contents are known, at strictly rising addresses. An
unlisted address has no known byte: `Ram.lookup` answers none, and `Peer.readRam` reads the free value of the epoch. -/

/-- The known byte at an address, if there is one. -/
def Ram.lookup (m : List Host.Cell) (a : Nat) : Option Byte :=
  match m with
  | [] => none
  | (k, v) :: rest => if k = a then some v else Ram.lookup rest a

/-- Store a byte, keeping the addresses strictly rising. -/
def Ram.insert (m : List Host.Cell) (a : Nat) (v : Byte) : List Host.Cell :=
  match m with
  | [] => [(a, v)]
  | (k, w) :: rest =>
    if a < k then (a, v) :: (k, w) :: rest
    else if a = k then (a, v) :: rest
    else (k, w) :: Ram.insert rest a v

/-- The addresses of the list are above `lo`, strictly rising, and inside the sixteen of the display RAM. -/
def Ram.risingFrom (lo : Nat) (m : List Host.Cell) : Bool :=
  match m with
  | [] => true
  | (k, _) :: rest => decide (lo ≤ k) && decide (k < 16) && Ram.risingFrom (k + 1) rest

/-- The canonical form: strictly rising addresses, all below 16. No entry can equal what an unlisted address reads as,
since that is no byte at all. -/
def Memory.wf (m : List Host.Cell) : Bool := Ram.risingFrom 0 m

/-- Display RAM address `a` of the peer: its known byte, else the free value of the epoch (20_memory.md R62). -/
def Peer.readRam (p : Peer) (a : Nat) : Byte := (Ram.lookup p.ram a).getD (Config.freeRam p.epoch a)

/-! ## The reference peer's reactions -/

/-- What test mode does is unspecified (20_memory.md R61 e): every byte of the display RAM, the pointer and the display
control are fresh free values (assumption 3). The mode bits stay, they "persist across frames until the next
data-instruction command" (20_memory.md R53). -/
def Peer.unsettle (p : Peer) : Peer :=
  { p with
    ram := []
    epoch := p.draws
    draws := p.draws + 1
    ptr := Config.freePtr p.draws
    disp := { on := Config.freeOn p.draws, br := Config.freeBr p.draws } }

/-- What follows behaviour the spec leaves unspecified (20_memory.md R61): every register of the peer and every byte of its
display RAM a fresh free value (assumption 3). -/
def Peer.scramble (p : Peer) : Peer :=
  { p.unsettle with
    mode := { fixed := Config.freeFixed p.draws, read := Config.freeRead p.draws, test := Config.freeTest p.draws } }

/-- The peer as a command byte finds it: after a time in test mode, where anything may have happened to its display RAM,
pointer and display control (20_memory.md R61 e), else as it was. -/
def Peer.atCommand (p : Peer) : Peer := if p.mode.test then p.unsettle else p

/-- The peer with another data mode, display control, pointer or frame, nothing else changed. -/
def Peer.withMode (m : Mode) (p : Peer) : Peer := { p with mode := m }

@[inherit_doc Peer.withMode]
def Peer.withDisp (d : Disp) (p : Peer) : Peer := { p with disp := d }

@[inherit_doc Peer.withMode]
def Peer.withPtr (a : BitVec 4) (p : Peer) : Peer := { p with ptr := a }

@[inherit_doc Peer.withMode]
def Peer.withFrame (f : Option Frame) (p : Peer) : Peer := { p with frame := f }

/-- The frame in progress stands in the middle of a byte: 1 to 7 of its bits have passed. -/
def Peer.midByte (p : Peer) : Bool :=
  match p.frame with
  | some fr => fr.nbits != 0
  | none => false

/-- The strobe rises: the frame ends and the data line is released (20_memory.md R52, R59). A partial byte is discarded
(R52), and what a frame ended in mid-byte does else is unspecified (R61 g, assumption 8). -/
def Peer.closeFrame (p : Peer) : Peer :=
  (if p.midByte then p.scramble else p).withFrame none

/-- The strobe falls: a frame begins (20_memory.md R52). A frame still open then, left by a reset in mid-operation, has ended
before: the strobe was high in between (assumption 9). -/
def Peer.openFrame (p : Peer) : Peer :=
  p.closeFrame.withFrame (some { bytes := [], nbits := 0, sh := 0, kind := .command, drive := none })

/-- A command byte acts on the peer's registers by its class, bits 7 and 6: a data-instruction command writes the mode
(20_memory.md R53), a display-control command writes the display control (R54), an address command writes the pointer
with its low four bits (R55); class `0b00` is unspecified (R61 a). Entering test mode and every command byte in test mode make
the other registers and the display RAM free (R61 e); that the byte itself acts then as R53 to R55 say is the
model's choice (assumption 3). -/
def Peer.command (c : Byte) (p : Peer) : Peer :=
  match (c.extractLsb' 6 2).toNat with
  | 1 =>
    (if c.getLsbD 4 then p.unsettle else p.atCommand).withMode
      { fixed := c.getLsbD 2, read := c.getLsbD 1, test := c.getLsbD 4 }
  | 2 => p.atCommand.withDisp { on := c.getLsbD 3, br := c.extractLsb' 0 3 }
  | 3 => p.atCommand.withPtr (pointerOf c)
  | _ => p.scramble

/-- What the bytes after command byte `c` are, in mode `m` (20_memory.md R56): data after an address command in write
mode, key-scan bytes after a read-mode data-instruction command; else unspecified. In test mode the data are unspecified
too (R61 e). -/
def kindAfter (c : Byte) (m : Mode) : FrameKind :=
  match (c.extractLsb' 6 2).toNat with
  | 1 => if c.getLsbD 1 then .scan else .unspecified
  | 3 => if m.read || m.test then .unspecified else .data
  | _ => .unspecified

/-- A data byte is stored at the pointer, which advances mod 16 in auto-increment mode (20_memory.md R57). -/
def Peer.store (d : Byte) (p : Peer) : Peer :=
  { p with
    ram := Ram.insert p.ram p.ptr.toNat d
    ptr := if p.mode.fixed then p.ptr else p.ptr + 1 }

/-- A byte received whole acts at its eighth edge (20_memory.md R52): the first byte of the frame as a command (R53), a
later one by the frame's kind (R56, R57, R61). -/
def Peer.receive (v : Byte) (p : Peer) : Peer :=
  match p.frame with
  | none => p
  | some fr =>
    let next (k : FrameKind) : Frame := { bytes := fr.bytes ++ [v], nbits := 0, sh := 0, kind := k, drive := fr.drive }
    match fr.kind with
    | .command => (p.command v).withFrame (some (next (kindAfter v p.mode)))
    | .data => (p.store v).withFrame (some (next .data))
    | .scan => p.withFrame (some (next .scan))
    | .unspecified => p.scramble.withFrame (some (next .unspecified))

/-- A rising clock edge while the peer receives: the level of the data line is the next bit, least significant first;
the eighth completes the byte (20_memory.md R52). -/
def Peer.takeBit (level : Bool) (p : Peer) : Peer :=
  match p.frame with
  | none => p
  | some fr =>
    if fr.nbits = 7 then p.receive (shiftIn fr.sh level)
    else { p with frame := some { fr with nbits := fr.nbits + 1, sh := shiftIn fr.sh level } }

/-- The physical keys at the `n`-th read of the peer from now on, 0 the next (20_memory.md R60). -/
def Peer.keysAt (p : Peer) (n : Nat) : Byte := p.keyFeed.getD (p.keyReads + n) p.keys

/-- The byte the peer transmits as number `k` of the frame: a key-scan byte, from one read of the keys at that moment
(20_memory.md R58, R60); a fifth or later byte, or any byte in test mode, is free (R61 c, e). The peer after it: that its display RAM, mode, pointer and
display control keep their values after a free byte is the model's choice (assumption 3). -/
def Peer.transmitByte (k : Nat) (p : Peer) : Byte × Peer :=
  if k < 4 && !p.mode.test then (scanByte (p.keysAt 0) k, { p with keyReads := p.keyReads + 1 })
  else (Config.freeByte p.draws, { p with draws := p.draws + 1 })

/-- A falling clock edge while the peer transmits: it puts the next bit on the data line, having read the keys at the first
falling edge of a byte (20_memory.md R58, R59, R60). -/
def Peer.putBit (p : Peer) : Peer :=
  match p.frame with
  | none => p
  | some fr =>
    if fr.nbits = 0 then
      let (v, q) := p.transmitByte (fr.bytes.length - 1)
      { q with frame := some { fr with sh := v, drive := some (v.getLsbD 0) } }
    else { p with frame := some { fr with drive := some (fr.sh.getLsbD fr.nbits.val) } }

/-- A rising clock edge while the peer transmits ends a bit time; the eighth ends the byte (20_memory.md R58). -/
def Peer.endBit (p : Peer) : Peer :=
  match p.frame with
  | none => p
  | some fr =>
    if fr.nbits = 7 then { p with frame := some { fr with nbits := 0, bytes := fr.bytes ++ [fr.sh] } }
    else { p with frame := some { fr with nbits := fr.nbits + 1 } }

/-- The peer is transmitting: the frame in progress is a key-scan frame (20_memory.md R56). -/
def Peer.transmitting (p : Peer) : Bool :=
  match p.frame with
  | some fr => fr.kind == .scan
  | none => false

/-- The level the peer drives onto the data line, if it drives it (20_memory.md R59). -/
def Peer.drives (p : Peer) : Option Bool :=
  match p.frame with
  | some fr => fr.drive
  | none => none

/-- A frame holding the one byte `c`, complete, reaches the peer from outside the adapter (20_memory.md R52, R53). A frame
that a reset in mid-operation left open ends first, since the strobe must be high before it falls, and none is open after
it: the model's choice (assumption 4). With no device on the bus, or one the model knows nothing of, nothing of the state
changes. -/
def Peer.loneCommand (c : Byte) (p : Peer) : Peer :=
  match p.kind with
  | .reference => ((p.openFrame).receive c).closeFrame
  | .absent => p
  | .oracle => p

/-! ## Lines and events -/

/-- A change of a line's level that the peer can see. -/
inductive Edge where
  | none
  | rise
  | fall
  deriving DecidableEq, Repr

/-- The edge between two states of a line: only between two driven levels (40_pin_interface.md R102,
70_reset_and_hazards.md R231). -/
def Line.edge (old new : Line) : Edge :=
  if old.oe && new.oe then
    match old.out, new.out with
    | false, true => .rise
    | true, false => .fall
    | _, _ => .none
  else .none

/-- The level of the data line at this point, and the peer with the counter of free values advanced if one was used
(40_pin_interface.md R107): the adapter's own level, else the peer's, else 1 through the pull-up, else free. -/
def senseDio (pins : Pins) (p : Peer) : Bool × Peer :=
  if pins.dio.oe then (pins.dio.out, p)
  else
    match p.kind with
    | .oracle => (Config.freeBit p.draws, { p with draws := p.draws + 1 })
    | .absent =>
      if pins.dioPu then (true, p) else (Config.freeBit p.draws, { p with draws := p.draws + 1 })
    | .reference =>
      match p.drives with
      | some level => (level, p)
      | none => if pins.dioPu then (true, p) else (Config.freeBit p.draws, { p with draws := p.draws + 1 })

/-- The effect of a pin event on the six register bits (40_pin_interface.md R102 to R109). -/
def PinEvent.onPins (e : PinEvent) (p : Pins) : Pins :=
  match e with
  | .clk v => { p with clk := { p.clk with out := v } }
  | .stb v => { p with stb := { p.stb with out := v } }
  | .dio v => { p with dio := { p.dio with out := v } }
  | .dirIn => { p with dio := { p.dio with oe := false } }
  | .dirOut => { p with dio := { p.dio with oe := true } }
  | .dirAllOut =>
    { clk := { p.clk with oe := true }, stb := { p.stb with oe := true }, dio := { p.dio with oe := true } }
  | .wait => p
  | .sample _ => p

/-- The reference peer's reaction to the change of the lines from `old` to `new` (20_memory.md R52, R58): strobe edges frame;
clock edges count while the strobe is driven low. -/
def Peer.react (old new : Pins) (p : Peer) : Peer :=
  match Line.edge old.stb new.stb with
  | .fall => p.openFrame
  | .rise => p.closeFrame
  | .none =>
    if new.stb.oe && !new.stb.out then
      match Line.edge old.clk new.clk with
      | .none => p
      | .rise => if p.transmitting then p.endBit else let r := senseDio new p; r.2.takeBit r.1
      | .fall => if p.transmitting then p.putBit else p
    else p

/-- What the device on the bus does when the lines change: only the reference peer has state of its own
(20_memory.md R50). -/
def Peer.observe (old new : Pins) (p : Peer) : Peer :=
  match p.kind with
  | .reference => p.react old new
  | .absent => p
  | .oracle => p

/-- `emit(E)`: the event is appended to the trace, its effect applied to the pins, and the peer sees the lines change
(00_scope.md section 5.3). -/
def State.emit (e : PinEvent) (s : State) : State :=
  { s with
    pins := e.onPins s.pins
    trace := e :: s.trace
    peer := s.peer.observe s.pins (e.onPins s.pins) }

/-- The body of one sample in `ReadByte`: `s <- sample()`, which emits `SAMPLE(s)`, then
`ACC <- (ACC >> 1) | (s << 7)` (40_pin_interface.md R107, 41_bus_transport.md R116). -/
def State.sample (s : State) : State :=
  let r := senseDio s.pins s.peer
  { s with
    trace := .sample r.1 :: s.trace
    peer := r.2
    work := { s.work with acc := shiftIn s.work.acc r.1 } }

/-! ## Acceptance, completion, reset -/

/-- Acceptance of a request: the operand latches are loaded, `SEQ` runs from event 0 (10_state.md R13, R21). -/
def State.accept (op : BitVec 4) (f : Bool) (a b : Byte) (s : State) : State :=
  { s with
    operands := { op := op, f := f, a := a, b := b }
    seq := .running op 0
    rsp := { s.rsp with valid := false } }

/-- Completion: `RSP` and `RSP_ILL` are loaded, `rsp_valid` is 1 for this cycle, `SEQ` is idle (10_state.md R15, R21), and so
`req_ready` is 1 in it (R19): the cycle of 60_exceptions.md R203 b, in which `req_ready` is still 0, is taken to be the one
before, the model's choice (assumption 23). -/
def State.complete (data : Byte) (illegal : Bool) (s : State) : State :=
  { s with
    rsp := { data := data, illegal := illegal, valid := true }
    seq := .idle }

/-- A cycle ends: `rsp_valid` is 1 for one cycle only (10_state.md R15, R20). -/
def State.endCycle (s : State) : State := { s with rsp := { s.rsp with valid := false } }

/-- The adapter's registers at reset; the peer, the host port and `DIGIT_ROM` as they were (10_state.md R26,
70_reset_and_hazards.md R230, R233, 20_memory.md R62). The spec leaves the working registers unspecified; they are 0 here
(assumption 1). -/
def State.resetAdapter (s : State) : State :=
  { s with
    cfg := { en := false, br := 0 }
    pins := { clk := ⟨false, false⟩, stb := ⟨false, false⟩, dio := ⟨false, false⟩ }
    operands := { op := 0, f := false, a := 0, b := 0 }
    work := { shr := 0, acc := 0, keys := 0, bitCnt := 0, byteCnt := 0, posCnt := 0, tmr := 0 }
    rsp := { data := 0, illegal := false, valid := false }
    seq := .idle }

end Sys2Proof.Machine
end

