-- ==== Sys2Proof/Machine/Transport.lean ====
section
/-! DEFINITION. The bus transport and the sequencer's steps. An operation is a list of BEATS: each beat emits exactly one
pin event, with the register writes that the spec's pseudocode makes just before and just after it. The micro-operations
`WriteByte`, `ReadByte`, `SendCommand`, `SendData` (41_bus_transport.md R115 to R118), `SendConfig`
(42_command_encoder.md R138) and `ScanFrame` (44_key_scanner.md R175) are such lists. -/

namespace Sys2Proof.Machine

/-- The register writes between pin events (10_state.md R11, R14). -/
inductive RegWrite where
  /-- `SHR <- v`. -/
  | loadShr (v : Byte)
  /-- `SHR <- SHR >> 1`. -/
  | shiftShr
  /-- `ACC <- 0`. -/
  | clearAcc
  /-- `KEYS <- 0`. -/
  | clearKeys
  /-- `KEYS <- KEYS | trunc_8(ACC << i)`. -/
  | foldKeys (i : Nat)
  /-- `BITCNT` at loop entry, and after each bit. -/
  | startBits
  | nextBit
  /-- `BYTECNT` at loop entry, and after each byte. -/
  | startBytes
  | nextByte
  /-- `POSCNT` at loop entry, and after each position. -/
  | startPositions
  | nextPosition
  /-- `CFG.en <- en`, `CFG.br <- br`. -/
  | latchCfg (en : Bool) (br : BitVec 3)
  deriving DecidableEq, Repr

/-- What one beat emits: a fixed event, `DIO(bit(SHR, 0))`, or a sample of the data line. -/
inductive Act where
  | pin (e : PinEvent)
  | shiftOut
  | sampleIn
  deriving DecidableEq, Repr

/-- One step of the sequencer (10_state.md R18). -/
structure Beat where
  pre : List RegWrite
  act : Act
  post : List RegWrite
  deriving DecidableEq, Repr

/-! ## Running -/

/-- A register write. -/
def State.write (s : State) (w : RegWrite) : State :=
  match w with
  | .loadShr v => { s with work := { s.work with shr := v } }
  | .shiftShr => { s with work := { s.work with shr := s.work.shr >>> 1 } }
  | .clearAcc => { s with work := { s.work with acc := 0 } }
  | .clearKeys => { s with work := { s.work with keys := 0 } }
  | .foldKeys i => { s with work := { s.work with keys := s.work.keys ||| (s.work.acc <<< i) } }
  | .startBits => { s with work := { s.work with bitCnt := 0 } }
  | .nextBit => { s with work := { s.work with bitCnt := s.work.bitCnt + 1 } }
  | .startBytes => { s with work := { s.work with byteCnt := 0 } }
  | .nextByte => { s with work := { s.work with byteCnt := s.work.byteCnt + 1 } }
  | .startPositions => { s with work := { s.work with posCnt := 0 } }
  | .nextPosition => { s with work := { s.work with posCnt := s.work.posCnt + 1 } }
  | .latchCfg en br => { s with cfg := { en := en, br := br } }

/-- The timer is loaded with `T_SETTLE` at the start of each `WAIT` (10_state.md R17, 60_exceptions.md R211); nothing reads
it. -/
def State.loadTimer (e : PinEvent) (s : State) : State :=
  match e with
  | .wait => { s with work := { s.work with tmr := s.timing.tSettle } }
  | _ => s

/-- The event of a beat. -/
def State.act (s : State) (a : Act) : State :=
  match a with
  | .pin e => (s.loadTimer e).emit e
  | .shiftOut => s.emit (.dio (s.work.shr.getLsbD 0))
  | .sampleIn => s.sample

/-- One beat. -/
def State.beat (s : State) (b : Beat) : State := b.post.foldl State.write ((b.pre.foldl State.write s).act b.act)

/-- Beats in order. -/
def State.runBeats (s : State) (bs : List Beat) : State := bs.foldl State.beat s

/-! ## Building lists of beats -/

/-- A beat that only emits a fixed event. -/
def pinBeat (e : PinEvent) : Beat := { pre := [], act := .pin e, post := [] }

/-- The same beats with register writes before the first. -/
def before (ws : List RegWrite) (bs : List Beat) : List Beat :=
  match bs with
  | [] => []
  | b :: rest => { b with pre := ws ++ b.pre } :: rest

/-- The same beats with register writes after the last. -/
def after (bs : List Beat) (ws : List RegWrite) : List Beat :=
  match bs with
  | [] => []
  | [b] => [{ b with post := b.post ++ ws }]
  | b :: c :: rest => b :: after (c :: rest) ws

/-- `n` copies, one after another. -/
def repeated (n : Nat) (bs : List Beat) : List Beat :=
  match n with
  | 0 => []
  | k + 1 => bs ++ repeated k bs

/-! ## Micro-operations -/

/-- One bit time of `WriteByte` (41_bus_transport.md R115). -/
def writeBit : List Beat :=
  after
    [pinBeat (.clk false), pinBeat .wait, { pre := [], act := .shiftOut, post := [] }, pinBeat (.clk true), pinBeat .wait]
    [.shiftShr, .nextBit]

/-- `WriteByte(v)` (41_bus_transport.md R115). -/
def writeByte (v : Byte) : List Beat := before [.loadShr v, .startBits] (repeated 8 writeBit)

/-- One bit time of `ReadByte` (41_bus_transport.md R116, the two waits by 90_conflicts.md C2). -/
def readBit : List Beat :=
  after
    [pinBeat (.clk false), pinBeat .wait, { pre := [], act := .sampleIn, post := [] }, pinBeat (.clk true), pinBeat .wait]
    [.nextBit]

/-- `ReadByte()`; the result is left in `ACC` (41_bus_transport.md R116). -/
def readByte : List Beat :=
  after [pinBeat .dirIn, pinBeat (.dio true)] [.clearAcc, .startBits]
    ++ repeated 8 readBit
    ++ [pinBeat .dirOut, pinBeat (.dio false)]

/-- `SendCommand(v)` (41_bus_transport.md R117). -/
def sendCommand (v : Byte) : List Beat := [pinBeat (.stb false)] ++ writeByte v ++ [pinBeat (.stb true)]

/-- `SendData(a, d)` (41_bus_transport.md R118). -/
def sendData (a d : Byte) : List Beat :=
  sendCommand (dataCmd false true false)
    ++ ([pinBeat (.stb false)] ++ writeByte (addrCmd a) ++ writeByte d ++ [pinBeat (.stb true)])

/-- `SendConfig(en, br)`: `CFG` is written before any pin event (42_command_encoder.md R138). -/
def sendConfig (en : Bool) (br : Byte) : List Beat :=
  before [.latchCfg en (clamp br)]
    (sendCommand (dataCmd false false false) ++ sendCommand (dispCmd en (clamp br)))

/-- The `i`-th read of a key scan, folded into `KEYS` as it arrives (44_key_scanner.md R176, R177). -/
def scanRead (i : Nat) : List Beat := after readByte [.foldKeys i, .nextByte]

/-- `ScanFrame()` with the decoder's accumulation (44_key_scanner.md R175, R177). -/
def scanFrame : List Beat :=
  before [.clearKeys]
    ([pinBeat (.stb false)] ++ after (writeByte (dataCmd false false true)) [.startBytes]
      ++ scanRead 0 ++ scanRead 1 ++ scanRead 2 ++ scanRead 3 ++ [pinBeat (.stb true)])

/-! ## An operation as one transition -/

/-- One host operation from acceptance to completion (10_state.md R21): accepted, all its beats in order, completed with
its result (10_state.md R15). -/
def State.perform (op : BitVec 4) (f : Bool) (a b : Byte) (bs : List Beat) (result : State → Byte) (s : State) : State :=
  let t := (s.accept op f a b).runBeats bs
  t.complete (result t) false

/-- `RSP <- 0x00`: the result of every operation but `SCAN_KEYS` (10_state.md R15). -/
def noResult (_ : State) : Byte := 0

end Sys2Proof.Machine
end

