-- ==== Sys2Proof/Machine/Configuration.lean ====
section
/-! DEFINITION. `ENABLE` and `SET_BRIGHTNESS`, each one `SendConfig` that reuses the other stored field
(42_command_encoder.md R140, R141). -/

namespace Sys2Proof.Machine

/-- The beats of `ENABLE flag` under configuration `c`. -/
def enableBeats (c : Cfg) (flag : Bool) : List Beat := sendConfig flag (c.br.setWidth 8)

/-- The beats of `SET_BRIGHTNESS br` under configuration `c`. -/
def brightnessBeats (c : Cfg) (br : Byte) : List Beat := sendConfig c.en br

/-- `ENABLE` (42_command_encoder.md R141). -/
def execEnable (f : Bool) (a b : Byte) (s : State) : Host.Outcome State Fault Refusal :=
  .next (s.perform 0x1 f a b (enableBeats s.cfg f) noResult)

/-- `SET_BRIGHTNESS` (42_command_encoder.md R140). -/
def execSetBrightness (f : Bool) (a b : Byte) (s : State) : Host.Outcome State Fault Refusal :=
  .next (s.perform 0x2 f a b (brightnessBeats s.cfg a) noResult)

end Sys2Proof.Machine
end

