-- ==== Sys2Proof/Machine/Display.lean ====
section
/-! DEFINITION. The display memory operations (43_display_memory.md R152, R154, R157, R158, R159), all through
`SendData`. -/

namespace Sys2Proof.Machine

/-- The beats of `DISPLAY_SEGMENTS pos, segs`: none when the position check fails (43_display_memory.md R151, R152). -/
def segmentsBeats (pos segs : Byte) : List Beat :=
  if positionOk pos then sendData (digitAddr pos) segs else []

/-- The beats of `DISPLAY_DIGIT pos, digit, dot` with the digit table `rom` (43_display_memory.md R153, R154). -/
def digitBeats (rom : Vector Byte 10) (pos digit : Byte) (dot : Bool) : List Beat :=
  segmentsBeats pos (segOf rom digit dot)

/-- The beats of `SET_LED pos, value` (43_display_memory.md R151, R155, R156, R158). -/
def ledBeats (pos value : Byte) : List Beat :=
  if positionOk pos then sendData (ledAddr pos) (nz value) else []

/-- `n` positions from `p`, one `SendData` of zero each, at the address `addr` gives it, counted by `POSCNT`. -/
def clearFrom (addr : Byte → Byte) (n : Nat) (p : Byte) : List Beat :=
  match n with
  | 0 => []
  | k + 1 => after (sendData (addr p) 0) [.nextPosition] ++ clearFrom addr k (p + 1)

/-- The beats of `CLEAR_SEGMENTS`: positions 0 to 7, ascending (43_display_memory.md R157). -/
def clearSegmentsBeats : List Beat := before [.startPositions] (clearFrom digitAddr 8 0)

/-- The beats of `CLEAR_LEDS`: positions 0 to 7, ascending (43_display_memory.md R159). -/
def clearLedsBeats : List Beat := before [.startPositions] (clearFrom ledAddr 8 0)

/-- `DISPLAY_SEGMENTS` (43_display_memory.md R152). -/
def execDisplaySegments (f : Bool) (a b : Byte) (s : State) : Host.Outcome State Fault Refusal :=
  .next (s.perform 0x3 f a b (segmentsBeats a b) noResult)

/-- `CLEAR_SEGMENTS` (43_display_memory.md R157). -/
def execClearSegments (f : Bool) (a b : Byte) (s : State) : Host.Outcome State Fault Refusal :=
  .next (s.perform 0x4 f a b clearSegmentsBeats noResult)

/-- `DISPLAY_DIGIT` (43_display_memory.md R154). -/
def execDisplayDigit (f : Bool) (a b : Byte) (s : State) : Host.Outcome State Fault Refusal :=
  .next (s.perform 0x5 f a b (digitBeats s.digitRom a b f) noResult)

/-- `SET_LED` (43_display_memory.md R158). -/
def execSetLed (f : Bool) (a b : Byte) (s : State) : Host.Outcome State Fault Refusal :=
  .next (s.perform 0x6 f a b (ledBeats a b) noResult)

/-- `CLEAR_LEDS` (43_display_memory.md R159). -/
def execClearLeds (f : Bool) (a b : Byte) (s : State) : Host.Outcome State Fault Refusal :=
  .next (s.perform 0x7 f a b clearLedsBeats noResult)

end Sys2Proof.Machine
end

