-- ==== Sys2Proof/Machine/Initialization.lean ====
section
/-! DEFINITION. `INIT` (45_initialization.md R185). -/

namespace Sys2Proof.Machine

/-- The block-clear frame: `0xC0`, then sixteen zero bytes counted by `BYTECNT` (45_initialization.md R185). -/
def blockClear : List Beat :=
  [pinBeat (.stb false)] ++ after (writeByte (addrCmd 0)) [.startBytes]
    ++ repeated 16 (after (writeByte 0) [.nextByte]) ++ [pinBeat (.stb true)]

/-- The beats of `INIT en, br`. -/
def initBeats (en : Bool) (br : Byte) : List Beat :=
  [pinBeat .dirAllOut, pinBeat (.stb true), pinBeat (.clk true)] ++ blockClear ++ sendConfig en br

/-- `INIT` (45_initialization.md R185). -/
def execInit (f : Bool) (a b : Byte) (s : State) : Host.Outcome State Fault Refusal :=
  .next (s.perform 0x0 f a b (initBeats f a) noResult)

end Sys2Proof.Machine
end

