-- ==== Sys2Proof/Machine/KeyScan.lean ====
section
/-! DEFINITION. `SCAN_KEYS` (44_key_scanner.md R175 to R178). -/

namespace Sys2Proof.Machine

/-- The result of `SCAN_KEYS`: the accumulated key bitmap (44_key_scanner.md R177). -/
def keysResult (s : State) : Byte := s.work.keys

/-- `SCAN_KEYS` (44_key_scanner.md R177). -/
def execScanKeys (f : Bool) (a b : Byte) (s : State) : Host.Outcome State Fault Refusal :=
  .next (s.perform 0x8 f a b scanFrame keysResult)

end Sys2Proof.Machine
end

