-- ==== Sys2Proof/Machine/WireCommands.lean ====
section
/-! DEFINITION. The command bytes on the wire as instructions of the peer (30_encoding.md R81 to R85): the reaction of
20_memory.md R53 to R55 to the byte in a frame of its own that did not come from the adapter (assumption 4). The adapter's
own bytes reach the same reaction bit by bit through its pins. -/

namespace Sys2Proof.Machine

/-- The peer reacts to a complete one-byte frame; nothing of the adapter changes. -/
def State.wireCommand (c : Byte) (s : State) : State := { s with peer := s.peer.loneCommand c }

/-- `0x40`: write mode, auto-increment (30_encoding.md R81, 20_memory.md R53). -/
def execDataCmdWriteAuto (s : State) : Host.Outcome State Fault Refusal :=
  .next (s.wireCommand (dataCmd false false false))

/-- `0x44`: write mode, fixed address (30_encoding.md R81, 20_memory.md R53). -/
def execDataCmdWriteFixed (s : State) : Host.Outcome State Fault Refusal :=
  .next (s.wireCommand (dataCmd false true false))

/-- `0x42`: read mode (30_encoding.md R81, 20_memory.md R53). -/
def execDataCmdRead (s : State) : Host.Outcome State Fault Refusal :=
  .next (s.wireCommand (dataCmd false false true))

/-- The test-mode command writes the three mode bits (30_encoding.md R85, 20_memory.md R53); what test mode does then is
unspecified (20_memory.md R61 e). -/
def execTestCmd (fixed read : Bool) (s : State) : Host.Outcome State Fault Refusal :=
  .next (s.wireCommand (dataCmd true fixed read))

/-- A display-control command (30_encoding.md R82, 20_memory.md R54). -/
def execDisplayCtrl (on : Bool) (level : Nat) (s : State) : Host.Outcome State Fault Refusal :=
  .next (s.wireCommand (dispCmd on (BitVec.ofNat 3 level)))

/-- An address command (30_encoding.md R83, 20_memory.md R55). -/
def execSetAddr (addr : Nat) (s : State) : Host.Outcome State Fault Refusal :=
  .next (s.wireCommand (addrCmd (BitVec.ofNat 8 addr)))

/-- The wrapped address byte `0xFF` (30_encoding.md R83, 20_memory.md R55). -/
def execSetAddrWrapped (s : State) : Host.Outcome State Fault Refusal :=
  .next (s.wireCommand (addrCmd 0xFF))

end Sys2Proof.Machine
end

