-- ==== Sys2Proof/Machine/Dispatch.lean ====
section
/-! DEFINITION. The meaning of every instruction. -/

namespace Sys2Proof.Machine

def exec (i : Instr) (s : State) : Host.Outcome State Fault Refusal :=
  match i with
  | .init f a b => Sys2Proof.Machine.execInit f a b s
  | .enable f a b => Sys2Proof.Machine.execEnable f a b s
  | .setBrightness f a b => Sys2Proof.Machine.execSetBrightness f a b s
  | .displaySegments f a b => Sys2Proof.Machine.execDisplaySegments f a b s
  | .clearSegments f a b => Sys2Proof.Machine.execClearSegments f a b s
  | .displayDigit f a b => Sys2Proof.Machine.execDisplayDigit f a b s
  | .setLed f a b => Sys2Proof.Machine.execSetLed f a b s
  | .clearLeds f a b => Sys2Proof.Machine.execClearLeds f a b s
  | .scanKeys f a b => Sys2Proof.Machine.execScanKeys f a b s
  | .dataCmdWriteAuto => Sys2Proof.Machine.execDataCmdWriteAuto s
  | .dataCmdWriteFixed => Sys2Proof.Machine.execDataCmdWriteFixed s
  | .dataCmdRead => Sys2Proof.Machine.execDataCmdRead s
  | .testCmd fixed read => Sys2Proof.Machine.execTestCmd fixed read s
  | .displayCtrl on level => Sys2Proof.Machine.execDisplayCtrl on level s
  | .setAddr addr => Sys2Proof.Machine.execSetAddr addr s
  | .setAddrWrapped => Sys2Proof.Machine.execSetAddrWrapped s

end Sys2Proof.Machine
end

