-- ==== Sys2Proof/WellFormed.lean ====
section
/-! DEFINITION. Which instructions have an encoding. The host operations carry their fields at the fields' own
widths, so all of them do. A display-control command carries a brightness 0 to 7 (30_encoding.md R82: three bits) and an
address command an address 0 to 15 (30_encoding.md R83: four bits); these two are the checks. -/

namespace Sys2Proof

/-- The instruction's operands fit their fields. -/
def Instr.wellFormed : Instr → Bool
  | .init _ _ _ => true
  | .enable _ _ _ => true
  | .setBrightness _ _ _ => true
  | .displaySegments _ _ _ => true
  | .clearSegments _ _ _ => true
  | .displayDigit _ _ _ => true
  | .setLed _ _ _ => true
  | .clearLeds _ _ _ => true
  | .scanKeys _ _ _ => true
  | .dataCmdWriteAuto => true
  | .dataCmdWriteFixed => true
  | .dataCmdRead => true
  | .testCmd _ _ => true
  | .displayCtrl _ level => decide (level ≤ 7)
  | .setAddr addr => decide (addr ≤ 15)
  | .setAddrWrapped => true

end Sys2Proof
end

