-- ==== Sys2Proof/Decode.lean ====
section
/-! DEFINITION. The decoder, total on every request word and every byte, rejecting by name; then the encoder, written
from the same tables (30_encoding.md R70, R72, R81 to R85). -/

namespace Sys2Proof

/-- Why a packet is no instruction of the table. -/
inductive DecodeError where
  /-- `op` is 9 to 15: an illegal request (30_encoding.md R74). -/
  | reservedOp (op : BitVec 4)
  /-- `req_word[19:17]` is not `0b000`: an illegal request (30_encoding.md R74). -/
  | nonZeroField (zero : BitVec 3)
  /-- The byte's top bits are `0b00`, no command class (30_encoding.md R80). -/
  | noCommandClass (c : Byte)
  /-- A command class, but with a bit the tables do not assign, or a combination that no row gives
  (30_encoding.md R81 to R83). -/
  | unassignedCommand (c : Byte)
  deriving DecidableEq, Repr

/-! ## Fields -/

/-- `req_word[23:20]` (30_encoding.md R70). -/
def reqOp (w : ReqWord) : BitVec 4 := w.extractLsb' 20 4

/-- `req_word[19:17]` (30_encoding.md R70). -/
def reqZero (w : ReqWord) : BitVec 3 := w.extractLsb' 17 3

/-- `req_word[16]` (30_encoding.md R70). -/
def reqF (w : ReqWord) : Bool := w.getLsbD 16

/-- `req_word[15:8]` (30_encoding.md R70). -/
def reqA (w : ReqWord) : Byte := w.extractLsb' 8 8

/-- `req_word[7:0]` (30_encoding.md R70). -/
def reqB (w : ReqWord) : Byte := w.extractLsb' 0 8

/-- Bits 7:6 of a command byte, its class (30_encoding.md R80). -/
def cmdClass (c : Byte) : BitVec 2 := c.extractLsb' 6 2

/-! ## Decoding -/

/-- A request word (30_encoding.md R72 to R74): the `zero` field and the `op` field decide, the operands are taken as
they stand. -/
def decodeRequest (w : ReqWord) : Except DecodeError Instr :=
  if reqZero w = 0 then
    match (reqOp w).toNat with
    | 0 => .ok (.init (reqF w) (reqA w) (reqB w))
    | 1 => .ok (.enable (reqF w) (reqA w) (reqB w))
    | 2 => .ok (.setBrightness (reqF w) (reqA w) (reqB w))
    | 3 => .ok (.displaySegments (reqF w) (reqA w) (reqB w))
    | 4 => .ok (.clearSegments (reqF w) (reqA w) (reqB w))
    | 5 => .ok (.displayDigit (reqF w) (reqA w) (reqB w))
    | 6 => .ok (.setLed (reqF w) (reqA w) (reqB w))
    | 7 => .ok (.clearLeds (reqF w) (reqA w) (reqB w))
    | 8 => .ok (.scanKeys (reqF w) (reqA w) (reqB w))
    | _ => .error (.reservedOp (reqOp w))
  else .error (.nonZeroField (reqZero w))

/-- A command byte (30_encoding.md R80 to R85), by the `match` and `mask` of its row. -/
def decodeWire (c : Byte) : Except DecodeError Instr :=
  if c = 0x40 then .ok .dataCmdWriteAuto
  else if c = 0x44 then .ok .dataCmdWriteFixed
  else if c = 0x42 then .ok .dataCmdRead
  else if c &&& 0xF9 = 0x50 then .ok (.testCmd (c.getLsbD 2) (c.getLsbD 1))
  else if c &&& 0xF0 = 0x80 then .ok (.displayCtrl (c.getLsbD 3) (c.extractLsb' 0 3).toNat)
  else if c &&& 0xF0 = 0xC0 then .ok (.setAddr (c.extractLsb' 0 4).toNat)
  else if c = 0xFF then .ok .setAddrWrapped
  else if cmdClass c = 0 then .error (.noCommandClass c)
  else .error (.unassignedCommand c)

/-- The decoder. -/
def decode : Packet → Except DecodeError Instr
  | .request w => decodeRequest w
  | .wire c => decodeWire c

/-- The packet whose bits are `w`: 24 bits are a request word, 8 bits a command byte. -/
def packetOf (nbits w : Nat) : Option Packet :=
  match nbits with
  | 24 => some (.request (BitVec.ofNat 24 w))
  | 8 => some (.wire (BitVec.ofNat 8 w))
  | _ => none

/-- The instruction the decoder reads from a row's bits (none where it refuses). -/
def decodeTableWord (nbits w : Nat) : Option Instr :=
  match packetOf nbits w with
  | some p => (decode p).toOption
  | none => none

/-! ## Encoding -/

/-- A request word from its fields: `(op << 20) | (f << 16) | (a << 8) | b` (30_encoding.md R70, R72). -/
def requestWord (op : BitVec 4) (f : Bool) (a b : Byte) : ReqWord :=
  op ++ 0b000#3 ++ BitVec.ofBool f ++ a ++ b

/-- The encoder: the packet of an instruction. -/
def encode : Instr → Packet
  | .init f a b => .request (requestWord 0 f a b)
  | .enable f a b => .request (requestWord 1 f a b)
  | .setBrightness f a b => .request (requestWord 2 f a b)
  | .displaySegments f a b => .request (requestWord 3 f a b)
  | .clearSegments f a b => .request (requestWord 4 f a b)
  | .displayDigit f a b => .request (requestWord 5 f a b)
  | .setLed f a b => .request (requestWord 6 f a b)
  | .clearLeds f a b => .request (requestWord 7 f a b)
  | .scanKeys f a b => .request (requestWord 8 f a b)
  | .dataCmdWriteAuto => .wire 0b01000000
  | .dataCmdWriteFixed => .wire 0b01000100
  | .dataCmdRead => .wire 0b01000010
  | .testCmd fixed read =>
    .wire (0b01010#5 ++ BitVec.ofBool fixed ++ BitVec.ofBool read ++ 0b0#1)
  | .displayCtrl on level =>
    .wire (0b1000#4 ++ BitVec.ofBool on ++ BitVec.ofNat 3 level)
  | .setAddr addr => .wire (0b1100#4 ++ BitVec.ofNat 4 addr)
  | .setAddrWrapped => .wire 0b11111111

end Sys2Proof
end

