-- ==== Sys2Proof/Machine/Sequencer.lean ====
section
/-! DEFINITION. The host side of the machine: which packet is next, its acceptance, the illegal request, and the sequencer
that emits one pin event a step (10_state.md R18, R20, R21; 30_encoding.md R74). -/

namespace Sys2Proof.Machine

/-- The trace of the operation in progress, from the operand latches, `CFG` and `DIGIT_ROM` (10_state.md R18). -/
def State.program (op : BitVec 4) (s : State) : List Beat :=
  match op.toNat with
  | 0 => initBeats s.operands.f s.operands.a
  | 1 => enableBeats s.cfg s.operands.f
  | 2 => brightnessBeats s.cfg s.operands.a
  | 3 => segmentsBeats s.operands.a s.operands.b
  | 4 => clearSegmentsBeats
  | 5 => digitBeats s.digitRom s.operands.a s.operands.b s.operands.f
  | 6 => ledBeats s.operands.a s.operands.b
  | 7 => clearLedsBeats
  | 8 => scanFrame
  | _ => []

/-- What the operation in progress returns (10_state.md R15). -/
def State.resultOf (op : BitVec 4) (s : State) : Byte := if op = 8 then keysResult s else noResult s

/-- While running, a step emits event `k` and advances `k`; in the cycle after the last event the operation completes
(10_state.md R18, R21). -/
def State.advance (op : BitVec 4) (k : Nat) (s : State) : State :=
  match (s.program op)[k]? with
  | some b => { s.beat b with seq := .running op (k + 1) }
  | none => s.complete (s.resultOf op) false

/-- The packet the idle machine takes next: the host's first request, since one that is presented is accepted at once
(10_state.md R21); with none presented, a byte that other logic sends to the peer (assumption 4). -/
def State.fetch (s : State) : Option Packet :=
  match s.host.requests with
  | w :: _ => some (.request w)
  | [] => s.host.busIn.map .wire

/-- The machine once the packet is taken: it is no longer presented, and `rsp_valid` of the cycle before is over. -/
def State.consume (p : Packet) (s : State) : State :=
  match p with
  | .wire _ => { s.endCycle with host := { s.host with busIn := none } }
  | .request _ => { s.endCycle with host := { s.host with requests := s.host.requests.tail } }

/-- Acceptance of the request word `w` (10_state.md R13, R21). -/
def State.acceptWord (w : ReqWord) (s : State) : State := s.accept (reqOp w) (reqF w) (reqA w) (reqB w)

/-- A packet that is no instruction of the table. An illegal request is accepted, emits nothing and completes with
`rsp_illegal` (30_encoding.md R74). Any other byte reaches the peer, which classifies it by its top bits all the same
(20_memory.md R53 to R55, R61 a). -/
def State.takeUndecoded (p : Packet) (s : State) : State :=
  match p with
  | .wire c => { s with peer := s.peer.loneCommand c }
  | .request w => (s.acceptWord w).complete 0 true

/-- A legal request starts event by event (10_state.md R18); a byte for the peer has no events. -/
def State.startsPerEvent (p : Packet) (s : State) : Option ReqWord :=
  match p with
  | .wire _ => none
  | .request w => if s.host.perEvent then some w else none

end Sys2Proof.Machine
end

