-- ==== Sys2Proof/Machine/Step.lean ====
section
/-! DEFINITION. One step of the machine. -/

namespace Sys2Proof.Machine

/-- One step. In a cycle with `rst` = 1 the adapter resets, whatever it was doing (70_reset_and_hazards.md R230, R233,
60_exceptions.md R203). While an operation runs, it advances by one event (10_state.md R18); a request presented then is
not accepted (10_state.md R21). When idle, the next packet is taken and its instruction executed whole (10_state.md R21),
or begun, if the machine steps event by event; with no packet the cycle only ends. -/
def step (s : State) : Host.Outcome State Fault Refusal :=
  if s.host.rst then .next s.resetAdapter
  else
    match s.seq with
    | .running op k => .next (s.advance op k)
    | .idle =>
      match s.fetch with
      | none => .next s.endCycle
      | some p =>
        match decode p with
        | .error _ => .next ((s.consume p).takeUndecoded p)
        | .ok i =>
          match s.startsPerEvent p with
          | some w => .next ((s.consume p).acceptWord w)
          | none => exec i (s.consume p)

/-- The packet with bits `w` presented where the next step takes its packet: no reset, the adapter idle, stepping whole
operations; for a byte on the wire, no request presented. -/
def State.withFetchWord (s : State) (nbits w : Nat) : State :=
  match packetOf nbits w with
  | some (.request r) =>
    { s with
      seq := .idle
      host := { rst := false, requests := r :: s.host.requests, busIn := none, perEvent := false } }
  | some (.wire c) =>
    { s with
      seq := .idle
      host := { rst := false, requests := [], busIn := some c, perEvent := s.host.perEvent } }
  | none => s

end Sys2Proof.Machine
end

