-- ==== Sys2Proof/Machine/Shown.lean ====
section
/-! DEFINITION. What the display shows under the reference peer, a function of peer state alone (20_memory.md R63), and the
segments a byte lights (30_encoding.md R86). -/

namespace Sys2Proof.Machine

/-- The segment byte that digit `p` (0 to 7) shows: `ram[2p]` while the display is on, nothing while it is off
(20_memory.md R63); in test mode a free byte for each digit (20_memory.md R61 e, assumption 3). -/
def Peer.digitShown (pr : Peer) (p : Nat) : Byte :=
  if pr.mode.test then Config.freeShown pr.draws p
  else if pr.disp.on then pr.readRam (2 * p) else 0

/-- The LED slot at odd address `a` is lit (20_memory.md R63); in test mode a free bit for each slot (20_memory.md R61 e,
assumption 3). -/
def Peer.ledLit (pr : Peer) (a : Nat) : Bool :=
  if pr.mode.test then Config.freeLit pr.draws a
  else pr.disp.on && (pr.readRam a).getLsbD 0

/-- The segments a segment byte lights under the assignment `assign` of bits 0, 1, … 6: bit 7 is the dot
(30_encoding.md R86). -/
def litSegments (assign : List Segment) (v : Byte) : List Segment :=
  (assign.zipIdx.filter fun p => v.getLsbD p.2).map Prod.fst ++ (if v.getLsbD 7 then [.dot] else [])

end Sys2Proof.Machine
end

