-- ==== Sys2Proof/Machine/Transcript.lean ====
section
/-! DEFINITION. What is derived from a pin trace: the byte transcript (00_scope.md section 5.5, 41_bus_transport.md R121), the
pin events of a transcript, event counts and the least duration (41_bus_transport.md R119, 70_reset_and_hazards.md
R246, R248). -/

namespace Sys2Proof.Machine

/-- A byte transfer: `W v` a `WriteByte(v)`, `R v` a `ReadByte()` that returned `v` (00_scope.md section 5.5). -/
inductive Transfer where
  | w (v : Byte)
  | r (v : Byte)
  deriving DecidableEq, Repr

/-! ## Events of a transcript -/

/-- The five events of one bit time of `WriteByte` (41_bus_transport.md R115). -/
def writeBitEvents (level : Bool) : List PinEvent := [.clk false, .wait, .dio level, .clk true, .wait]

/-- The five events of one bit time of `ReadByte` (41_bus_transport.md R116). -/
def readBitEvents (level : Bool) : List PinEvent := [.clk false, .wait, .sample level, .clk true, .wait]

/-- The events of a byte transfer (41_bus_transport.md R115, R116). -/
def transferEvents (t : Transfer) : List PinEvent :=
  match t with
  | .w v => (levelsOf v).flatMap writeBitEvents
  | .r v => [.dirIn, .dio true] ++ (levelsOf v).flatMap readBitEvents ++ [.dirOut, .dio false]

/-- The events of a frame (41_bus_transport.md R121). -/
def frameEvents (ts : List Transfer) : List PinEvent := [.stb false] ++ ts.flatMap transferEvents ++ [.stb true]

/-- The events of a transcript. -/
def transcriptEvents (frames : List (List Transfer)) : List PinEvent := frames.flatMap frameEvents

/-- The transcript of `SendData(a, d)`: `[W 0x44]`, `[W (0xC0 | a), W d]` (41_bus_transport.md R118). -/
def dataFrames (a d : Byte) : List (List Transfer) := [[.w 0x44], [.w (0xC0 ||| a), .w d]]

/-- The transcript of `SendConfig` with clamped brightness `br`: `[W 0x40]`, `[W DispCmd(en, br)]`
(42_command_encoder.md R138). -/
def configFrames (en : Bool) (br : BitVec 3) : List (List Transfer) := [[.w 0x40], [.w (dispCmd en br)]]

/-! ## The transcript of a trace (41_bus_transport.md R121) -/

/-- `n` bit times of a write, least significant bit first: the levels and the events left. -/
def takeWriteBits (n : Nat) (es : List PinEvent) : Option (List Bool × List PinEvent) :=
  match n with
  | 0 => some ([], es)
  | k + 1 =>
    match es with
    | .clk false :: .wait :: .dio level :: .clk true :: .wait :: rest =>
      (takeWriteBits k rest).map fun r => (level :: r.1, r.2)
    | _ => none

/-- `n` bit times of a read, least significant bit first: the levels and the events left. -/
def takeReadBits (n : Nat) (es : List PinEvent) : Option (List Bool × List PinEvent) :=
  match n with
  | 0 => some ([], es)
  | k + 1 =>
    match es with
    | .clk false :: .wait :: .sample level :: .clk true :: .wait :: rest =>
      (takeReadBits k rest).map fun r => (level :: r.1, r.2)
    | _ => none

/-- One byte transfer: `W v` or `R v`, and the events left. -/
def takeTransfer (es : List PinEvent) : Option (Transfer × List PinEvent) :=
  match es with
  | .dirIn :: .dio true :: rest =>
    match takeReadBits 8 rest with
    | some (levels, .dirOut :: .dio false :: left) => some (.r (byteOfLevels levels), left)
    | _ => none
  | _ => (takeWriteBits 8 es).map fun r => (.w (byteOfLevels r.1), r.2)

/-- The transfers up to the closing `STB(1)`, and the events after it; `fuel` bounds their number. -/
def takeTransfers (fuel : Nat) (es : List PinEvent) : Option (List Transfer × List PinEvent) :=
  match fuel with
  | 0 => none
  | k + 1 =>
    match es with
    | .stb true :: rest => some ([], rest)
    | _ =>
      match takeTransfer es with
      | some (t, left) => (takeTransfers k left).map fun r => (t :: r.1, r.2)
      | none => none

/-- The leading events of `INIT`, which belong to no frame (45_initialization.md R185). -/
def initLead : List PinEvent := [.dirAllOut, .stb true, .clk true]

/-- The frames of a trace, with nothing left over but the leading events of each `INIT`; `fuel` bounds the number of frames
and of such leads. -/
def takeFrames (fuel : Nat) (es : List PinEvent) : Option (List (List Transfer)) :=
  match fuel with
  | 0 => none
  | k + 1 =>
    match es with
    | [] => some []
    | .dirAllOut :: .stb true :: .clk true :: rest => takeFrames k rest
    | .stb false :: rest =>
      match takeTransfers (rest.length + 1) rest with
      | some (ts, left) => (takeFrames k left).map fun fs => ts :: fs
      | none => none
    | _ => none

/-- The byte transcript of a pin trace, if it parses with nothing left over but the three leading events of each `INIT` in
it (41_bus_transport.md R121). -/
def transcript (es : List PinEvent) : Option (List (List Transfer)) := takeFrames (es.length + 1) es

/-! ## Counts and least durations -/

/-- An event is a `WAIT`. -/
def PinEvent.isWait (e : PinEvent) : Bool :=
  match e with
  | .wait => true
  | _ => false

/-- An event is a `SAMPLE`. -/
def PinEvent.isSample (e : PinEvent) : Bool :=
  match e with
  | .sample _ => true
  | _ => false

/-- An event writes the strobe's latch. -/
def PinEvent.isStrobe (e : PinEvent) : Bool :=
  match e with
  | .stb _ => true
  | _ => false

/-- The levels sampled in a trace, in order (40_pin_interface.md R107). -/
def sampleLevels (es : List PinEvent) : List Bool :=
  es.filterMap fun e =>
    match e with
    | .sample level => some level
    | _ => none

/-- The operands of the `DIO` events of a trace, in order (40_pin_interface.md R104). -/
def dioOperands (es : List PinEvent) : List Bool :=
  es.filterMap fun e =>
    match e with
    | .dio level => some level
    | _ => none

/-- The least time an event takes, in microseconds: `T_SETTLE` for a `WAIT`, `T_STB_GAP` after a strobe edge
(40_pin_interface.md R108, 70_reset_and_hazards.md R248). -/
def PinEvent.least (tm : Timing) (e : PinEvent) : Nat :=
  match e with
  | .wait => tm.tSettle
  | .stb _ => tm.tStbGap
  | _ => 0

/-- The least duration of a trace under the given parameters, in microseconds (41_bus_transport.md R119). -/
def leastDuration (tm : Timing) (es : List PinEvent) : Nat := (es.map (PinEvent.least tm)).sum

end Sys2Proof.Machine
end

