-- ==== Sys2Proof/Safety.lean ====
section
/-! DEFINITION. The conditions and invariants that the statements speak of. -/

namespace Sys2Proof.Machine

/-- The idle bus after `INIT`: all three lines driven, strobe and clock high (40_pin_interface.md R111). -/
def Pins.idleBus (p : Pins) : Bool := p.clk.oe && p.stb.oe && p.dio.oe && p.stb.out && p.clk.out

/-- The calling contract of the display operations and of `SCAN_KEYS`: the reference peer on an idle bus, with no frame open
(70_reset_and_hazards.md R236, 40_pin_interface.md R111, 20_memory.md R52). -/
def State.ready (s : State) : Bool := s.pins.idleBus && (s.peer.kind == .reference) && s.peer.frame.isNone

/-- The request code of a host operation, none for a command byte on the wire (30_encoding.md R72). -/
def requestOp (i : Instr) : Option (BitVec 4) :=
  match i with
  | .init _ _ _ => some 0
  | .enable _ _ _ => some 1
  | .setBrightness _ _ _ => some 2
  | .displaySegments _ _ _ => some 3
  | .clearSegments _ _ _ => some 4
  | .displayDigit _ _ _ => some 5
  | .setLed _ _ _ => some 6
  | .clearLeds _ _ _ => some 7
  | .scanKeys _ _ _ => some 8
  | .dataCmdWriteAuto => none
  | .dataCmdWriteFixed => none
  | .dataCmdRead => none
  | .testCmd _ _ => none
  | .displayCtrl _ _ => none
  | .setAddr _ => none
  | .setAddrWrapped => none

/-- Nothing the adapter does reaches the device on the bus: it drives no strobe, or the device has no state of its own
(70_reset_and_hazards.md R231, R236, 20_memory.md R50). -/
def State.unheard (s : State) : Bool := !s.pins.stb.oe || (s.peer.kind != .reference)

/-- Idle levels with the data latch at `v`, each direction as before (40_pin_interface.md R111). -/
def Pins.idledWith (p : Pins) (v : Bool) : Pins :=
  { clk := { p.clk with out := true }, stb := { p.stb with out := true }, dio := { p.dio with out := v } }

/-- What a host operation leaves: the registers it may write, the device on the bus, the events it emitted, its result. -/
structure Effect where
  cfg : Cfg
  pins : Pins
  work : Work
  peer : Peer
  events : List PinEvent
  data : Byte
  deriving DecidableEq, Repr

/-- The state after the request `op, f, a, b` was accepted, had the effect `e` and completed. Every field not listed is as
it was (10_state.md R13, R15, R21). -/
def State.completed (op : BitVec 4) (f : Bool) (a b : Byte) (e : Effect) (s : State) : State :=
  { s with
    cfg := e.cfg
    pins := e.pins
    operands := { op := op, f := f, a := a, b := b }
    work := e.work
    rsp := { data := e.data, illegal := false, valid := true }
    seq := .idle
    peer := e.peer
    trace := e.events.reverse ++ s.trace }

/-- The effect of an operation that does nothing (43_display_memory.md R151). -/
def State.noEffect (s : State) : Effect :=
  { cfg := s.cfg, pins := s.pins, work := s.work, peer := s.peer, events := [], data := 0 }

/-- The peer as the first command byte of an operation finds it: a frame left open has ended (20_memory.md R52, R61 g), and
after test mode its display RAM, pointer and display control are free (R61 e). -/
def Peer.found (p : Peer) : Peer := p.closeFrame.atCommand

/-- `q` with its display RAM, pointer and display control the free values of draw `n`, and no frame in progress. -/
def Peer.freed (n : Nat) (q : Peer) : Peer :=
  { q with
    ram := []
    epoch := n
    draws := n + 1
    ptr := Config.freePtr n
    disp := { on := Config.freeOn n, br := Config.freeBr n }
    frame := none }

/-- `p` is `q` after one byte was stored in fixed-address mode: display RAM address `x` reads `d`, every other address reads
as before, the mode and the pointer are those of the store, and nothing else differs (20_memory.md R57). -/
def Peer.storedAt (x : BitVec 4) (d : Byte) (q p : Peer) : Prop :=
  p.readRam x.toNat = d ∧ (∀ y, y ≠ x.toNat → p.readRam y = q.readRam y) ∧
    p = { q with ram := p.ram, mode := { fixed := true, read := false, test := false }, ptr := x, frame := none }

/-- `p` is `q` after a configuration was sent: every display RAM byte reads as before, the mode is write, auto-increment, the
display control is the one sent, and nothing else differs (20_memory.md R53, R54). -/
def Peer.configuredTo (en : Bool) (br : BitVec 3) (q p : Peer) : Prop :=
  (∀ y, p.readRam y = q.readRam y) ∧
    p = { q with mode := { fixed := false, read := false, test := false }, disp := { on := en, br := br }, frame := none }

/-- From `s` the operation `i` answers a state whose new events have this transcript, with so many frames, bytes on the bus,
pin events, waits and strobe events, and it takes at least `T_SETTLE` for each wait and `T_STB_GAP` for each strobe event,
whatever the two parameters are (70_reset_and_hazards.md R246, R248). -/
def Costs (i : Instr) (s : State) (frames bytes events waits strobes : Nat) : Prop :=
  ∃ t es fs, exec i s = .next t ∧ t.trace = es.reverse ++ s.trace ∧ transcript es = some fs ∧ fs.length = frames ∧
    (fs.map List.length).sum = bytes ∧ es.length = events ∧ es.countP PinEvent.isWait = waits ∧
    es.countP PinEvent.isStrobe = strobes ∧
    ∀ tm : Timing, leastDuration tm es = waits * tm.tSettle + strobes * tm.tStbGap

/-- Every `DIGIT_ROM` entry has bit 7 clear (10_state.md R16). -/
def romOk (rom : Vector Byte 10) : Bool := rom.toList.all fun v => !v.getLsbD 7

/-- The data are in form: the display RAM canonical, the digit table as 10_state.md R16 says. -/
def State.wf (s : State) : Bool := Memory.wf s.peer.ram && romOk s.digitRom

/-- Clock and strobe have one direction, since `INIT` and reset alone write it (10_state.md R12); once they are outputs,
the bus is idle between operations (40_pin_interface.md R111), with no frame open in the reference peer. -/
def State.busCoherent (s : State) : Bool :=
  (s.pins.clk.oe == s.pins.stb.oe)
    && (!s.pins.stb.oe || (s.pins.idleBus && (s.peer.kind != .reference || s.peer.frame.isNone)))

/-- The peer shows the configuration that `CFG` holds (42_command_encoder.md R139). -/
def State.configShown (s : State) : Bool := (s.peer.disp.on == s.cfg.en) && (s.peer.disp.br == s.cfg.br)

/-- The state steps whole operations: no operation is left half done (10_state.md R21). -/
def State.atomicIdle (s : State) : Bool := (s.seq == .idle) && !s.host.perEvent

/-- The adapter is in use as its contract asks (70_reset_and_hazards.md R236, R243): it steps whole operations, the reference
peer on its idle bus is not in test mode and shows the configuration, `rst` is 0 and nothing else drives the lines. -/
def State.inContract (s : State) : Bool :=
  s.atomicIdle && s.ready && s.configShown && !s.peer.mode.test && !s.host.rst && s.host.busIn.isNone

end Sys2Proof.Machine
end

