-- ==== Sys2Proof/Certificates/Slice0/Obligations.lean ====
section
/-! DEFINITION. The statements for the provers. Each is about every state unless it says otherwise; `State.ready` (the
reference peer on an idle bus, no frame open) and `State.unheard` (nothing the adapter does reaches the device) are the
conditions of the clauses about the peer, and `StepKeepsBusCoherent` says that a reference peer is always in one of the two
between operations. `Peer.found` is the peer as an operation's first command byte finds it: unchanged but in test mode and
after a frame cut in mid-byte (`UnspecifiedPeerIsFree`). What a statement says of a peer in test mode, or after such a frame, is
the model's choice (assumptions 3 and 8), since 20_memory.md R61 e and g specify nothing there. -/

open Sys2Proof Sys2Proof.Machine

/-- The registers that 10_state.md R26 gives a reset value hold it. The working registers, which R26 leaves
unspecified, are not spoken of. -/
def Obligations.ResetState : Prop :=
  let s := State.reset
  s.cfg.word = 0 ∧ s.clkOe = false ∧ s.stbOe = false ∧ s.dioOe = false ∧ s.clkO = false ∧ s.stbO = false ∧
    s.dioO = false ∧ s.dioPu = false ∧ s.seq = .idle ∧ s.busy = false ∧ s.reqReady = true ∧
    s.operands = { op := 0, f := false, a := 0, b := 0 } ∧ s.rspData = 0 ∧ s.rspIllegal = false ∧ s.rspValid = false ∧
    s.digitRom = Config.digitRom

/-- 20_memory.md R62: the power-on values of the reference peer, its display RAM unspecified (a free value for each
address: the form of the free value is the model's), and the adapter's reset does not reach it. `disp.br`, unspecified
too, is not spoken of. The rule marks these values as general knowledge (assumption 12). -/
def Obligations.PowerOnPeer : Prop :=
  State.reset.peer.kind = .reference ∧ State.reset.peer.mode = { fixed := false, read := false, test := false } ∧
    State.reset.peer.ptr = 0 ∧ State.reset.peer.disp.on = false ∧
    (∀ x, Ram.lookup State.reset.peer.ram x = none ∧ State.reset.peer.readRam x = Config.freeRam 0 x) ∧
    ∀ s : State, s.host.rst = true → ∃ t, step s = .next t ∧ t.peer = s.peer

/-- 70_reset_and_hazards.md R230, in every state, also while an operation runs (R233: no further event, no response,
the peer left where it was). The working registers are not spoken of: R26 gives them no value. -/
def Obligations.ResetCycle : Prop :=
  ∀ s : State, s.host.rst = true →
    s.reqReady = false ∧ ∃ t, step s = .next t ∧ t.cfg = { en := false, br := 0 } ∧
      t.pins = { clk := ⟨false, false⟩, stb := ⟨false, false⟩, dio := ⟨false, false⟩ } ∧
      t.operands = { op := 0, f := false, a := 0, b := 0 } ∧ t.rsp = { data := 0, illegal := false, valid := false } ∧
      t.seq = .idle ∧ t.digitRom = s.digitRom ∧ t.timing = s.timing ∧ t.host = s.host ∧ t.peer = s.peer ∧
      t.trace = s.trace ∧
      ({ t with host := { t.host with rst := false } } : State).reqReady = true

/-- 10_state.md R15 (`rsp_valid` lasts one cycle), 40_pin_interface.md R110 (no event between operations). -/
def Obligations.IdleCycle : Prop :=
  ∀ s : State, s.host.rst = false → s.seq = .idle → s.host.busIn = none → s.host.requests = [] →
    step s = .next { s with rsp := { s.rsp with valid := false } }

/-- 10_state.md R21: a request presented while `busy = 1` is not accepted and has no effect. -/
def Obligations.BusyIgnoresRequests : Prop :=
  ∀ (s : State) (op : BitVec 4) (k : Nat) (ws : List ReqWord), s.host.rst = false → s.seq = .running op k →
    s.reqReady = false ∧ ∃ t, step s = .next t ∧ t.host = s.host ∧ t.operands = s.operands ∧
      step { s with host := { s.host with requests := ws } } =
        .next { t with host := { t.host with requests := ws } }

/-- A whole-operation step is `exec` of the decoded packet, on the state with the packet taken off the host port and
`rsp_valid` of the cycle before over (10_state.md R15, R21). The packet is the request word whenever one is presented; that a
byte from other logic waits until none is, is the model's choice (assumption 4), and so are the choice of step (assumption
6) and that a packet is taken in the `rsp_valid` cycle too (assumption 23). -/
def Obligations.StepRunsDecodedPacket : Prop :=
  (∀ s : State, (s.reqValid = true → s.fetch = some (.request s.reqWord)) ∧
      (s.reqValid = false → s.fetch = s.host.busIn.map Packet.wire)) ∧
    (∀ (s : State) (w : ReqWord), s.consume (.request w) =
      { s with
        host := { s.host with requests := s.host.requests.tail }
        rsp := { s.rsp with valid := false } }) ∧
    (∀ (s : State) (c : Byte), s.consume (.wire c) =
      { s with
        host := { s.host with busIn := none }
        rsp := { s.rsp with valid := false } }) ∧
    ∀ (s : State) (p : Packet) (i : Instr), s.host.rst = false → s.seq = .idle → s.fetch = some p → decode p = .ok i →
      (∀ w, p = .request w → s.host.perEvent = false) → step s = exec i (s.consume p)

/-- 10_state.md R18 (while running, each step emits event k and advances k by one) against R21 (for a model one host
operation is one atomic transition). The two ways of stepping, and that acceptance and completion are one step each of the
finer way, are the model's choice (assumption 6). -/
def Obligations.EventByEventRefinesAtomic : Prop :=
  ∀ (s : State) (w : ReqWord) (rest : List ReqWord) (i : Instr), s.host.rst = false → s.seq = .idle →
    s.host.requests = w :: rest → s.host.perEvent = true → decode (.request w) = .ok i →
    let begun := (s.consume (.request w)).acceptWord w
    let n := (begun.program (reqOp w)).length
    (∀ k, k ≤ n → ∃ t, Host.Core.run Sys2Proof.core (k + 1) s = .next t ∧ t.seq = .running (reqOp w) k ∧
      t.trace.length = s.trace.length + k) ∧
      Host.Core.run Sys2Proof.core (n + 2) s = exec i (s.consume (.request w))

/-- 30_encoding.md R74. That the operand latches are loaded, as at every acceptance (10_state.md R13, R21), although R74 says
"no state change", and that it completes in the accepting step, of either kind, are the model's readings (assumption
15); that it is accepted in the `rsp_valid` cycle too is the model's choice (assumption 23). -/
def Obligations.IllegalRequestCompletes : Prop :=
  ∀ (s : State) (w : ReqWord) (rest : List ReqWord), s.host.rst = false → s.seq = .idle →
    s.host.requests = w :: rest → (8 < (reqOp w).toNat ∨ reqZero w ≠ 0) →
    step s = .next
      { s with
        host := { s.host with requests := rest }
        operands := { op := reqOp w, f := reqF w, a := reqA w, b := reqB w }
        rsp := { data := 0, illegal := true, valid := true } }

/-- 30_encoding.md R73, with the rows' match and mask of R72. -/
def Obligations.RequestDecodingIsTotal : Prop :=
  ∀ w : ReqWord,
    ((reqZero w = 0 ∧ (reqOp w).toNat ≤ 8) → ∃ i, decode (.request w) = .ok i ∧ requestOp i = some (reqOp w)) ∧
      (¬(reqZero w = 0 ∧ (reqOp w).toNat ≤ 8) → ∃ e, decode (.request w) = .error e) ∧
      ∀ n : BitVec 4, n.toNat ≤ 8 →
        (w &&& 0xFE0000#24 = n.setWidth 24 <<< 20 ↔ ∃ i, decode (.request w) = .ok i ∧ requestOp i = some n)

/-- Every instruction of the table, every operand at every value its encoding admits. -/
def Obligations.DecodeOfEncode : Prop :=
  ∀ i : Instr, i.wellFormed = true → decode (encode i) = .ok i

/-- Each request word and each command byte that decodes has one meaning, and no bit of it is dropped. -/
def Obligations.EncodeOfDecode : Prop :=
  ∀ (p : Packet) (i : Instr), decode p = .ok i → i.wellFormed = true ∧ encode i = p

/-- Words of 95_test_vectors.md V39 and command bytes of 30_encoding.md R81 to R83. -/
def Obligations.SampleWords : Prop :=
  decode (.request 0x010300) = .ok (.init true 3 0) ∧ decode (.request 0x110000) = .ok (.enable true 0 0) ∧
    decode (.request 0x20C800) = .ok (.setBrightness false 200 0) ∧
    decode (.request 0x30035B) = .ok (.displaySegments false 3 0x5B) ∧
    decode (.request 0x510307) = .ok (.displayDigit true 3 7) ∧ decode (.request 0x600501) = .ok (.setLed false 5 1) ∧
    decode (.request 0x800000) = .ok (.scanKeys false 0 0) ∧ decode (.request 0x8FFFFF) = .error (.nonZeroField 7) ∧
    decode (.request 0x900000) = .error (.reservedOp 9) ∧ decode (.wire 0x44) = .ok .dataCmdWriteFixed ∧
    decode (.wire 0x8B) = .ok (.displayCtrl true 3) ∧ decode (.wire 0xC9) = .ok (.setAddr 9) ∧
    decode (.wire 0xFF) = .ok .setAddrWrapped

/-- 60_exceptions.md R200: no operation faults for any operand value, any state or any behaviour of the peer; every
accepted request completes and produces a response. -/
def Obligations.EveryStepAnswersNext : Prop :=
  (∀ s : State, ∃ t, step s = .next t) ∧
    ∀ (i : Instr) (s : State), (requestOp i).isSome = true →
      ∃ t, exec i s = .next t ∧ t.seq = .idle ∧ t.rsp.valid = true ∧ t.rsp.illegal = false

/-- 45_initialization.md R185, from every state: the lines, the trace, `CFG` (written only after the block-clear
frame, the first 685 events), the response; the mode and the display control it leaves the peer in are those of its configuration frames
(42_command_encoder.md R142, R139). THE MODEL'S CHOICE: that they are so too for a peer in test mode (assumption 3), or one
whose frame was cut in mid-byte (assumption 8), where 20_memory.md R61 e and g specify nothing. The peer's RAM is the matter
of `InitClearsPeer`, `InitInFixedMode` and `InitInReadMode`. -/
def Obligations.InitResult : Prop :=
  ∀ (f : Bool) (a b : Byte) (s : State), ∃ w p,
    let es := [.dirAllOut, .stb true, .clk true] ++
      transcriptEvents ((.w 0xC0 :: List.replicate 16 (.w 0x00)) :: configFrames f (clamp a))
    exec (.init f a b) s = .next (s.completed 0x0 f a b
      { cfg := { en := f, br := clamp a }
        pins := { clk := ⟨true, true⟩, stb := ⟨true, true⟩, dio := ⟨true, true⟩ }
        work := w
        peer := p
        events := es
        data := 0 }) ∧
      es.length = 769 ∧ es.countP PinEvent.isWait = 304 ∧ es.countP PinEvent.isSample = 0 ∧
      w = { s.work with shr := w.shr, bitCnt := w.bitCnt, byteCnt := w.byteCnt, tmr := w.tmr } ∧
      ((s.accept 0x0 f a b).runBeats ((initBeats f a).take 685)).cfg = s.cfg ∧
      p = { s.peer with
        ram := p.ram, epoch := p.epoch, draws := p.draws, mode := p.mode, ptr := p.ptr
        disp := p.disp, frame := p.frame } ∧
      (s.peer.kind = .reference →
        p.mode = { fixed := false, read := false, test := false } ∧ p.disp = { on := f, br := clamp a } ∧ p.frame = none) ∧
      (s.peer.kind ≠ .reference → p = s.peer)

/-- 42_command_encoder.md R141 from every state; with the reference peer on an idle bus every display RAM byte is as
it is found and the peer shows the configuration; where the adapter drives no strobe, or the device has no state, the
device is unchanged. What it says of a peer in test mode (that 0x40 ends it, what is found) is the model's choice
(assumption 3). -/
def Obligations.EnableResult : Prop :=
  ∀ (f : Bool) (a b : Byte) (s : State), ∃ w p,
    let es := transcriptEvents [[.w 0x40], [.w (dispCmd f s.cfg.br)]]
    exec (.enable f a b) s = .next (s.completed 0x1 f a b
      { cfg := { en := f, br := s.cfg.br }
        pins := s.pins.idledWith true
        work := w
        peer := p
        events := es
        data := 0 }) ∧
      es.length = 84 ∧ w = { s.work with shr := w.shr, bitCnt := w.bitCnt, tmr := w.tmr } ∧
      (s.ready = true → Peer.configuredTo f s.cfg.br s.peer.found p) ∧
      (s.unheard = true → p = s.peer)

/-- 42_command_encoder.md R140 from every state; with the reference peer on an idle bus every display RAM byte is as
it is found and the peer shows the configuration; where the adapter drives no strobe, or the device has no state, the
device is unchanged. What it says of a peer in test mode (that 0x40 ends it, what is found) is the model's choice
(assumption 3). -/
def Obligations.SetBrightnessResult : Prop :=
  ∀ (f : Bool) (a b : Byte) (s : State), ∃ w p,
    let es := transcriptEvents [[.w 0x40], [.w (dispCmd s.cfg.en (clamp a))]]
    exec (.setBrightness f a b) s = .next (s.completed 0x2 f a b
      { cfg := { en := s.cfg.en, br := clamp a }
        pins := s.pins.idledWith true
        work := w
        peer := p
        events := es
        data := 0 }) ∧
      es.length = 84 ∧ w = { s.work with shr := w.shr, bitCnt := w.bitCnt, tmr := w.tmr } ∧
      (s.ready = true → Peer.configuredTo s.cfg.en (clamp a) s.peer.found p) ∧
      (s.unheard = true → p = s.peer)

/-- 43_display_memory.md R152 with the position check of R151. The address stored to is `pointerOf (addrCmd (digitAddr
a))`, which is 2A. What it says of a peer in test mode is the model's choice (assumption 3). -/
def Obligations.DisplaySegmentsResult : Prop :=
  ∀ (f : Bool) (a b : Byte) (s : State),
    (a.toNat ≤ 7 → ∃ w p,
      let es := transcriptEvents [[.w 0x44], [.w (0xC0 ||| digitAddr a), .w b]]
      let x := pointerOf (addrCmd (digitAddr a))
      exec (.displaySegments f a b) s = .next (s.completed 0x3 f a b
        { cfg := s.cfg
          pins := s.pins.idledWith (b.getLsbD 7)
          work := w
          peer := p
          events := es
          data := 0 }) ∧
        es.length = 124 ∧ x.toNat = 2 * a.toNat ∧ w = { s.work with shr := w.shr, bitCnt := w.bitCnt, tmr := w.tmr } ∧
        (s.ready = true → Peer.storedAt x b s.peer.found p) ∧ (s.unheard = true → p = s.peer)) ∧
      (7 < a.toNat → exec (.displaySegments f a b) s = .next (s.completed 0x3 f a b s.noEffect))

/-- 43_display_memory.md R154 with the position check of R151 and the digit table of the state. The address stored to
is `pointerOf (addrCmd (digitAddr a))`, which is 2A. What it says of a peer in test mode is the model's choice (assumption
3). -/
def Obligations.DisplayDigitResult : Prop :=
  ∀ (f : Bool) (a b : Byte) (s : State),
    (a.toNat ≤ 7 → ∃ w p,
      let es := transcriptEvents [[.w 0x44], [.w (0xC0 ||| digitAddr a), .w (segOf s.digitRom b f)]]
      let x := pointerOf (addrCmd (digitAddr a))
      exec (.displayDigit f a b) s = .next (s.completed 0x5 f a b
        { cfg := s.cfg
          pins := s.pins.idledWith ((segOf s.digitRom b f).getLsbD 7)
          work := w
          peer := p
          events := es
          data := 0 }) ∧
        es.length = 124 ∧ x.toNat = 2 * a.toNat ∧ w = { s.work with shr := w.shr, bitCnt := w.bitCnt, tmr := w.tmr } ∧
        (s.ready = true → Peer.storedAt x (segOf s.digitRom b f) s.peer.found p) ∧ (s.unheard = true → p = s.peer)) ∧
      (7 < a.toNat → exec (.displayDigit f a b) s = .next (s.completed 0x5 f a b s.noEffect))

/-- 43_display_memory.md R158 with the position check of R151 and the value reduction of R155. The address stored to is
`pointerOf (addrCmd (ledAddr a))`; that the byte 0xFF of position 0 selects address 15 is general knowledge (20_memory.md R55,
assumption 11), and what it says of a peer in test mode is the model's choice (assumption 3). -/
def Obligations.SetLedResult : Prop :=
  ∀ (f : Bool) (a b : Byte) (s : State),
    (a.toNat ≤ 7 → ∃ w p,
      let d : Byte := if b = 0 then 0x00 else 0x01
      let es := transcriptEvents [[.w 0x44], [.w (0xC0 ||| ledAddr a), .w d]]
      let x := pointerOf (addrCmd (ledAddr a))
      exec (.setLed f a b) s = .next (s.completed 0x6 f a b
        { cfg := s.cfg
          pins := s.pins.idledWith false
          work := w
          peer := p
          events := es
          data := 0 }) ∧
        es.length = 124 ∧ x.toNat = (if a.toNat = 0 then 15 else 2 * a.toNat - 1) ∧
        w = { s.work with shr := w.shr, bitCnt := w.bitCnt, tmr := w.tmr } ∧
        (s.ready = true → Peer.storedAt x d s.peer.found p) ∧ (s.unheard = true → p = s.peer)) ∧
      (7 < a.toNat → exec (.setLed f a b) s = .next (s.completed 0x6 f a b s.noEffect))

/-- 43_display_memory.md R157 from every state; the mode is the one that `SendData` leaves (42_command_encoder.md
R142). What it says of a peer in test mode is the model's choice (assumption 3). -/
def Obligations.ClearSegmentsResult : Prop :=
  ∀ (f : Bool) (a b : Byte) (s : State), ∃ w p,
    let es := transcriptEvents (([0, 2, 4, 6, 8, 10, 12, 14] : List Byte).flatMap fun x => [[.w 0x44], [.w (0xC0 ||| x), .w 0x00]])
    exec (.clearSegments f a b) s = .next (s.completed 0x4 f a b
      { cfg := s.cfg
        pins := s.pins.idledWith false
        work := w
        peer := p
        events := es
        data := 0 }) ∧
      es.length = 992 ∧ w = { s.work with shr := w.shr, bitCnt := w.bitCnt, posCnt := w.posCnt, tmr := w.tmr } ∧
      (s.ready = true →
        (∀ x, p.readRam x = if x < 16 ∧ x % 2 = 0 then 0 else s.peer.found.readRam x) ∧
          p = { s.peer.found with
            ram := p.ram, mode := { fixed := true, read := false, test := false }, ptr := 14 }) ∧
      (s.unheard = true → p = s.peer)

/-- 43_display_memory.md R159 from every state; the mode is the one that `SendData` leaves (42_command_encoder.md
R142). That the byte 0xFF selects address 15 is general knowledge (20_memory.md R55, assumption 11), and what it says of a
peer in test mode is the model's choice (assumption 3). -/
def Obligations.ClearLedsResult : Prop :=
  ∀ (f : Bool) (a b : Byte) (s : State), ∃ w p,
    let es := transcriptEvents (([0xFF, 1, 3, 5, 7, 9, 11, 13] : List Byte).flatMap fun x => [[.w 0x44], [.w (0xC0 ||| x), .w 0x00]])
    exec (.clearLeds f a b) s = .next (s.completed 0x7 f a b
      { cfg := s.cfg
        pins := s.pins.idledWith false
        work := w
        peer := p
        events := es
        data := 0 }) ∧
      es.length = 992 ∧ w = { s.work with shr := w.shr, bitCnt := w.bitCnt, posCnt := w.posCnt, tmr := w.tmr } ∧
      (s.ready = true →
        (∀ x, p.readRam x = if x < 16 ∧ x % 2 = 1 then 0 else s.peer.found.readRam x) ∧
          p = { s.peer.found with
            ram := p.ram, mode := { fixed := true, read := false, test := false }, ptr := 13 }) ∧
      (s.unheard = true → p = s.peer)

/-- 44_key_scanner.md R177 with the frame of R175 and the decoder of R176, from every state. With the reference peer on an
idle bus byte k carries key k in its bit 0 and key k + 4 in its bit 4, all other bits 0 (20_memory.md R58), from the keys as
they are at its own read (R60), so that keys that stay as they are over the scan are the result; nothing of the peer's RAM,
pointer or display control changes (R178). With no device every byte is 0xFF. The schedule of the keys is the form of the
model (assumption 19), the pull-up general knowledge (assumption 18), and what it says of a peer in test mode is the model's
choice (assumption 3). -/
def Obligations.ScanKeysResult : Prop :=
  ∀ (f : Bool) (a b : Byte) (s : State), ∃ b0 b1 b2 b3 w p,
    let es := frameEvents [.w 0x42, .r b0, .r b1, .r b2, .r b3]
    let keysAt (k : Nat) : Byte := s.peer.keyFeed.getD (s.peer.keyReads + k) s.peer.keys
    exec (.scanKeys f a b) s = .next (s.completed 0x8 f a b
      { cfg := s.cfg
        pins :=
          { clk := { s.pins.clk with out := true }
            stb := { s.pins.stb with out := true }
            dio := { out := false, oe := true } }
        work := w
        peer := p
        events := es
        data := keyDecode b0 b1 b2 b3 }) ∧
      es.length = 218 ∧ w.posCnt = s.work.posCnt ∧ w.keys = keyDecode b0 b1 b2 b3 ∧
      p.kind = s.peer.kind ∧ p.keys = s.peer.keys ∧ p.keyFeed = s.peer.keyFeed ∧
      (s.ready = true →
        (∀ k x, [b0, b1, b2, b3][k]? = some x → ∀ j, j < 8 →
          x.getLsbD j = ((j == 0 && (keysAt k).getLsbD k) || (j == 4 && (keysAt k).getLsbD (k + 4)))) ∧
          (∀ v, (∀ k, k < 4 → keysAt k = v) → keyDecode b0 b1 b2 b3 = v) ∧
          (s.peer.keyFeed.length ≤ s.peer.keyReads → keyDecode b0 b1 b2 b3 = s.peer.keys) ∧
          (∀ y, p.readRam y = s.peer.found.readRam y) ∧
          p = { s.peer.found with
            mode := { fixed := false, read := true, test := false }
            keyReads := s.peer.keyReads + 4 }) ∧
      (s.peer.kind = .absent → [b0, b1, b2, b3] = [0xFF, 0xFF, 0xFF, 0xFF] ∧ keyDecode b0 b1 b2 b3 = 0xFF ∧ p = s.peer)

/-- 20_memory.md R50: with the peer an unconstrained oracle every sample is a draw. That the draws are the free values
of a counter in State is the form of the model (assumption 10). -/
def Obligations.ScanOfOracleIsFree : Prop :=
  ∀ (f : Bool) (a b : Byte) (s : State), s.peer.kind = .oracle →
    ∃ t, exec (.scanKeys f a b) s = .next t ∧ t.peer = { s.peer with draws := s.peer.draws + 32 } ∧
      t.rsp.data = keyDecode
        (byteOfLevels ((List.range 8).map fun j => Config.freeBit (s.peer.draws + j)))
        (byteOfLevels ((List.range 8).map fun j => Config.freeBit (s.peer.draws + 8 + j)))
        (byteOfLevels ((List.range 8).map fun j => Config.freeBit (s.peer.draws + 16 + j)))
        (byteOfLevels ((List.range 8).map fun j => Config.freeBit (s.peer.draws + 24 + j)))

/-- 45_initialization.md R186 with its premise, from every state of the adapter and its lines (70_reset_and_hazards.md
R232). The premise says in addition that the peer is not in test mode, which the adapter never sets (30_encoding.md R85), and
that no frame was cut in mid-byte before: 20_memory.md R61 e and g specify nothing there. -/
def Obligations.InitClearsPeer : Prop :=
  ∀ (f : Bool) (a b : Byte) (s : State), s.peer.kind = .reference → s.peer.midByte = false →
    s.peer.mode = { fixed := false, read := false, test := false } →
    ∃ t, exec (.init f a b) s = .next t ∧ (∀ x, x < 16 → t.peer.readRam x = 0) ∧
      (∀ x, 16 ≤ x → t.peer.readRam x = s.peer.readRam x) ∧
      t.peer = { s.peer with
        ram := t.peer.ram, ptr := 0, disp := { on := f, br := clamp a }, frame := none }

/-- 70_reset_and_hazards.md R238: in fixed mode all sixteen zero bytes go to address 0. No frame was cut in mid-byte before
(20_memory.md R61 g). -/
def Obligations.InitInFixedMode : Prop :=
  ∀ (f : Bool) (a b : Byte) (s : State), s.peer.kind = .reference → s.peer.midByte = false →
    s.peer.mode = { fixed := true, read := false, test := false } →
    ∃ t, exec (.init f a b) s = .next t ∧ t.peer.readRam 0 = 0 ∧ (∀ x, x ≠ 0 → t.peer.readRam x = s.peer.readRam x) ∧
      t.peer = { s.peer with
        ram := t.peer.ram, mode := { fixed := false, read := false, test := false }, ptr := 0
        disp := { on := f, br := clamp a }, frame := none }

/-- THE MODEL'S CHOICE (assumption 3): where 20_memory.md R61 d leaves the effect of data bytes in read mode
unspecified, the display RAM is a fresh free value, as the vector V46 allows; the mode and the display control after
it are what the configuration frames of the same INIT send. -/
def Obligations.InitInReadMode : Prop :=
  ∀ (f : Bool) (a b : Byte) (s : State), s.peer.kind = .reference → s.peer.midByte = false →
    s.peer.mode.read = true →
    ∃ t n, exec (.init f a b) s = .next t ∧ s.peer.draws ≤ n ∧ (∀ x, t.peer.readRam x = Config.freeRam n x) ∧
      t.peer.mode = { fixed := false, read := false, test := false } ∧ t.peer.disp = { on := f, br := clamp a } ∧
      t.peer.keys = s.peer.keys ∧ t.peer.keyFeed = s.peer.keyFeed ∧ t.peer.frame = none

/-- 70_reset_and_hazards.md R238, last part: the safe ways of re-initialising a running system. ENABLE or SET_BRIGHTNESS
before INIT is safe on an idle bus from every mode of the peer; INIT twice from every state of the adapter, the lines and the
peer. THE MODEL'S CHOICE: that this takes in a peer in test mode (assumption 3) and, for INIT twice, one whose frame was cut in
mid-byte (assumption 8), where 20_memory.md R61 e and g specify nothing. -/
def Obligations.ReinitialisationClears : Prop :=
  ∀ (f g : Bool) (a b c d : Byte) (s : State),
    (s.ready = true →
      (∃ t u, exec (.enable g c d) s = .next t ∧ exec (.init f a b) t = .next u ∧ ∀ x, x < 16 → u.peer.readRam x = 0) ∧
        ∃ t u, exec (.setBrightness g c d) s = .next t ∧ exec (.init f a b) t = .next u ∧
          ∀ x, x < 16 → u.peer.readRam x = 0) ∧
      (s.peer.kind = .reference →
        ∃ t u, exec (.init g c d) s = .next t ∧ exec (.init f a b) t = .next u ∧ ∀ x, x < 16 → u.peer.readRam x = 0)

/-- 70_reset_and_hazards.md R236, 45_initialization.md R187; that a scan reads 0xFF rests on the pull-up (general
knowledge, assumption 18). -/
def Obligations.OperationsBeforeInit : Prop :=
  ∀ (i : Instr) (s : State), s.peer.kind = .reference → s.peer.frame = none → s.pins.stb.oe = false →
    (requestOp i).isSome = true → (∀ f a b, i ≠ .init f a b) →
    ∃ t, exec i s = .next t ∧ t.peer = s.peer ∧ t.pins.clk.oe = s.pins.clk.oe ∧ t.pins.stb.oe = false ∧
      (∀ f a b, i = .scanKeys f a b → t.rsp.data = 0xFF ∧ t.pins.dio = { out := false, oe := true }) ∧
      (∀ f a b, i = .enable f a b → t.cfg = { s.cfg with en := f }) ∧
      ∀ f a b, i = .setBrightness f a b → t.cfg = { s.cfg with br := clamp a }

/-- 20_memory.md R53 with the bytes of 30_encoding.md R81 and R85. That the rows act as one-byte frames from other logic is the
model's choice (assumption 4), and so is what test mode does to the rest of the peer, where 20_memory.md R61 e specifies
nothing: display RAM, pointer and display control are free from then on (assumption 3). -/
def Obligations.DataCommandsSetMode : Prop :=
  ∀ s : State,
    let sets (m : Mode) : State := { s with peer := { s.peer.found with mode := m } }
    (s.peer.kind = .reference →
      exec .dataCmdWriteAuto s = .next (sets { fixed := false, read := false, test := false }) ∧
        exec .dataCmdWriteFixed s = .next (sets { fixed := true, read := false, test := false }) ∧
        exec .dataCmdRead s = .next (sets { fixed := false, read := true, test := false }) ∧
        ∀ fixed read, ∃ n, s.peer.draws ≤ n ∧ exec (.testCmd fixed read) s = .next
          { s with peer := { s.peer.freed n with mode := { fixed := fixed, read := read, test := true } } }) ∧
      (s.peer.kind ≠ .reference →
        exec .dataCmdWriteAuto s = .next s ∧ exec .dataCmdWriteFixed s = .next s ∧ exec .dataCmdRead s = .next s ∧
          ∀ fixed read, exec (.testCmd fixed read) s = .next s)

/-- 20_memory.md R54 with the byte of 30_encoding.md R82, in a frame of its own (assumption 4); in test mode by
assumption 3. -/
def Obligations.DisplayControlSetsDisplay : Prop :=
  ∀ (on : Bool) (level : Nat) (s : State), level ≤ 7 →
    (s.peer.kind = .reference → exec (.displayCtrl on level) s = .next
      { s with peer := { s.peer.found with disp := { on := on, br := BitVec.ofNat 3 level } } }) ∧
      (s.peer.kind ≠ .reference → exec (.displayCtrl on level) s = .next s)

/-- 20_memory.md R55 with the bytes of 30_encoding.md R83, in a frame of its own (assumption 4). That the byte 0xFF selects
address 15 is general knowledge (assumption 11); in test mode by assumption 3. -/
def Obligations.AddressCommandsSetPointer : Prop :=
  ∀ s : State,
    (s.peer.kind = .reference →
      (∀ addr, addr ≤ 15 → exec (.setAddr addr) s = .next
        { s with peer := { s.peer.found with ptr := BitVec.ofNat 4 addr } }) ∧
        exec .setAddrWrapped s = .next { s with peer := { s.peer.found with ptr := 15 } }) ∧
      (s.peer.kind ≠ .reference →
        (∀ addr, addr ≤ 15 → exec (.setAddr addr) s = .next s) ∧ exec .setAddrWrapped s = .next s)

/-- 20_memory.md R53, R54, R55: every byte is classified by its top two bits and the unassigned bits are ignored, also
of bytes that no row of the table has (assumption 17). THE MODEL'S CHOICES: the byte arrives in a frame of its own, is taken
when no request is presented and leaves the adapter alone (assumption 4); a class 0b00 byte, unspecified by R61 a, leaves every
register of the peer and its RAM free, and one that sets test mode all but the mode (R61 e; assumption 3). -/
def Obligations.BusByteIsClassified : Prop :=
  ∀ (s : State) (c : Byte), s.host.rst = false → s.seq = .idle → s.host.requests = [] → s.host.busIn = some c →
    s.peer.kind = .reference →
    ∃ p, step s = .next
      { s with host := { s.host with busIn := none }, rsp := { s.rsp with valid := false }, peer := p } ∧
      (c.extractLsb' 6 2 = 1 → c.getLsbD 4 = false → p = { s.peer.found with
        mode := { fixed := c.getLsbD 2, read := c.getLsbD 1, test := false } }) ∧
      (c.extractLsb' 6 2 = 1 → c.getLsbD 4 = true → ∃ n, s.peer.draws ≤ n ∧ p = { s.peer.freed n with
        mode := { fixed := c.getLsbD 2, read := c.getLsbD 1, test := true } }) ∧
      (c.extractLsb' 6 2 = 2 → p = { s.peer.found with disp := { on := c.getLsbD 3, br := c.extractLsb' 0 3 } }) ∧
      (c.extractLsb' 6 2 = 3 → p = { s.peer.found with ptr := c.extractLsb' 0 4 }) ∧
      (c.extractLsb' 6 2 = 0 → ∃ n, s.peer.draws ≤ n ∧ p = { s.peer.freed n with
        mode := { fixed := Config.freeFixed n, read := Config.freeRead n, test := Config.freeTest n } })

/-- 30_encoding.md R75 with the "-" entries of R72; the operand latches hold what was sent (10_state.md R13). -/
def Obligations.UnreadFieldsAreIgnored : Prop :=
  ∀ (f g : Bool) (a b c d : Byte) (s : State),
    let same (i j : Instr) : Prop :=
      ∃ t u, exec i s = .next t ∧ exec j s = .next u ∧ t = { u with operands := t.operands }
    same (.init f a b) (.init f a d) ∧ same (.enable f a b) (.enable f c d) ∧
      same (.setBrightness f a b) (.setBrightness g a d) ∧ same (.displaySegments f a b) (.displaySegments g a b) ∧
      same (.clearSegments f a b) (.clearSegments g c d) ∧ same (.setLed f a b) (.setLed g a b) ∧
      same (.clearLeds f a b) (.clearLeds g c d) ∧ same (.scanKeys f a b) (.scanKeys g c d)

/-- 30_encoding.md R92, 43_display_memory.md R154: the trace of DISPLAY_DIGIT is exactly the trace of its expansion,
for every position. -/
def Obligations.DigitIsSegments : Prop :=
  ∀ (f g : Bool) (a b : Byte) (s : State), ∃ t u, exec (.displayDigit f a b) s = .next t ∧
    exec (.displaySegments g a (segOf s.digitRom b f)) s = .next u ∧ t = { u with operands := t.operands }

/-- 30_encoding.md R92: CLEAR_SEGMENTS is DISPLAY_SEGMENTS p, 0x00 and CLEAR_LEDS is SET_LED p, 0, for p = 0, 1, ...
7, from every state. -/
def Obligations.ClearsAreEightOperations : Prop :=
  ∀ (f g : Bool) (a b : Byte) (r : Nat → State),
    ((∀ p, p < 8 → exec (.displaySegments g (BitVec.ofNat 8 p) 0) (r p) = .next (r (p + 1))) →
      ∃ t, exec (.clearSegments f a b) (r 0) = .next t ∧ t.trace = (r 8).trace ∧ t.pins = (r 8).pins ∧
        t.peer = (r 8).peer ∧ t.cfg = (r 8).cfg ∧ t.rsp = (r 8).rsp) ∧
      ((∀ p, p < 8 → exec (.setLed g (BitVec.ofNat 8 p) 0) (r p) = .next (r (p + 1))) →
        ∃ t, exec (.clearLeds f a b) (r 0) = .next t ∧ t.trace = (r 8).trace ∧ t.pins = (r 8).pins ∧
          t.peer = (r 8).peer ∧ t.cfg = (r 8).cfg ∧ t.rsp = (r 8).rsp)

/-- 42_command_encoder.md R137. -/
def Obligations.ClampSaturates : Prop :=
  ∀ br : Byte, (clamp br).toNat = min br.toNat 7

/-- 43_display_memory.md R150, R156 and the address bytes of 30_encoding.md R83; that 0xFF selects address 15 is
20_memory.md R55 (general knowledge, assumption 11). -/
def Obligations.PositionAddresses : Prop :=
  ∀ p : Byte, p.toNat ≤ 7 →
    (digitAddr p).toNat = 2 * p.toNat ∧ (ledAddr p).toNat = (2 * p.toNat + 255) % 256 ∧
      (addrCmd (digitAddr p)).toNat = 0xC0 + 2 * p.toNat ∧
      (p = 0 → ledAddr p = 0xFF ∧ addrCmd (ledAddr p) = 0xFF ∧ pointerOf (addrCmd (ledAddr p)) = 15) ∧
      (p ≠ 0 → (addrCmd (ledAddr p)).toNat = 0xC0 + (2 * p.toNat - 1) ∧
        (pointerOf (addrCmd (ledAddr p))).toNat = 2 * p.toNat - 1)

/-- 43_display_memory.md R153, for every digit table whose entries have bit 7 clear (10_state.md R16). -/
def Obligations.SegmentMapper : Prop :=
  (∀ (rom : Vector Byte 10) (d : Byte) (h : d.toNat < 10) (dot : Bool),
      segOf rom d dot = rom[d.toNat] ||| (if dot then 0x80 else 0)) ∧
    (∀ (rom : Vector Byte 10) (d : Byte) (dot : Bool), 10 ≤ d.toNat → segOf rom d dot = if dot then 0x80 else 0) ∧
    ∀ (rom : Vector Byte 10) (d : Byte), romOk rom = true →
      (segOf rom d false).getLsbD 7 = false ∧ segOf rom d true = segOf rom d false ||| 0x80

/-- 44_key_scanner.md R176, the table of result bits. -/
def Obligations.KeyDecoderBits : Prop :=
  ∀ b0 b1 b2 b3 : Byte,
    let r := keyDecode b0 b1 b2 b3
    r.getLsbD 0 = b0.getLsbD 0 ∧ r.getLsbD 1 = (b0.getLsbD 1 || b1.getLsbD 0) ∧
      r.getLsbD 2 = (b0.getLsbD 2 || b1.getLsbD 1 || b2.getLsbD 0) ∧
      ∀ i, i < 5 → r.getLsbD (i + 3) =
        (b0.getLsbD (i + 3) || b1.getLsbD (i + 2) || b2.getLsbD (i + 1) || b3.getLsbD i)

/-- 41_bus_transport.md R122, from every two states: the levels sampled are the DIO operands of an earlier
WriteByte(v). -/
def Obligations.ByteRoundTrip : Prop :=
  ∀ (s t : State) (v : Byte) (es fs : List PinEvent),
    (s.runBeats (writeByte v)).trace = fs.reverse ++ s.trace → (t.runBeats readByte).trace = es.reverse ++ t.trace →
    sampleLevels es = dioOperands fs → (t.runBeats readByte).work.acc = v

/-- 41_bus_transport.md R121: the transcript is obtained from the trace by cutting it at the strobe, with nothing left over
but the three leading events of each INIT in it; the frames of a transcript and the places of those leads give the trace
back. -/
def Obligations.TranscriptIsFaithful : Prop :=
  let whole (ops : List (Bool × List (List Transfer))) : List PinEvent :=
    ops.flatMap fun o => (if o.1 then [.dirAllOut, .stb true, .clk true] else []) ++ transcriptEvents o.2
  (∀ ops, transcript (whole ops) = some (ops.flatMap Prod.snd)) ∧
    ∀ (es : List PinEvent) (fs : List (List Transfer)), transcript es = some fs →
      ∃ ops, es = whole ops ∧ fs = ops.flatMap Prod.snd

/-- 30_encoding.md R89 (the four shapes of frame) and R84 (the set of command bytes the adapter can emit), for every
instruction from every state; no test-mode byte is among them (R85). -/
def Obligations.EmittedFrames : Prop :=
  ∀ (i : Instr) (s t : State), exec i s = .next t → ∃ lead fs, t.trace = (lead ++ transcriptEvents fs).reverse ++ s.trace ∧
    (lead = [] ∨ lead = [.dirAllOut, .stb true, .clk true]) ∧
    ∀ fr ∈ fs,
      (∃ c : Byte, fr = [.w c] ∧ (c = 0x40 ∨ c = 0x44 ∨ (0x80 ≤ c.toNat ∧ c.toNat ≤ 0x8F))) ∨
        (∃ c d : Byte, fr = [.w c, .w d] ∧ ((0xC0 ≤ c.toNat ∧ c.toNat ≤ 0xCE) ∨ c = 0xFF)) ∨
        fr = .w 0xC0 :: List.replicate 16 (.w 0x00) ∨
        ∃ b0 b1 b2 b3 : Byte, fr = [.w 0x42, .r b0, .r b1, .r b2, .r b3]

/-- 70_reset_and_hazards.md R246 from every state and for every value of `T_SETTLE` and `T_STB_GAP` (00_scope.md R3, R248); with
the defaults, 5 and 0, the least duration is five microseconds for each wait. The row of the illegal request is in
`IllegalRequestCompletes`: the trace is as before. -/
def Obligations.EventCounts : Prop :=
  State.reset.timing = { tSettle := 5, tStbGap := 0 } ∧
    ∀ (f : Bool) (a b : Byte) (s : State),
      Costs (.init f a b) s 3 19 769 304 7 ∧ Costs (.enable f a b) s 2 2 84 32 4 ∧
        Costs (.setBrightness f a b) s 2 2 84 32 4 ∧
        (a.toNat ≤ 7 → Costs (.displaySegments f a b) s 2 3 124 48 4 ∧ Costs (.displayDigit f a b) s 2 3 124 48 4 ∧
          Costs (.setLed f a b) s 2 3 124 48 4) ∧
        (7 < a.toNat → Costs (.displaySegments f a b) s 0 0 0 0 0 ∧ Costs (.displayDigit f a b) s 0 0 0 0 0 ∧
          Costs (.setLed f a b) s 0 0 0 0 0) ∧
        Costs (.clearSegments f a b) s 16 24 992 384 32 ∧ Costs (.clearLeds f a b) s 16 24 992 384 32 ∧
        Costs (.scanKeys f a b) s 1 5 218 80 2

/-- 41_bus_transport.md R119 and 44_key_scanner.md R175 from every state and for every value of `T_SETTLE` and `T_STB_GAP`; the
settle timer holds `T_SETTLE` after each (10_state.md R17; that it is not counted down is the model's choice, assumption
14). -/
def Obligations.MicroOperationCounts : Prop :=
  ∀ (v d : Byte) (en : Bool) (s : State) (bs : List Beat) (events waits samples strobes : Nat),
    (bs, events, waits, samples, strobes) ∈
      [(writeByte v, 40, 16, 0, 0), (readByte, 44, 16, 8, 0), (sendCommand v, 42, 16, 0, 2), (sendData v d, 124, 48, 0, 4),
        (sendConfig en v, 84, 32, 0, 4), (scanFrame, 218, 80, 32, 2)] →
    ∃ es, (s.runBeats bs).trace = es.reverse ++ s.trace ∧ es.length = events ∧ es.countP PinEvent.isWait = waits ∧
      es.countP PinEvent.isSample = samples ∧ es.countP PinEvent.isStrobe = strobes ∧
      (∀ tm : Timing, leastDuration tm es = waits * tm.tSettle + strobes * tm.tStbGap) ∧
      (s.runBeats bs).work.tmr = s.timing.tSettle

/-- 20_memory.md R57, last sentence, and 41_bus_transport.md R118: SendData(a, d) with a in 0 to 15 from any mode of
the peer (after test mode, the other addresses hold what that mode left, which is free: 20_memory.md R61 e; the model's
choice, assumption 3). -/
def Obligations.SendDataStores : Prop :=
  ∀ (s : State) (a d : Byte), a.toNat < 16 → s.ready = true →
    let t := s.runBeats (sendData a d)
    Peer.storedAt (BitVec.ofNat 4 a.toNat) d s.peer.found t.peer ∧ t.pins = s.pins.idledWith (d.getLsbD 7) ∧
      t.cfg = s.cfg ∧ t.trace = (transcriptEvents [[.w 0x44], [.w (0xC0 ||| a), .w d]]).reverse ++ s.trace

/-- The invariants of `StepKeepsWf` and `StepKeepsBusCoherent` hold right after reset. -/
def Obligations.ResetMeetsInvariants : Prop :=
  State.reset.wf = true ∧ State.reset.busCoherent = true ∧ State.reset.atomicIdle = true

/-- Every step of either kind, also resets and event-by-event steps, keeps the display RAM list strictly rising inside
the sixteen addresses (20_memory.md R40) and the digit table in form (10_state.md R16). -/
def Obligations.StepKeepsWf : Prop :=
  ∀ s t : State, s.wf = true → step s = .next t → t.wf = true

/-- 40_pin_interface.md R111 and 10_state.md R12 as an invariant of whole-operation steps: once clock and strobe are
outputs the bus is idle between operations and no frame is open. -/
def Obligations.StepKeepsBusCoherent : Prop :=
  ∀ s t : State, s.atomicIdle = true → s.busCoherent = true → step s = .next t →
    t.atomicIdle = true ∧ t.busCoherent = true

/-- 42_command_encoder.md R139: under the reference peer `disp.on = CFG.en` and `disp.br = CFG.br` whenever the
adapter is idle, as long as nothing else drives the lines (70_reset_and_hazards.md R243) and the adapter is not reset. The
whole condition is kept, so that the lemma chains over every run of such steps; it includes that the peer is not in test mode,
which the adapter never sets (30_encoding.md R85). -/
def Obligations.StepKeepsConfigurationShown : Prop :=
  ∀ s t : State, s.inContract = true → step s = .next t →
    t.inContract = true ∧ t.peer.disp = { on := t.cfg.en, br := t.cfg.br }

/-- 10_state.md R16 (DIGIT_ROM is never written, by reset neither: 70_reset_and_hazards.md R230), 00_scope.md R3 (`T_SETTLE`,
`T_STB_GAP`, PEER are parameters). THE MODEL'S CHOICES: the kind of peer is a field that no step changes (assumption 10); the
keys, which may change at any time (20_memory.md R60), are a fixed schedule over the peer's reads (assumption 19); `rst` and
the way of stepping stay as the state presents them (assumption 20). The requests and the byte from other logic are taken by
the steps (`StepRunsDecodedPacket`) and are not spoken of. -/
def Obligations.ConstantsNeverChange : Prop :=
  ∀ s t : State, step s = .next t →
    t.digitRom = s.digitRom ∧ t.timing = s.timing ∧ t.peer.kind = s.peer.kind ∧ t.peer.keys = s.peer.keys ∧
      t.peer.keyFeed = s.peer.keyFeed ∧ t.host.rst = s.host.rst ∧ t.host.perEvent = s.host.perEvent

/-- 45_initialization.md R187 and 10_state.md R12. -/
def Obligations.OnlyInitMakesOutputs : Prop :=
  ∀ (i : Instr) (s t : State), exec i s = .next t →
    ((∃ f a b, i = .init f a b) → t.pins.clk.oe = true ∧ t.pins.stb.oe = true ∧ t.pins.dio.oe = true) ∧
      ((∀ f a b, i ≠ .init f a b) → t.pins.clk.oe = s.pins.clk.oe ∧ t.pins.stb.oe = s.pins.stb.oe ∧
        ∃ es, t.trace = es ++ s.trace ∧ PinEvent.dirAllOut ∉ es) ∧
      ((∀ f a b, i ≠ .init f a b) → (∀ f a b, i ≠ .scanKeys f a b) → t.pins.dio.oe = s.pins.dio.oe)

/-- 10_state.md R11: the host cannot write CFG except through INIT, ENABLE and SET_BRIGHTNESS; reset writes it too
(R26). -/
def Obligations.CfgWriters : Prop :=
  (∀ (i : Instr) (s t : State), exec i s = .next t → (∀ f a b, i ≠ .init f a b) → (∀ f a b, i ≠ .enable f a b) →
      (∀ f a b, i ≠ .setBrightness f a b) → t.cfg = s.cfg) ∧
    ∀ s t : State, s.atomicIdle = true → step s = .next t → t.cfg ≠ s.cfg → s.host.rst = true ∨
      ∃ w i, s.host.requests.head? = some w ∧ decode (.request w) = .ok i ∧
        (requestOp i = some 0 ∨ requestOp i = some 1 ∨ requestOp i = some 2)

/-- 40_pin_interface.md R111. -/
def Obligations.IdleBusAfterOperations : Prop :=
  (∀ (f : Bool) (a b : Byte) (s t : State), exec (.init f a b) s = .next t → t.pins.idleBus = true) ∧
    ∀ (i : Instr) (s t : State), s.pins.idleBus = true → exec i s = .next t → t.pins.idleBus = true ∧
      (∀ f a b, i = .scanKeys f a b → t.pins.dio.out = false)

/-- 20_memory.md R63. THE MODEL'S CHOICE (assumption 3), where R61 e specifies nothing: in test mode what is shown is free, and
so is what an operation then finds in the display RAM; that ENABLE 0 ends test mode, so that nothing is shown after it. -/
def Obligations.DisplayOffKeepsContents : Prop :=
  (∀ (pr : Peer) (p x : Nat), pr.mode.test = false → p ≤ 7 →
      pr.digitShown p = (if pr.disp.on then pr.readRam (2 * p) else 0) ∧
        pr.ledLit x = (pr.disp.on && (pr.readRam x).getLsbD 0)) ∧
    ∀ (f g : Bool) (a b c d : Byte) (s : State), s.ready = true → f = false → g = true →
      ∃ t u, exec (.enable f a b) s = .next t ∧ exec (.enable g c d) t = .next u ∧
        ∀ p x, p ≤ 7 → t.peer.digitShown p = 0 ∧ t.peer.ledLit x = false ∧
          u.peer.digitShown p = s.peer.found.readRam (2 * p) ∧ u.peer.ledLit x = (s.peer.found.readRam x).getLsbD 0

/-- 20_memory.md R64: the operations in the order the host's requests were accepted; 30_encoding.md R91. That the second is
accepted in the cycle in which the first shows `rsp_valid` is the model's choice (assumption 23). -/
def Obligations.RequestsRunInOrder : Prop :=
  ∀ (s : State) (w x : ReqWord) (rest : List ReqWord) (i j : Instr), s.atomicIdle = true → s.host.rst = false →
    s.host.requests = w :: x :: rest → decode (.request w) = .ok i → decode (.request x) = .ok j →
    ∃ t u, exec i (s.consume (.request w)) = .next t ∧ exec j (t.consume (.request x)) = .next u ∧
      Host.Core.run Sys2Proof.core 2 s = .next u ∧ u.host.requests = rest

/-- 40_pin_interface.md R110 and 10_state.md R18: events are emitted one at a time in order; none between operations
and none in a reset cycle (70_reset_and_hazards.md R233). -/
def Obligations.TraceOnlyGrows : Prop :=
  ∀ s t : State, step s = .next t → ∃ es, t.trace = es ++ s.trace ∧
    (s.seq ≠ .idle → es.length ≤ 1) ∧ (s.host.rst = true → es = []) ∧
    (s.seq = .idle → s.fetch = none → es = [])

/-- 43_display_memory.md R161: the property "`clear_segments()` then `display_segments(3, X)` affects only digit 3",
for every position. What it says of a peer in test mode is the model's choice (assumption 3). -/
def Obligations.SegmentWritesAreLocal : Prop :=
  ∀ (f g : Bool) (a b p v : Byte) (s : State), s.ready = true → p.toNat ≤ 7 →
    ∃ t u, exec (.clearSegments f a b) s = .next t ∧ exec (.displaySegments g p v) t = .next u ∧
      u.peer.readRam (2 * p.toNat) = v ∧ (∀ q, q ≤ 7 → q ≠ p.toNat → u.peer.readRam (2 * q) = 0) ∧
      (∀ x, x % 2 = 1 → u.peer.readRam x = s.peer.found.readRam x) ∧ u.cfg = s.cfg ∧
      u.peer.disp = s.peer.found.disp

/-- 30_encoding.md R86 with the parameter `SEG_ASSIGN` of 00_scope.md R3: bit 7 lights the dot, and each of the other bits the
segment that the assignment gives it, for every assignment; the default assigns a to g to the bits 0 to 6 (general knowledge,
assumption 13). -/
def Obligations.SegmentsLit : Prop :=
  (∀ (assign : List Segment) (v : Byte), Segment.dot ∉ assign →
      (Segment.dot ∈ litSegments assign v ↔ v.getLsbD 7 = true) ∧
        ∀ seg, seg ≠ Segment.dot →
          (seg ∈ litSegments assign v ↔ ∃ i, assign[i]? = some seg ∧ v.getLsbD i = true)) ∧
    Config.segAssign = [.a, .b, .c, .d, .e, .f, .g]

/-- THE MODEL'S CHOICE (assumptions 3 and 8), where 20_memory.md R61 e and g specify nothing: what an operation's first
command byte finds of a peer in test mode, or of one whose frame was cut in mid-byte, is free. Else it finds the peer as it
was, the frame ended (20_memory.md R52). What is shown in test mode is free, each digit and each LED slot for itself. -/
def Obligations.UnspecifiedPeerIsFree : Prop :=
  ∀ p : Peer,
    (p.midByte = false → p.mode.test = false → p.found = { p with frame := none }) ∧
      (p.midByte = false → p.mode.test = true → p.found = p.freed p.draws) ∧
      (p.midByte = true → ∃ n, p.draws ≤ n ∧ p.found = { p.freed n with
        mode := { fixed := Config.freeFixed p.draws, read := Config.freeRead p.draws, test := Config.freeTest p.draws } }) ∧
      (∀ n x, (p.freed n).readRam x = Config.freeRam n x) ∧
      (p.mode.test = true → ∀ d x, p.digitShown d = Config.freeShown p.draws d ∧ p.ledLit x = Config.freeLit p.draws x)

/-- 41_bus_transport.md R121: every trace the adapter produces parses into frames, with nothing left over but the leading
events of each INIT; a whole-operation step, a reset among them, appends frames only. -/
def Obligations.StepKeepsTranscript : Prop :=
  ∀ (s t : State) (fs : List (List Transfer)), s.atomicIdle = true → transcript s.pinTrace = some fs → step s = .next t →
    t.atomicIdle = true ∧ ∃ gs, transcript t.pinTrace = some (fs ++ gs)
end

