-- ==== Sys2Proof/Laws/Counts.lean ====
section
/-! SUPPORT. Counts of the events of a transfer, a frame, a transcript, as sums over their parts (41_bus_transport.md R119). -/

namespace Sys2Proof.Machine

/-- The number of pin events of a transfer. -/
def Transfer.events (t : Transfer) : Nat :=
  match t with
  | .w _ => 40
  | .r _ => 44

/-- The number of samples of a transfer. -/
def Transfer.samples (t : Transfer) : Nat :=
  match t with
  | .w _ => 0
  | .r _ => 8

theorem transferEvents_length (t : Transfer) : (transferEvents t).length = t.events := by cases t <;> rfl
theorem transferEvents_waits (t : Transfer) : (transferEvents t).countP PinEvent.isWait = 16 := by cases t <;> rfl
theorem transferEvents_samples (t : Transfer) : (transferEvents t).countP PinEvent.isSample = t.samples := by
  cases t <;> rfl
theorem transferEvents_strobes (t : Transfer) : (transferEvents t).countP PinEvent.isStrobe = 0 := by cases t <;> rfl

theorem frameEvents_length (ts : List Transfer) : (frameEvents ts).length = (ts.map Transfer.events).sum + 2 := by
  have h : (ts.flatMap transferEvents).length = (ts.map Transfer.events).sum := by
    induction ts with
    | nil => rfl
    | cons t rest ih => simp [ih, transferEvents_length]
  simp [frameEvents, h]

theorem frameEvents_waits (ts : List Transfer) : (frameEvents ts).countP PinEvent.isWait = 16 * ts.length := by
  have h : (ts.flatMap transferEvents).countP PinEvent.isWait = 16 * ts.length := by
    induction ts with
    | nil => rfl
    | cons t rest ih => simp only [List.flatMap_cons, List.countP_append, ih, transferEvents_waits, List.length_cons]; omega
  simp only [frameEvents, List.countP_append, h]
  simp [PinEvent.isWait]

theorem frameEvents_samples (ts : List Transfer) :
    (frameEvents ts).countP PinEvent.isSample = (ts.map Transfer.samples).sum := by
  have h : (ts.flatMap transferEvents).countP PinEvent.isSample = (ts.map Transfer.samples).sum := by
    induction ts with
    | nil => rfl
    | cons t rest ih => simp [ih, transferEvents_samples]
  simp only [frameEvents, List.countP_append, h]
  simp [PinEvent.isSample]

theorem frameEvents_strobes (ts : List Transfer) : (frameEvents ts).countP PinEvent.isStrobe = 2 := by
  have h : (ts.flatMap transferEvents).countP PinEvent.isStrobe = 0 := by
    induction ts with
    | nil => rfl
    | cons t rest ih => simp only [List.flatMap_cons, List.countP_append, ih, transferEvents_strobes]
  simp only [frameEvents, List.countP_append, h]
  simp [PinEvent.isStrobe]

/-- The least duration is the number of waits times `T_SETTLE` and the number of strobe events times `T_STB_GAP`
(41_bus_transport.md R119, 70_reset_and_hazards.md R248). -/
theorem leastDuration_eq (tm : Timing) (es : List PinEvent) :
    leastDuration tm es =
      es.countP PinEvent.isWait * tm.tSettle + es.countP PinEvent.isStrobe * tm.tStbGap := by
  induction es with
  | nil => simp [leastDuration]
  | cons e rest ih =>
    have h : leastDuration tm (e :: rest) = e.least tm + leastDuration tm rest := rfl
    rw [h, ih, List.countP_cons, List.countP_cons]
    cases e <;> simp only [PinEvent.least, PinEvent.isWait, PinEvent.isStrobe, Bool.false_eq_true, if_false, if_true] <;> ring

theorem transcriptEvents_length (fs : List (List Transfer)) :
    (transcriptEvents fs).length = (fs.map fun ts => (ts.map Transfer.events).sum + 2).sum := by
  induction fs with
  | nil => rfl
  | cons ts rest ih => simp_all [transcriptEvents, frameEvents_length]

theorem transcriptEvents_waits (fs : List (List Transfer)) :
    (transcriptEvents fs).countP PinEvent.isWait = (fs.map fun ts => 16 * ts.length).sum := by
  induction fs with
  | nil => rfl
  | cons ts rest ih => simpa [transcriptEvents, frameEvents_waits] using ih

theorem transcriptEvents_samples (fs : List (List Transfer)) :
    (transcriptEvents fs).countP PinEvent.isSample = (fs.map fun ts => (ts.map Transfer.samples).sum).sum := by
  induction fs with
  | nil => rfl
  | cons ts rest ih => simpa [transcriptEvents, frameEvents_samples] using ih

theorem transcriptEvents_strobes (fs : List (List Transfer)) :
    (transcriptEvents fs).countP PinEvent.isStrobe = 2 * fs.length := by
  induction fs with
  | nil => rfl
  | cons ts rest ih =>
    simp only [transcriptEvents, List.flatMap_cons, List.countP_append, frameEvents_strobes, List.length_cons] at ih ⊢
    omega

end Sys2Proof.Machine
end

