-- ==== Sys2Proof/Laws/Encoding.lean ====
section
/-! SUPPORT. The fields of an encoded request word (30_encoding.md R70), in both directions. -/

namespace Sys2Proof

/-- An append as arithmetic. -/
theorem toNat_append_add {n m : Nat} (x : BitVec n) (y : BitVec m) : (x ++ y).toNat = x.toNat * 2 ^ m + y.toNat := by
  rw [BitVec.toNat_append, ← Nat.shiftLeft_add_eq_or_of_lt y.isLt, Nat.shiftLeft_eq]

/-- The word as a number. -/
theorem requestWord_toNat (op : BitVec 4) (f : Bool) (a b : Byte) :
    (requestWord op f a b).toNat = op.toNat * 2 ^ 20 + f.toNat * 2 ^ 16 + a.toNat * 2 ^ 8 + b.toNat := by
  have h : (requestWord op f a b).toNat = (op ++ 0b000#3 ++ BitVec.ofBool f ++ a ++ b).toNat := rfl
  rw [h]
  simp only [toNat_append_add]
  simp
  omega


@[simp] theorem reqOp_requestWord (op : BitVec 4) (f : Bool) (a b : Byte) : reqOp (requestWord op f a b) = op := by
  apply BitVec.eq_of_toNat_eq
  have := op.isLt; have := a.isLt; have := b.isLt; have := f.toNat_lt
  rw [reqOp, BitVec.extractLsb'_toNat, requestWord_toNat, Nat.shiftRight_eq_div_pow]; omega

@[simp] theorem reqZero_requestWord (op : BitVec 4) (f : Bool) (a b : Byte) : reqZero (requestWord op f a b) = 0 := by
  apply BitVec.eq_of_toNat_eq
  have := op.isLt; have := a.isLt; have := b.isLt; have := f.toNat_lt
  rw [reqZero, BitVec.extractLsb'_toNat, requestWord_toNat, Nat.shiftRight_eq_div_pow]; simp; omega

@[simp] theorem reqF_requestWord (op : BitVec 4) (f : Bool) (a b : Byte) : reqF (requestWord op f a b) = f := by
  have := op.isLt; have := a.isLt; have := b.isLt
  rw [reqF, BitVec.getLsbD, requestWord_toNat, Nat.testBit_eq_decide_div_mod_eq]
  cases f <;> simp <;> omega

@[simp] theorem reqA_requestWord (op : BitVec 4) (f : Bool) (a b : Byte) : reqA (requestWord op f a b) = a := by
  apply BitVec.eq_of_toNat_eq
  have := op.isLt; have := a.isLt; have := b.isLt; have := f.toNat_lt
  rw [reqA, BitVec.extractLsb'_toNat, requestWord_toNat, Nat.shiftRight_eq_div_pow]; omega

@[simp] theorem reqB_requestWord (op : BitVec 4) (f : Bool) (a b : Byte) : reqB (requestWord op f a b) = b := by
  apply BitVec.eq_of_toNat_eq
  have := op.isLt; have := a.isLt; have := b.isLt; have := f.toNat_lt
  rw [reqB, BitVec.extractLsb'_toNat, requestWord_toNat, Nat.shiftRight_eq_div_pow]; omega
/-- A word whose `zero` field is zero is made of its four other fields. -/
theorem requestWord_fields (w : ReqWord) (h : reqZero w = 0) : requestWord (reqOp w) (reqF w) (reqA w) (reqB w) = w := by
  apply BitVec.eq_of_toNat_eq
  have hz : (reqZero w).toNat = 0 := by rw [h]; rfl
  rw [requestWord_toNat]
  have hw := w.isLt
  have hf : (reqF w).toNat = w.toNat / 2 ^ 16 % 2 := by
    rw [reqF, BitVec.getLsbD, Nat.testBit_eq_decide_div_mod_eq]
    rcases Nat.mod_two_eq_zero_or_one (w.toNat / 2 ^ 16) with h | h <;> rw [h] <;> rfl
  rw [hf]
  rw [reqZero, BitVec.extractLsb'_toNat, Nat.shiftRight_eq_div_pow] at hz
  simp only [reqOp, reqA, reqB, BitVec.extractLsb'_toNat, Nat.shiftRight_eq_div_pow]
  omega

end Sys2Proof
end

