-- ==== Sys2Proof/Laws/Memory.lean ====
section
/-! SUPPORT. Display RAM: read after write, and every memory operation keeps the canonical form. -/

namespace Sys2Proof.Machine

@[simp] theorem lookup_insert_same (m : List Host.Cell) (a : Nat) (v : Byte) :
    Ram.lookup (Ram.insert m a v) a = some v := by
  induction m with
  | nil => simp [Ram.insert, Ram.lookup]
  | cons c rest ih =>
    obtain ⟨k, w⟩ := c
    unfold Ram.insert
    split
    · simp [Ram.lookup]
    · split
      · simp [Ram.lookup]
      · simp only [Ram.lookup]
        rw [if_neg (by omega), ih]

theorem lookup_insert_other (m : List Host.Cell) (a x : Nat) (v : Byte) (h : x ≠ a) :
    Ram.lookup (Ram.insert m a v) x = Ram.lookup m x := by
  induction m with
  | nil => simp [Ram.insert, Ram.lookup, h.symm]
  | cons c rest ih =>
    obtain ⟨k, w⟩ := c
    unfold Ram.insert
    split
    · simp [Ram.lookup, h.symm]
    · split
      · subst_vars; simp [Ram.lookup, h.symm]
      · simp only [Ram.lookup, ih]

theorem risingFrom_mono (m : List Host.Cell) (lo hi : Nat) (hle : lo ≤ hi) (h : Ram.risingFrom hi m = true) :
    Ram.risingFrom lo m = true := by
  cases m with
  | nil => rfl
  | cons c rest =>
    simp only [Ram.risingFrom, Bool.and_eq_true, decide_eq_true_eq] at h ⊢
    exact ⟨⟨by omega, h.1.2⟩, h.2⟩

theorem risingFrom_insert (m : List Host.Cell) (lo a : Nat) (v : Byte) (hlo : lo ≤ a) (ha : a < 16)
    (h : Ram.risingFrom lo m = true) : Ram.risingFrom lo (Ram.insert m a v) = true := by
  induction m generalizing lo with
  | nil => simp [Ram.insert, Ram.risingFrom, hlo, ha]
  | cons c rest ih =>
    obtain ⟨k, w⟩ := c
    simp only [Ram.risingFrom, Bool.and_eq_true, decide_eq_true_eq] at h
    unfold Ram.insert
    split
    · simp only [Ram.risingFrom, Bool.and_eq_true, decide_eq_true_eq]
      exact ⟨⟨hlo, ha⟩, ⟨by omega, h.1.2⟩, h.2⟩
    · split
      · subst_vars
        simp only [Ram.risingFrom, Bool.and_eq_true, decide_eq_true_eq]
        exact ⟨⟨hlo, ha⟩, h.2⟩
      · simp only [Ram.risingFrom, Bool.and_eq_true, decide_eq_true_eq]
        exact ⟨h.1, ih (k + 1) (by omega) h.2⟩

theorem wf_insert (m : List Host.Cell) (a : BitVec 4) (v : Byte) (h : Memory.wf m = true) :
    Memory.wf (Ram.insert m a.toNat v) = true :=
  risingFrom_insert m 0 a.toNat v (Nat.zero_le _) a.isLt h

theorem wf_nil : Memory.wf [] = true := rfl

theorem reset_ram_wf : Memory.wf State.reset.peer.ram = true := rfl

theorem scramble_ram_wf (p : Peer) : Memory.wf p.scramble.ram = true := rfl

theorem unsettle_ram_wf (p : Peer) : Memory.wf p.unsettle.ram = true := rfl

theorem atCommand_ram_wf (p : Peer) (h : Memory.wf p.ram = true) : Memory.wf p.atCommand.ram = true := by
  unfold Peer.atCommand; split
  · exact unsettle_ram_wf p
  · exact h

theorem closeFrame_ram_wf (p : Peer) (h : Memory.wf p.ram = true) : Memory.wf p.closeFrame.ram = true := by
  unfold Peer.closeFrame; split
  · exact scramble_ram_wf p
  · exact h

theorem openFrame_ram_wf (p : Peer) (h : Memory.wf p.ram = true) : Memory.wf p.openFrame.ram = true :=
  closeFrame_ram_wf p h

theorem command_ram_wf (c : Byte) (p : Peer) (h : Memory.wf p.ram = true) : Memory.wf (p.command c).ram = true := by
  unfold Peer.command
  split
  · split
    · exact unsettle_ram_wf p
    · exact atCommand_ram_wf p h
  · exact atCommand_ram_wf p h
  · exact atCommand_ram_wf p h
  · exact scramble_ram_wf p

theorem store_ram_wf (d : Byte) (p : Peer) (h : Memory.wf p.ram = true) : Memory.wf (p.store d).ram = true :=
  wf_insert _ _ _ h

theorem receive_ram_wf (v : Byte) (p : Peer) (h : Memory.wf p.ram = true) : Memory.wf (p.receive v).ram = true := by
  unfold Peer.receive
  split
  · exact h
  · split <;> simp only
    · exact command_ram_wf v p h
    · exact store_ram_wf v p h
    · exact h
    · exact scramble_ram_wf p

theorem takeBit_ram_wf (level : Bool) (p : Peer) (h : Memory.wf p.ram = true) :
    Memory.wf (p.takeBit level).ram = true := by
  unfold Peer.takeBit
  split
  · exact h
  · split
    · exact receive_ram_wf _ p h
    · exact h

theorem transmitByte_ram (k : Nat) (p : Peer) : (p.transmitByte k).2.ram = p.ram := by
  unfold Peer.transmitByte; split <;> rfl

theorem putBit_ram (p : Peer) : p.putBit.ram = p.ram := by
  unfold Peer.putBit
  split
  · rfl
  · split
    · exact transmitByte_ram _ p
    · rfl

theorem endBit_ram (p : Peer) : p.endBit.ram = p.ram := by
  unfold Peer.endBit
  split
  · rfl
  · split <;> rfl

theorem senseDio_ram (pins : Pins) (p : Peer) : (senseDio pins p).2.ram = p.ram := by
  unfold senseDio; repeat' split
  all_goals rfl

theorem react_ram_wf (old new : Pins) (p : Peer) (h : Memory.wf p.ram = true) :
    Memory.wf (p.react old new).ram = true := by
  unfold Peer.react
  repeat' split
  all_goals first
    | exact h
    | exact openFrame_ram_wf p h
    | exact closeFrame_ram_wf p h
    | (rw [endBit_ram]; exact h)
    | (rw [putBit_ram]; exact h)
    | (exact takeBit_ram_wf _ _ (by rw [senseDio_ram]; exact h))

/-- Whatever lines change, the display RAM stays canonical. -/
theorem observe_ram_wf (old new : Pins) (p : Peer) (h : Memory.wf p.ram = true) :
    Memory.wf (p.observe old new).ram = true := by
  unfold Peer.observe; split
  · exact react_ram_wf old new p h
  · exact h
  · exact h

theorem loneCommand_ram_wf (c : Byte) (p : Peer) (h : Memory.wf p.ram = true) :
    Memory.wf (p.loneCommand c).ram = true := by
  unfold Peer.loneCommand; split
  · exact closeFrame_ram_wf _ (receive_ram_wf c _ (openFrame_ram_wf p h))
  · exact h
  · exact h

/-! ## Reading a byte of display RAM -/

/-- After a store the pointed address reads the byte stored. -/
theorem readRam_store_same (d : Byte) (p : Peer) : (p.store d).readRam p.ptr.toNat = d := by
  simp [Peer.readRam, Peer.store]

/-- A store leaves every other address alone. -/
theorem readRam_store_other (d : Byte) (p : Peer) (x : Nat) (h : x ≠ p.ptr.toNat) :
    (p.store d).readRam x = p.readRam x := by
  simp [Peer.readRam, Peer.store, lookup_insert_other _ _ _ _ h]

end Sys2Proof.Machine
end

