-- ==== Sys2Proof/Laws/State.lean ====
section
/-! SUPPORT. The fields of a state after each update: one lemma for each field and each named update, so that no proof
unfolds a record update. -/

namespace Sys2Proof.Machine

/-! ## `State.emit` -/

@[simp] theorem emit_cfg (e : PinEvent) (s : State) : (s.emit e).cfg = s.cfg := rfl

@[simp] theorem emit_pins (e : PinEvent) (s : State) : (s.emit e).pins = e.onPins s.pins := rfl

@[simp] theorem emit_operands (e : PinEvent) (s : State) : (s.emit e).operands = s.operands := rfl

@[simp] theorem emit_work (e : PinEvent) (s : State) : (s.emit e).work = s.work := rfl

@[simp] theorem emit_rsp (e : PinEvent) (s : State) : (s.emit e).rsp = s.rsp := rfl

@[simp] theorem emit_digitRom (e : PinEvent) (s : State) : (s.emit e).digitRom = s.digitRom := rfl

@[simp] theorem emit_timing (e : PinEvent) (s : State) : (s.emit e).timing = s.timing := rfl

@[simp] theorem emit_seq (e : PinEvent) (s : State) : (s.emit e).seq = s.seq := rfl

@[simp] theorem emit_host (e : PinEvent) (s : State) : (s.emit e).host = s.host := rfl

@[simp] theorem emit_peer (e : PinEvent) (s : State) :
    (s.emit e).peer = s.peer.observe s.pins (e.onPins s.pins) := rfl

@[simp] theorem emit_trace (e : PinEvent) (s : State) : (s.emit e).trace = e :: s.trace := rfl

/-! ## `State.sample` -/

@[simp] theorem sample_cfg (s : State) : (s.sample).cfg = s.cfg := rfl

@[simp] theorem sample_pins (s : State) : (s.sample).pins = s.pins := rfl

@[simp] theorem sample_operands (s : State) : (s.sample).operands = s.operands := rfl

@[simp] theorem sample_work (s : State) :
    (s.sample).work = { s.work with acc := shiftIn s.work.acc (senseDio s.pins s.peer).1 } := rfl

@[simp] theorem sample_rsp (s : State) : (s.sample).rsp = s.rsp := rfl

@[simp] theorem sample_digitRom (s : State) : (s.sample).digitRom = s.digitRom := rfl

@[simp] theorem sample_timing (s : State) : (s.sample).timing = s.timing := rfl

@[simp] theorem sample_seq (s : State) : (s.sample).seq = s.seq := rfl

@[simp] theorem sample_host (s : State) : (s.sample).host = s.host := rfl

@[simp] theorem sample_peer (s : State) : (s.sample).peer = (senseDio s.pins s.peer).2 := rfl

@[simp] theorem sample_trace (s : State) : (s.sample).trace = .sample (senseDio s.pins s.peer).1 :: s.trace := rfl

/-! ## `State.accept` -/

@[simp] theorem accept_cfg (op : BitVec 4) (f : Bool) (a b : Byte) (s : State) :
    (s.accept op f a b).cfg = s.cfg := rfl

@[simp] theorem accept_pins (op : BitVec 4) (f : Bool) (a b : Byte) (s : State) :
    (s.accept op f a b).pins = s.pins := rfl

@[simp] theorem accept_operands (op : BitVec 4) (f : Bool) (a b : Byte) (s : State) :
    (s.accept op f a b).operands = { op := op, f := f, a := a, b := b } := rfl

@[simp] theorem accept_work (op : BitVec 4) (f : Bool) (a b : Byte) (s : State) :
    (s.accept op f a b).work = s.work := rfl

@[simp] theorem accept_rsp (op : BitVec 4) (f : Bool) (a b : Byte) (s : State) :
    (s.accept op f a b).rsp = { s.rsp with valid := false } := rfl

@[simp] theorem accept_digitRom (op : BitVec 4) (f : Bool) (a b : Byte) (s : State) :
    (s.accept op f a b).digitRom = s.digitRom := rfl

@[simp] theorem accept_timing (op : BitVec 4) (f : Bool) (a b : Byte) (s : State) :
    (s.accept op f a b).timing = s.timing := rfl

@[simp] theorem accept_seq (op : BitVec 4) (f : Bool) (a b : Byte) (s : State) :
    (s.accept op f a b).seq = .running op 0 := rfl

@[simp] theorem accept_host (op : BitVec 4) (f : Bool) (a b : Byte) (s : State) :
    (s.accept op f a b).host = s.host := rfl

@[simp] theorem accept_peer (op : BitVec 4) (f : Bool) (a b : Byte) (s : State) :
    (s.accept op f a b).peer = s.peer := rfl

@[simp] theorem accept_trace (op : BitVec 4) (f : Bool) (a b : Byte) (s : State) :
    (s.accept op f a b).trace = s.trace := rfl

/-! ## `State.complete` -/

@[simp] theorem complete_cfg (d : Byte) (ill : Bool) (s : State) : (s.complete d ill).cfg = s.cfg := rfl

@[simp] theorem complete_pins (d : Byte) (ill : Bool) (s : State) : (s.complete d ill).pins = s.pins := rfl

@[simp] theorem complete_operands (d : Byte) (ill : Bool) (s : State) :
    (s.complete d ill).operands = s.operands := rfl

@[simp] theorem complete_work (d : Byte) (ill : Bool) (s : State) : (s.complete d ill).work = s.work := rfl

@[simp] theorem complete_rsp (d : Byte) (ill : Bool) (s : State) :
    (s.complete d ill).rsp = { data := d, illegal := ill, valid := true } := rfl

@[simp] theorem complete_digitRom (d : Byte) (ill : Bool) (s : State) :
    (s.complete d ill).digitRom = s.digitRom := rfl

@[simp] theorem complete_timing (d : Byte) (ill : Bool) (s : State) :
    (s.complete d ill).timing = s.timing := rfl

@[simp] theorem complete_seq (d : Byte) (ill : Bool) (s : State) : (s.complete d ill).seq = .idle := rfl

@[simp] theorem complete_host (d : Byte) (ill : Bool) (s : State) : (s.complete d ill).host = s.host := rfl

@[simp] theorem complete_peer (d : Byte) (ill : Bool) (s : State) : (s.complete d ill).peer = s.peer := rfl

@[simp] theorem complete_trace (d : Byte) (ill : Bool) (s : State) : (s.complete d ill).trace = s.trace := rfl

/-! ## `State.endCycle` -/

@[simp] theorem endCycle_cfg (s : State) : (s.endCycle).cfg = s.cfg := rfl

@[simp] theorem endCycle_pins (s : State) : (s.endCycle).pins = s.pins := rfl

@[simp] theorem endCycle_operands (s : State) : (s.endCycle).operands = s.operands := rfl

@[simp] theorem endCycle_work (s : State) : (s.endCycle).work = s.work := rfl

@[simp] theorem endCycle_rsp (s : State) : (s.endCycle).rsp = { s.rsp with valid := false } := rfl

@[simp] theorem endCycle_digitRom (s : State) : (s.endCycle).digitRom = s.digitRom := rfl

@[simp] theorem endCycle_timing (s : State) : (s.endCycle).timing = s.timing := rfl

@[simp] theorem endCycle_seq (s : State) : (s.endCycle).seq = s.seq := rfl

@[simp] theorem endCycle_host (s : State) : (s.endCycle).host = s.host := rfl

@[simp] theorem endCycle_peer (s : State) : (s.endCycle).peer = s.peer := rfl

@[simp] theorem endCycle_trace (s : State) : (s.endCycle).trace = s.trace := rfl

/-! ## `State.resetAdapter` -/

@[simp] theorem resetAdapter_cfg (s : State) : (s.resetAdapter).cfg = { en := false, br := 0 } := rfl

@[simp] theorem resetAdapter_pins (s : State) :
    (s.resetAdapter).pins = { clk := ⟨false, false⟩, stb := ⟨false, false⟩, dio := ⟨false, false⟩ } := rfl

@[simp] theorem resetAdapter_operands (s : State) :
    (s.resetAdapter).operands = { op := 0, f := false, a := 0, b := 0 } := rfl

@[simp] theorem resetAdapter_work (s : State) :
    (s.resetAdapter).work = { shr := 0, acc := 0, keys := 0, bitCnt := 0, byteCnt := 0, posCnt := 0, tmr := 0 } := rfl

@[simp] theorem resetAdapter_rsp (s : State) :
    (s.resetAdapter).rsp = { data := 0, illegal := false, valid := false } := rfl

@[simp] theorem resetAdapter_digitRom (s : State) : (s.resetAdapter).digitRom = s.digitRom := rfl

@[simp] theorem resetAdapter_timing (s : State) : (s.resetAdapter).timing = s.timing := rfl

@[simp] theorem resetAdapter_seq (s : State) : (s.resetAdapter).seq = .idle := rfl

@[simp] theorem resetAdapter_host (s : State) : (s.resetAdapter).host = s.host := rfl

@[simp] theorem resetAdapter_peer (s : State) : (s.resetAdapter).peer = s.peer := rfl

@[simp] theorem resetAdapter_trace (s : State) : (s.resetAdapter).trace = s.trace := rfl

/-! ## `State.wireCommand` -/

@[simp] theorem wireCommand_cfg (c : Byte) (s : State) : (s.wireCommand c).cfg = s.cfg := rfl

@[simp] theorem wireCommand_pins (c : Byte) (s : State) : (s.wireCommand c).pins = s.pins := rfl

@[simp] theorem wireCommand_operands (c : Byte) (s : State) : (s.wireCommand c).operands = s.operands := rfl

@[simp] theorem wireCommand_work (c : Byte) (s : State) : (s.wireCommand c).work = s.work := rfl

@[simp] theorem wireCommand_rsp (c : Byte) (s : State) : (s.wireCommand c).rsp = s.rsp := rfl

@[simp] theorem wireCommand_digitRom (c : Byte) (s : State) : (s.wireCommand c).digitRom = s.digitRom := rfl

@[simp] theorem wireCommand_timing (c : Byte) (s : State) : (s.wireCommand c).timing = s.timing := rfl

@[simp] theorem wireCommand_seq (c : Byte) (s : State) : (s.wireCommand c).seq = s.seq := rfl

@[simp] theorem wireCommand_host (c : Byte) (s : State) : (s.wireCommand c).host = s.host := rfl

@[simp] theorem wireCommand_peer (c : Byte) (s : State) : (s.wireCommand c).peer = s.peer.loneCommand c := rfl

@[simp] theorem wireCommand_trace (c : Byte) (s : State) : (s.wireCommand c).trace = s.trace := rfl

/-! ## `State.write`: a register write changes `CFG` or the working registers only -/

@[simp] theorem write_pins (s : State) (w : RegWrite) : (s.write w).pins = s.pins := by cases w <;> rfl

@[simp] theorem write_operands (s : State) (w : RegWrite) : (s.write w).operands = s.operands := by cases w <;> rfl

@[simp] theorem write_rsp (s : State) (w : RegWrite) : (s.write w).rsp = s.rsp := by cases w <;> rfl

@[simp] theorem write_digitRom (s : State) (w : RegWrite) : (s.write w).digitRom = s.digitRom := by cases w <;> rfl

@[simp] theorem write_timing (s : State) (w : RegWrite) : (s.write w).timing = s.timing := by cases w <;> rfl

@[simp] theorem write_seq (s : State) (w : RegWrite) : (s.write w).seq = s.seq := by cases w <;> rfl

@[simp] theorem write_host (s : State) (w : RegWrite) : (s.write w).host = s.host := by cases w <;> rfl

@[simp] theorem write_peer (s : State) (w : RegWrite) : (s.write w).peer = s.peer := by cases w <;> rfl

@[simp] theorem write_trace (s : State) (w : RegWrite) : (s.write w).trace = s.trace := by cases w <;> rfl

/-! ## `State.loadTimer`: the timer alone -/

@[simp] theorem loadTimer_cfg (e : PinEvent) (s : State) : (s.loadTimer e).cfg = s.cfg := by cases e <;> rfl

@[simp] theorem loadTimer_pins (e : PinEvent) (s : State) : (s.loadTimer e).pins = s.pins := by cases e <;> rfl

@[simp] theorem loadTimer_operands (e : PinEvent) (s : State) : (s.loadTimer e).operands = s.operands := by cases e <;> rfl

@[simp] theorem loadTimer_rsp (e : PinEvent) (s : State) : (s.loadTimer e).rsp = s.rsp := by cases e <;> rfl

@[simp] theorem loadTimer_digitRom (e : PinEvent) (s : State) : (s.loadTimer e).digitRom = s.digitRom := by cases e <;> rfl

@[simp] theorem loadTimer_timing (e : PinEvent) (s : State) : (s.loadTimer e).timing = s.timing := by cases e <;> rfl

@[simp] theorem loadTimer_seq (e : PinEvent) (s : State) : (s.loadTimer e).seq = s.seq := by cases e <;> rfl

@[simp] theorem loadTimer_host (e : PinEvent) (s : State) : (s.loadTimer e).host = s.host := by cases e <;> rfl

@[simp] theorem loadTimer_peer (e : PinEvent) (s : State) : (s.loadTimer e).peer = s.peer := by cases e <;> rfl

@[simp] theorem loadTimer_trace (e : PinEvent) (s : State) : (s.loadTimer e).trace = s.trace := by cases e <;> rfl

/-! ## `State.consume`: the packet is gone from the host port -/

@[simp] theorem consume_cfg (p : Packet) (s : State) : (s.consume p).cfg = s.cfg := by cases p <;> rfl

@[simp] theorem consume_pins (p : Packet) (s : State) : (s.consume p).pins = s.pins := by cases p <;> rfl

@[simp] theorem consume_operands (p : Packet) (s : State) : (s.consume p).operands = s.operands := by cases p <;> rfl

@[simp] theorem consume_work (p : Packet) (s : State) : (s.consume p).work = s.work := by cases p <;> rfl

@[simp] theorem consume_digitRom (p : Packet) (s : State) : (s.consume p).digitRom = s.digitRom := by cases p <;> rfl

@[simp] theorem consume_timing (p : Packet) (s : State) : (s.consume p).timing = s.timing := by cases p <;> rfl

@[simp] theorem consume_seq (p : Packet) (s : State) : (s.consume p).seq = s.seq := by cases p <;> rfl

@[simp] theorem consume_peer (p : Packet) (s : State) : (s.consume p).peer = s.peer := by cases p <;> rfl

@[simp] theorem consume_trace (p : Packet) (s : State) : (s.consume p).trace = s.trace := by cases p <;> rfl

@[simp] theorem consume_rsp (p : Packet) (s : State) : (s.consume p).rsp = { s.rsp with valid := false } := by cases p <;> rfl

@[simp] theorem consume_request_host (w : ReqWord) (s : State) :
    (s.consume (.request w)).host = { s.host with requests := s.host.requests.tail } := rfl

@[simp] theorem consume_wire_host (c : Byte) (s : State) :
    (s.consume (.wire c)).host = { s.host with busIn := none } := rfl

/-! ## Events on the pins -/

@[simp] theorem onPins_clk (v : Bool) (p : Pins) :
    (PinEvent.clk v).onPins p = { p with clk := { p.clk with out := v } } := rfl

@[simp] theorem onPins_stb (v : Bool) (p : Pins) :
    (PinEvent.stb v).onPins p = { p with stb := { p.stb with out := v } } := rfl

@[simp] theorem onPins_dio (v : Bool) (p : Pins) :
    (PinEvent.dio v).onPins p = { p with dio := { p.dio with out := v } } := rfl

@[simp] theorem onPins_dirIn (p : Pins) :
    PinEvent.dirIn.onPins p = { p with dio := { p.dio with oe := false } } := rfl

@[simp] theorem onPins_dirOut (p : Pins) :
    PinEvent.dirOut.onPins p = { p with dio := { p.dio with oe := true } } := rfl

@[simp] theorem onPins_dirAllOut (p : Pins) :
    PinEvent.dirAllOut.onPins p = { clk := { p.clk with oe := true }, stb := { p.stb with oe := true }, dio := { p.dio with oe := true } } := rfl

@[simp] theorem onPins_wait (p : Pins) : PinEvent.wait.onPins p = p := rfl

@[simp] theorem onPins_sample (v : Bool) (p : Pins) : (PinEvent.sample v).onPins p = p := rfl

end Sys2Proof.Machine
end

