-- ==== Sys2Proof/Laws/Operands.lean ====
section
/-! SUPPORT. What the operand functions compute. -/

namespace Sys2Proof.Machine

@[simp] theorem clamp_toNat (br : Byte) : (clamp br).toNat = min br.toNat 7 := by
  have h : min br.toNat 7 < 8 := by omega
  simp [clamp, Nat.mod_eq_of_lt h]

/-- A brightness that fits three bits passes the clamp unchanged (42_command_encoder.md R137, R141). -/
@[simp] theorem clamp_setWidth (br : BitVec 3) : clamp (br.setWidth 8) = br := by
  revert br; decide

@[simp] theorem shiftIn_byteOfLevels : ∀ v : Byte, byteOfLevels (levelsOf v) = v := by decide +kernel

theorem levelsOf_eq (v : Byte) :
    levelsOf v = [v.getLsbD 0, v.getLsbD 1, v.getLsbD 2, v.getLsbD 3, v.getLsbD 4, v.getLsbD 5, v.getLsbD 6,
      v.getLsbD 7] := rfl

@[simp] theorem levelsOf_length (v : Byte) : (levelsOf v).length = 8 := rfl

/-- Eight bits shifted in replace whatever the register held. -/
theorem shiftIn_eight (acc : Byte) (l0 l1 l2 l3 l4 l5 l6 l7 : Bool) :
    [l0, l1, l2, l3, l4, l5, l6, l7].foldl shiftIn acc = byteOfLevels [l0, l1, l2, l3, l4, l5, l6, l7] := by
  have h : ∀ acc x : Byte, (acc >>> 8) ||| x = x := by
    intro acc x
    have : acc >>> 8 = 0 := by
      apply BitVec.eq_of_toNat_eq
      have := acc.isLt
      simp [BitVec.toNat_ushiftRight, Nat.shiftRight_eq_div_pow]; omega
    simp [this]
  simp only [byteOfLevels, List.foldl_cons, List.foldl_nil, shiftIn]
  simp only [BitVec.ushiftRight_or_distrib, BitVec.or_assoc, ← BitVec.shiftRight_add, Nat.reduceAdd]
  rw [h, h]

/-- The levels taken from a received byte are its bits again. -/
theorem levelsOf_byteOfLevels :
    ∀ l0 l1 l2 l3 l4 l5 l6 l7 : Bool,
      levelsOf (byteOfLevels [l0, l1, l2, l3, l4, l5, l6, l7]) = [l0, l1, l2, l3, l4, l5, l6, l7] := by
  decide +kernel

@[simp] theorem dataCmd_write_auto : dataCmd false false false = 0x40 := rfl
@[simp] theorem dataCmd_write_fixed : dataCmd false true false = 0x44 := rfl
@[simp] theorem dataCmd_read : dataCmd false false true = 0x42 := rfl
@[simp] theorem addrCmd_zero : addrCmd 0 = 0xC0 := rfl

/-- The bits of a data-instruction command (30_encoding.md R81). -/
theorem dataCmd_bits :
    ∀ t f r : Bool, (dataCmd t f r).extractLsb' 6 2 = 1 ∧ (dataCmd t f r).getLsbD 2 = f ∧
      (dataCmd t f r).getLsbD 1 = r ∧ (dataCmd t f r).getLsbD 4 = t := by decide

/-- The bits of a display-control command (30_encoding.md R82). -/
theorem dispCmd_bits :
    ∀ (en : Bool) (br : BitVec 3), (dispCmd en br).extractLsb' 6 2 = 2 ∧ (dispCmd en br).getLsbD 3 = en ∧
      (dispCmd en br).extractLsb' 0 3 = br ∧ (dispCmd en br).getLsbD 7 = true := by decide

/-- The bits of an address command: the class, and the low four bits of the address (30_encoding.md R83). -/
theorem addrCmd_bits :
    ∀ a : Byte, (addrCmd a).extractLsb' 6 2 = 3 ∧ pointerOf (addrCmd a) = a.extractLsb' 0 4 := by decide +kernel

/-- With the reference peer's key-scan bytes the decoder gives the keys back (44_key_scanner.md R176). -/
theorem keyDecode_scanBytes :
    ∀ keys : Byte,
      keyDecode (scanByte keys 0) (scanByte keys 1) (scanByte keys 2) (scanByte keys 3) = keys := by decide +kernel

end Sys2Proof.Machine
end

