-- ==== Sys2Proof/Laws/Peer.lean ====
section
/-! SUPPORT. The reference peer under the events of a byte transfer: a written byte is received whole, a read byte is the one
the peer transmits, strobe edges frame, and nothing happens on lines that are not driven. -/

namespace Sys2Proof.Machine

/-- The pins after a list of events. -/
def pinsAfter (pins : Pins) (es : List PinEvent) : Pins :=
  match es with
  | [] => pins
  | e :: rest => pinsAfter (e.onPins pins) rest

/-- The peer after a list of events. -/
def observeAll (pins : Pins) (es : List PinEvent) (p : Peer) : Peer :=
  match es with
  | [] => p
  | e :: rest => observeAll (e.onPins pins) rest (p.observe pins (e.onPins pins))

@[simp] theorem pinsAfter_nil (pins : Pins) : pinsAfter pins [] = pins := rfl
@[simp] theorem pinsAfter_cons (pins : Pins) (e : PinEvent) (es : List PinEvent) :
    pinsAfter pins (e :: es) = pinsAfter (e.onPins pins) es := rfl
@[simp] theorem observeAll_nil (pins : Pins) (p : Peer) : observeAll pins [] p = p := rfl
@[simp] theorem observeAll_cons (pins : Pins) (e : PinEvent) (es : List PinEvent) (p : Peer) :
    observeAll pins (e :: es) p = observeAll (e.onPins pins) es (p.observe pins (e.onPins pins)) := rfl

theorem pinsAfter_append (pins : Pins) (es fs : List PinEvent) :
    pinsAfter pins (es ++ fs) = pinsAfter (pinsAfter pins es) fs := by
  induction es generalizing pins with
  | nil => rfl
  | cons e rest ih => simp [ih]

theorem observeAll_append (pins : Pins) (es fs : List PinEvent) (p : Peer) :
    observeAll pins (es ++ fs) p = observeAll (pinsAfter pins es) fs (observeAll pins es p) := by
  induction es generalizing pins p with
  | nil => rfl
  | cons e rest ih => simp [ih]

/-! ## What the peer's reactions never change -/

section Kept
variable (p : Peer) (c : Byte) (m : Mode) (d : Disp) (a : BitVec 4) (f g : Option Frame)

@[simp] theorem withMode_kind : (p.withMode m).kind = p.kind := rfl
@[simp] theorem withMode_ram : (p.withMode m).ram = p.ram := rfl
@[simp] theorem withMode_mode : (p.withMode m).mode = m := rfl
@[simp] theorem withMode_keys : (p.withMode m).keys = p.keys := rfl
@[simp] theorem withMode_keyFeed : (p.withMode m).keyFeed = p.keyFeed := rfl
@[simp] theorem withMode_keyReads : (p.withMode m).keyReads = p.keyReads := rfl
@[simp] theorem withMode_frame : (p.withMode m).frame = p.frame := rfl

@[simp] theorem withDisp_kind : (p.withDisp d).kind = p.kind := rfl
@[simp] theorem withDisp_ram : (p.withDisp d).ram = p.ram := rfl
@[simp] theorem withDisp_mode : (p.withDisp d).mode = p.mode := rfl
@[simp] theorem withDisp_keys : (p.withDisp d).keys = p.keys := rfl
@[simp] theorem withDisp_keyFeed : (p.withDisp d).keyFeed = p.keyFeed := rfl
@[simp] theorem withDisp_keyReads : (p.withDisp d).keyReads = p.keyReads := rfl
@[simp] theorem withDisp_frame : (p.withDisp d).frame = p.frame := rfl

@[simp] theorem withPtr_kind : (p.withPtr a).kind = p.kind := rfl
@[simp] theorem withPtr_ram : (p.withPtr a).ram = p.ram := rfl
@[simp] theorem withPtr_mode : (p.withPtr a).mode = p.mode := rfl
@[simp] theorem withPtr_keys : (p.withPtr a).keys = p.keys := rfl
@[simp] theorem withPtr_keyFeed : (p.withPtr a).keyFeed = p.keyFeed := rfl
@[simp] theorem withPtr_keyReads : (p.withPtr a).keyReads = p.keyReads := rfl
@[simp] theorem withPtr_frame : (p.withPtr a).frame = p.frame := rfl

@[simp] theorem withFrame_kind : (p.withFrame f).kind = p.kind := rfl
@[simp] theorem withFrame_ram : (p.withFrame f).ram = p.ram := rfl
@[simp] theorem withFrame_mode : (p.withFrame f).mode = p.mode := rfl
@[simp] theorem withFrame_keys : (p.withFrame f).keys = p.keys := rfl
@[simp] theorem withFrame_keyFeed : (p.withFrame f).keyFeed = p.keyFeed := rfl
@[simp] theorem withFrame_keyReads : (p.withFrame f).keyReads = p.keyReads := rfl
@[simp] theorem withFrame_frame : (p.withFrame f).frame = f := rfl
@[simp] theorem withFrame_withFrame : (p.withFrame f).withFrame g = p.withFrame g := rfl
@[simp] theorem withFrame_same : p.withFrame p.frame = p := rfl
@[simp] theorem withFrame_readRam (x : Nat) : (p.withFrame f).readRam x = p.readRam x := rfl

@[simp] theorem unsettle_kind : p.unsettle.kind = p.kind := rfl
@[simp] theorem unsettle_mode : p.unsettle.mode = p.mode := rfl
@[simp] theorem unsettle_keys : p.unsettle.keys = p.keys := rfl
@[simp] theorem unsettle_keyFeed : p.unsettle.keyFeed = p.keyFeed := rfl
@[simp] theorem unsettle_keyReads : p.unsettle.keyReads = p.keyReads := rfl
@[simp] theorem unsettle_frame : p.unsettle.frame = p.frame := rfl
@[simp] theorem unsettle_withFrame : (p.withFrame f).unsettle = p.unsettle.withFrame f := rfl

@[simp] theorem scramble_kind : p.scramble.kind = p.kind := rfl
@[simp] theorem scramble_keys : p.scramble.keys = p.keys := rfl
@[simp] theorem scramble_keyFeed : p.scramble.keyFeed = p.keyFeed := rfl
@[simp] theorem scramble_keyReads : p.scramble.keyReads = p.keyReads := rfl
@[simp] theorem scramble_frame : p.scramble.frame = p.frame := rfl
@[simp] theorem scramble_withFrame : (p.withFrame f).scramble = p.scramble.withFrame f := rfl

/-- Outside test mode a command byte finds the peer as it is. -/
theorem atCommand_of_not_test (h : p.mode.test = false) : p.atCommand = p := by simp [Peer.atCommand, h]

/-- In test mode it finds the display RAM, the pointer and the display control free (20_memory.md R61 e). -/
theorem atCommand_of_test (h : p.mode.test = true) : p.atCommand = p.unsettle := by simp [Peer.atCommand, h]

@[simp] theorem atCommand_kind : p.atCommand.kind = p.kind := by unfold Peer.atCommand; split <;> rfl
@[simp] theorem atCommand_mode : p.atCommand.mode = p.mode := by unfold Peer.atCommand; split <;> rfl
@[simp] theorem atCommand_keys : p.atCommand.keys = p.keys := by unfold Peer.atCommand; split <;> rfl
@[simp] theorem atCommand_keyFeed : p.atCommand.keyFeed = p.keyFeed := by unfold Peer.atCommand; split <;> rfl
@[simp] theorem atCommand_keyReads : p.atCommand.keyReads = p.keyReads := by unfold Peer.atCommand; split <;> rfl
@[simp] theorem atCommand_frame : p.atCommand.frame = p.frame := by unfold Peer.atCommand; split <;> rfl
@[simp] theorem atCommand_withFrame : (p.withFrame f).atCommand = p.atCommand.withFrame f := by
  cases h : p.mode.test <;> simp [Peer.atCommand, h]

theorem midByte_of_frame_none (h : p.frame = none) : p.midByte = false := by simp [Peer.midByte, h]

/-- A frame that ends on whole bytes leaves the registers of the peer alone (20_memory.md R52). -/
theorem closeFrame_of_whole (h : p.midByte = false) : p.closeFrame = p.withFrame none := by simp [Peer.closeFrame, h]

/-- A frame that ends in mid-byte leaves them free (20_memory.md R61 g). -/
theorem closeFrame_of_midByte (h : p.midByte = true) : p.closeFrame = p.scramble.withFrame none := by
  simp [Peer.closeFrame, h]

/-- With no frame open there is none to end. -/
theorem closeFrame_of_none (h : p.frame = none) : p.closeFrame = p := by
  rw [closeFrame_of_whole p (midByte_of_frame_none p h), ← h]; rfl

@[simp] theorem closeFrame_frame : p.closeFrame.frame = none := rfl
@[simp] theorem closeFrame_kind : p.closeFrame.kind = p.kind := by unfold Peer.closeFrame; split <;> rfl
@[simp] theorem closeFrame_keys : p.closeFrame.keys = p.keys := by unfold Peer.closeFrame; split <;> rfl
@[simp] theorem closeFrame_keyFeed : p.closeFrame.keyFeed = p.keyFeed := by unfold Peer.closeFrame; split <;> rfl
@[simp] theorem closeFrame_keyReads : p.closeFrame.keyReads = p.keyReads := by unfold Peer.closeFrame; split <;> rfl
@[simp] theorem closeFrame_closeFrame : p.closeFrame.closeFrame = p.closeFrame := closeFrame_of_none _ rfl

@[simp] theorem openFrame_kind : p.openFrame.kind = p.kind := closeFrame_kind p
@[simp] theorem openFrame_mode : p.openFrame.mode = p.closeFrame.mode := rfl
@[simp] theorem openFrame_keys : p.openFrame.keys = p.keys := closeFrame_keys p
@[simp] theorem openFrame_keyFeed : p.openFrame.keyFeed = p.keyFeed := closeFrame_keyFeed p
@[simp] theorem openFrame_keyReads : p.openFrame.keyReads = p.keyReads := closeFrame_keyReads p

/-- Ending a frame just before the next begins makes no difference. -/
@[simp] theorem openFrame_closeFrame : p.closeFrame.openFrame = p.openFrame := by simp [Peer.openFrame]

/-- What a command byte does has nothing to do with the frame in progress. -/
@[simp] theorem command_withFrame : (p.withFrame f).command c = (p.command c).withFrame f := by
  unfold Peer.command
  split
  · simp only [unsettle_withFrame, atCommand_withFrame]; split <;> rfl
  · simp only [atCommand_withFrame]; rfl
  · simp only [atCommand_withFrame]; rfl
  · rfl

/-- A command byte leaves the kind of device and the keys alone. -/
theorem command_keeps :
    (p.command c).kind = p.kind ∧ (p.command c).keys = p.keys ∧ (p.command c).keyFeed = p.keyFeed ∧
      (p.command c).keyReads = p.keyReads := by
  unfold Peer.command
  split
  · split <;> simp
  all_goals simp

@[simp] theorem command_kind : (p.command c).kind = p.kind := (command_keeps p c).1
@[simp] theorem command_keys : (p.command c).keys = p.keys := (command_keeps p c).2.1
@[simp] theorem command_keyFeed : (p.command c).keyFeed = p.keyFeed := (command_keeps p c).2.2.1
@[simp] theorem command_keyReads : (p.command c).keyReads = p.keyReads := (command_keeps p c).2.2.2

end Kept

theorem receive_kind (v : Byte) (p : Peer) : (p.receive v).kind = p.kind := by
  unfold Peer.receive
  split
  · rfl
  · split <;> simp [Peer.store]

theorem receive_keys (v : Byte) (p : Peer) : (p.receive v).keys = p.keys := by
  unfold Peer.receive
  split
  · rfl
  · split <;> simp [Peer.store]

theorem receive_keyFeed (v : Byte) (p : Peer) : (p.receive v).keyFeed = p.keyFeed := by
  unfold Peer.receive
  split
  · rfl
  · split <;> simp [Peer.store]

theorem receive_keyReads (v : Byte) (p : Peer) : (p.receive v).keyReads = p.keyReads := by
  unfold Peer.receive
  split
  · rfl
  · split <;> simp [Peer.store]

theorem takeBit_kind (l : Bool) (p : Peer) : (p.takeBit l).kind = p.kind := by
  unfold Peer.takeBit
  split
  · rfl
  · split
    · exact receive_kind _ p
    · rfl

theorem takeBit_keys (l : Bool) (p : Peer) : (p.takeBit l).keys = p.keys := by
  unfold Peer.takeBit
  split
  · rfl
  · split
    · exact receive_keys _ p
    · rfl

theorem takeBit_keyFeed (l : Bool) (p : Peer) : (p.takeBit l).keyFeed = p.keyFeed := by
  unfold Peer.takeBit
  split
  · rfl
  · split
    · exact receive_keyFeed _ p
    · rfl

theorem transmitByte_kind (k : Nat) (p : Peer) : (p.transmitByte k).2.kind = p.kind := by
  unfold Peer.transmitByte; split <;> rfl

theorem transmitByte_keys (k : Nat) (p : Peer) : (p.transmitByte k).2.keys = p.keys := by
  unfold Peer.transmitByte; split <;> rfl

theorem transmitByte_keyFeed (k : Nat) (p : Peer) : (p.transmitByte k).2.keyFeed = p.keyFeed := by
  unfold Peer.transmitByte; split <;> rfl

theorem putBit_kind (p : Peer) : p.putBit.kind = p.kind := by
  unfold Peer.putBit
  split
  · rfl
  · split
    · exact transmitByte_kind _ p
    · rfl

theorem putBit_keys (p : Peer) : p.putBit.keys = p.keys := by
  unfold Peer.putBit
  split
  · rfl
  · split
    · exact transmitByte_keys _ p
    · rfl

theorem putBit_keyFeed (p : Peer) : p.putBit.keyFeed = p.keyFeed := by
  unfold Peer.putBit
  split
  · rfl
  · split
    · exact transmitByte_keyFeed _ p
    · rfl

theorem endBit_kind (p : Peer) : p.endBit.kind = p.kind := by
  unfold Peer.endBit
  split
  · rfl
  · split <;> rfl

theorem endBit_keys (p : Peer) : p.endBit.keys = p.keys := by
  unfold Peer.endBit
  split
  · rfl
  · split <;> rfl

theorem endBit_keyFeed (p : Peer) : p.endBit.keyFeed = p.keyFeed := by
  unfold Peer.endBit
  split
  · rfl
  · split <;> rfl

@[simp] theorem senseDio_kind (pins : Pins) (p : Peer) : (senseDio pins p).2.kind = p.kind := by
  unfold senseDio; repeat' split
  all_goals rfl

@[simp] theorem senseDio_keys (pins : Pins) (p : Peer) : (senseDio pins p).2.keys = p.keys := by
  unfold senseDio; repeat' split
  all_goals rfl

@[simp] theorem senseDio_keyFeed (pins : Pins) (p : Peer) : (senseDio pins p).2.keyFeed = p.keyFeed := by
  unfold senseDio; repeat' split
  all_goals rfl

@[simp] theorem senseDio_frame (pins : Pins) (p : Peer) : (senseDio pins p).2.frame = p.frame := by
  unfold senseDio; repeat' split
  all_goals rfl

/-- With the data line an output the level is the adapter's own, and no free value is used (40_pin_interface.md R107). -/
theorem senseDio_driven (pins : Pins) (p : Peer) (h : pins.dio.oe = true) : senseDio pins p = (pins.dio.out, p) := by
  simp [senseDio, h]

@[simp] theorem observe_kind (old new : Pins) (p : Peer) : (p.observe old new).kind = p.kind := by
  unfold Peer.observe Peer.react
  repeat' split
  all_goals first
    | rfl
    | exact openFrame_kind p
    | exact closeFrame_kind p
    | exact endBit_kind p
    | exact putBit_kind p
    | (rw [takeBit_kind, senseDio_kind])

@[simp] theorem observe_keys (old new : Pins) (p : Peer) : (p.observe old new).keys = p.keys := by
  unfold Peer.observe Peer.react
  repeat' split
  all_goals first
    | rfl
    | exact openFrame_keys p
    | exact closeFrame_keys p
    | exact endBit_keys p
    | exact putBit_keys p
    | (rw [takeBit_keys, senseDio_keys])

@[simp] theorem observe_keyFeed (old new : Pins) (p : Peer) : (p.observe old new).keyFeed = p.keyFeed := by
  unfold Peer.observe Peer.react
  repeat' split
  all_goals first
    | rfl
    | exact openFrame_keyFeed p
    | exact closeFrame_keyFeed p
    | exact endBit_keyFeed p
    | exact putBit_keyFeed p
    | (rw [takeBit_keyFeed, senseDio_keyFeed])

@[simp] theorem observeAll_kind (pins : Pins) (es : List PinEvent) (p : Peer) :
    (observeAll pins es p).kind = p.kind := by
  induction es generalizing pins p with
  | nil => rfl
  | cons e rest ih => simp [ih]

@[simp] theorem observeAll_keys (pins : Pins) (es : List PinEvent) (p : Peer) :
    (observeAll pins es p).keys = p.keys := by
  induction es generalizing pins p with
  | nil => rfl
  | cons e rest ih => simp [ih]

@[simp] theorem observeAll_keyFeed (pins : Pins) (es : List PinEvent) (p : Peer) :
    (observeAll pins es p).keyFeed = p.keyFeed := by
  induction es generalizing pins p with
  | nil => rfl
  | cons e rest ih => simp [ih]

/-- A device other than the reference peer has no state that events change (20_memory.md R50). -/
theorem observe_other (old new : Pins) (p : Peer) (h : p.kind ≠ .reference) : p.observe old new = p := by
  unfold Peer.observe; split
  · contradiction
  · rfl
  · rfl

/-- While neither clock nor strobe is driven, the peer sees nothing (70_reset_and_hazards.md R231, R236). -/
theorem observe_released (old new : Pins) (p : Peer) (hs : new.stb.oe = false) : p.observe old new = p := by
  unfold Peer.observe
  split
  · unfold Peer.react Line.edge
    simp [hs]
  · rfl
  · rfl

/-! ## One bit time -/

/-- The lines as they are inside a frame: strobe and clock driven, strobe low. -/
def Pins.inFrame (p : Pins) : Prop := p.clk.oe = true ∧ p.stb.oe = true ∧ p.stb.out = false

/-- The pins after one bit time of a write. -/
def Pins.wrote (p : Pins) (b : Bool) : Pins :=
  { p with clk := { p.clk with out := true }, dio := { p.dio with out := b } }

theorem pinsAfter_writeBit (pins : Pins) (b : Bool) : pinsAfter pins (writeBitEvents b) = pins.wrote b := rfl

theorem inFrame_wrote (pins : Pins) (b : Bool) (h : pins.inFrame) : (pins.wrote b).inFrame := h

/-- One bit time of a write is one bit for a receiving peer (20_memory.md R52, 41_bus_transport.md R115). -/
theorem observeAll_writeBit (pins : Pins) (p : Peer) (b : Bool) (hp : pins.inFrame) (hd : pins.dio.oe = true)
    (hk : p.kind = .reference) (ht : p.transmitting = false) :
    observeAll pins (writeBitEvents b) p = p.takeBit b := by
  obtain ⟨⟨cl, co⟩, ⟨sl, so⟩, ⟨dl, d_o⟩⟩ := pins
  obtain ⟨h1, h2, h3⟩ := hp
  simp only at h1 h2 h3 hd
  subst h1 h2 h3 hd
  cases cl <;>
    simp [writeBitEvents, Peer.observe, Peer.react, Line.edge, hk, ht, senseDio, takeBit_kind]

/-- A peer in the middle of receiving: bit number `n` of a byte, register `x`. -/
def Peer.partway (p : Peer) (fr : Frame) (n : Fin 8) (x : Byte) : Peer :=
  { p with frame := some { fr with nbits := n, sh := x } }

theorem takeBit_partway (p : Peer) (fr : Frame) (n : Fin 8) (x : Byte) (b : Bool) (h : n ≠ 7) :
    (p.partway fr n x).takeBit b = p.partway fr (n + 1) (shiftIn x b) := by
  simp [Peer.partway, Peer.takeBit, h]

theorem takeBit_last (p : Peer) (fr : Frame) (x : Byte) (b : Bool) :
    (p.partway fr 7 x).takeBit b = (p.partway fr 7 x).receive (shiftIn x b) := by
  simp [Peer.partway, Peer.takeBit]

/-- What a byte does to the peer does not depend on the bit counter and the shift register. -/
theorem receive_partway (p : Peer) (fr : Frame) (n : Fin 8) (x : Byte) (v : Byte) (h : p.frame = some fr) :
    (p.partway fr n x).receive v = p.receive v := by
  have e : p.partway fr n x = p.withFrame (some { fr with nbits := n, sh := x }) := rfl
  rw [e]
  obtain ⟨bytes, nbits, sh, k, drive⟩ := fr
  cases k <;> (simp only [Peer.receive, h]; simp; try rfl)

theorem transmitting_partway (p : Peer) (fr : Frame) (n : Fin 8) (x : Byte) (h : fr.kind ≠ .scan) :
    (p.partway fr n x).transmitting = false := by
  simp [Peer.partway, Peer.transmitting, h]

theorem transferEvents_w (v : Byte) :
    transferEvents (.w v) =
      writeBitEvents (v.getLsbD 0) ++ writeBitEvents (v.getLsbD 1) ++ writeBitEvents (v.getLsbD 2)
        ++ writeBitEvents (v.getLsbD 3) ++ writeBitEvents (v.getLsbD 4) ++ writeBitEvents (v.getLsbD 5)
        ++ writeBitEvents (v.getLsbD 6) ++ writeBitEvents (v.getLsbD 7) := rfl

theorem pinsAfter_write (pins : Pins) (v : Byte) :
    pinsAfter pins (transferEvents (.w v)) = pins.wrote (v.getLsbD 7) := rfl

/-- The eight bit times of `WriteByte(v)` inside a frame: a peer that is not transmitting receives `v`
(20_memory.md R52, 41_bus_transport.md R115). -/
theorem observeAll_write (pins : Pins) (p : Peer) (fr : Frame) (v : Byte) (hp : pins.inFrame)
    (hd : pins.dio.oe = true) (hk : p.kind = .reference) (hf : p.frame = some fr) (hn : fr.nbits = 0)
    (hs : fr.kind ≠ .scan) :
    observeAll pins (transferEvents (.w v)) p = p.receive v := by
  have h0 : p = p.partway fr 0 fr.sh := by
    obtain ⟨bytes, nbits, sh, k, drive⟩ := fr
    simp only at hn
    subst hn
    rw [Peer.partway, ← hf]
  have step : ∀ (q : Pins) (n : Fin 8) (x : Byte) (b : Bool), q.inFrame → q.dio.oe = true →
      observeAll q (writeBitEvents b) (p.partway fr n x) = (p.partway fr n x).takeBit b := by
    intro q n x b hq hqd
    exact observeAll_writeBit q _ b hq hqd hk (transmitting_partway p fr n x hs)
  rw [transferEvents_w]
  simp only [observeAll_append, pinsAfter_append, pinsAfter_writeBit]
  conv_lhs => rw [h0]
  rw [step _ _ _ _ hp hd, takeBit_partway _ _ _ _ _ (by decide)]
  repeat rw [step _ _ _ _ (by exact hp) (by exact hd), takeBit_partway _ _ _ _ _ (by decide)]
  rw [step _ _ _ _ (by exact hp) (by exact hd)]
  have e7 : (0 + 1 + 1 + 1 + 1 + 1 + 1 + 1 : Fin 8) = 7 := by decide
  rw [e7, takeBit_last, receive_partway _ _ _ _ _ hf]
  have hv := shiftIn_eight fr.sh (v.getLsbD 0) (v.getLsbD 1) (v.getLsbD 2) (v.getLsbD 3) (v.getLsbD 4)
    (v.getLsbD 5) (v.getLsbD 6) (v.getLsbD 7)
  rw [← levelsOf_eq, shiftIn_byteOfLevels, levelsOf_eq] at hv
  simp only [List.foldl_cons, List.foldl_nil] at hv
  rw [hv]

end Sys2Proof.Machine
end

