-- ==== Sys2Proof/Laws/Transport.lean ====
section
/-! SUPPORT. What the micro-operations do, said once: the adapter's registers and the trace after each, from every state,
and the peer as a function of the events it saw. -/

namespace Sys2Proof.Machine

@[simp] theorem runBeats_nil (s : State) : s.runBeats [] = s := rfl
@[simp] theorem runBeats_cons (s : State) (b : Beat) (bs : List Beat) :
    s.runBeats (b :: bs) = (s.beat b).runBeats bs := rfl
theorem runBeats_append (s : State) (as bs : List Beat) : s.runBeats (as ++ bs) = (s.runBeats as).runBeats bs :=
  List.foldl_append

/-- Register writes before the first beat. -/
theorem runBeats_before (s : State) (ws : List RegWrite) (bs : List Beat) (h : bs ≠ []) :
    s.runBeats (before ws bs) = (ws.foldl State.write s).runBeats bs := by
  cases bs with
  | nil => contradiction
  | cons b rest => simp [before, State.beat, List.foldl_append]

/-- Register writes after the last beat. -/
theorem runBeats_after (s : State) (bs : List Beat) (ws : List RegWrite) (h : bs ≠ []) :
    s.runBeats (after bs ws) = ws.foldl State.write (s.runBeats bs) := by
  induction bs generalizing s with
  | nil => contradiction
  | cons b rest ih =>
    cases rest with
    | nil => simp [after, State.beat, List.foldl_append]
    | cons c more => simpa [after] using ih (s.beat b) (by simp)

theorem after_ne_nil (bs : List Beat) (ws : List RegWrite) (h : bs ≠ []) : after bs ws ≠ [] := by
  cases bs with
  | nil => contradiction
  | cons b rest => cases rest <;> simp [after]

theorem runBeats_pin (s : State) (e : PinEvent) : s.runBeats [pinBeat e] = (s.loadTimer e).emit e := rfl

/-! ## Bit times -/

/-- One bit time of `WriteByte` (41_bus_transport.md R115). -/
theorem writeBit_effect (s : State) :
    s.runBeats writeBit =
      { s with
        pins := s.pins.wrote (s.work.shr.getLsbD 0)
        trace := (writeBitEvents (s.work.shr.getLsbD 0)).reverse ++ s.trace
        work := { s.work with shr := s.work.shr >>> 1, bitCnt := s.work.bitCnt + 1, tmr := s.timing.tSettle }
        peer := observeAll s.pins (writeBitEvents (s.work.shr.getLsbD 0)) s.peer } := rfl

theorem getLsbD_shift (v : Byte) (n : Nat) : (v >>> n).getLsbD 0 = v.getLsbD n := by simp

theorem writeByte_ne_nil (v : Byte) : writeByte v ≠ [] := by
  simp [writeByte, repeated, writeBit, after, before]

/-! ## Write-only operations: a list of events from every state -/

/-- The state after the events `es`, none of them a sample, with working registers `w` and configuration `c`. -/
def State.emits (s : State) (es : List PinEvent) (w : Work) (c : Cfg) : State :=
  { s with
    cfg := c
    work := w
    pins := pinsAfter s.pins es
    trace := es.reverse ++ s.trace
    peer := observeAll s.pins es s.peer }

@[simp] theorem emits_cfg (s : State) (es : List PinEvent) (w : Work) (c : Cfg) : (s.emits es w c).cfg = c := rfl
@[simp] theorem emits_work (s : State) (es : List PinEvent) (w : Work) (c : Cfg) : (s.emits es w c).work = w := rfl
@[simp] theorem emits_pins (s : State) (es : List PinEvent) (w : Work) (c : Cfg) :
    (s.emits es w c).pins = pinsAfter s.pins es := rfl
@[simp] theorem emits_trace (s : State) (es : List PinEvent) (w : Work) (c : Cfg) :
    (s.emits es w c).trace = es.reverse ++ s.trace := rfl
@[simp] theorem emits_peer (s : State) (es : List PinEvent) (w : Work) (c : Cfg) :
    (s.emits es w c).peer = observeAll s.pins es s.peer := rfl
@[simp] theorem emits_operands (s : State) (es : List PinEvent) (w : Work) (c : Cfg) :
    (s.emits es w c).operands = s.operands := rfl
@[simp] theorem emits_rsp (s : State) (es : List PinEvent) (w : Work) (c : Cfg) : (s.emits es w c).rsp = s.rsp := rfl
@[simp] theorem emits_digitRom (s : State) (es : List PinEvent) (w : Work) (c : Cfg) :
    (s.emits es w c).digitRom = s.digitRom := rfl
@[simp] theorem emits_timing (s : State) (es : List PinEvent) (w : Work) (c : Cfg) :
    (s.emits es w c).timing = s.timing := rfl
@[simp] theorem emits_seq (s : State) (es : List PinEvent) (w : Work) (c : Cfg) : (s.emits es w c).seq = s.seq := rfl
@[simp] theorem emits_host (s : State) (es : List PinEvent) (w : Work) (c : Cfg) :
    (s.emits es w c).host = s.host := rfl

theorem emits_emits (s : State) (es fs : List PinEvent) (w x : Work) (c d : Cfg) :
    (s.emits es w c).emits fs x d = s.emits (es ++ fs) x d := by
  simp [State.emits, pinsAfter_append, observeAll_append]

theorem emits_nil (s : State) : s.emits [] s.work s.cfg = s := rfl

/-- The working registers after a `WriteByte`. -/
def Work.wrote (w : Work) (settle : Nat) : Work := { w with shr := 0, bitCnt := 8, tmr := settle }

@[simp] theorem wrote_wrote (w : Work) (n : Nat) : (w.wrote n).wrote n = w.wrote n := rfl

theorem stb_effect (s : State) (v : Bool) : s.runBeats [pinBeat (.stb v)] = s.emits [.stb v] s.work s.cfg := rfl
theorem clk_effect (s : State) (v : Bool) : s.runBeats [pinBeat (.clk v)] = s.emits [.clk v] s.work s.cfg := rfl
theorem dirAllOut_effect (s : State) : s.runBeats [pinBeat .dirAllOut] = s.emits [.dirAllOut] s.work s.cfg := rfl

/-- `WriteByte(v)` from every state (41_bus_transport.md R115). -/
theorem writeByte_effect (s : State) (v : Byte) :
    s.runBeats (writeByte v) = s.emits (transferEvents (.w v)) (s.work.wrote s.timing.tSettle) s.cfg := by
  have h8 : v >>> 8 = 0 := by
    apply BitVec.eq_of_toNat_eq
    have := v.isLt
    simp [BitVec.toNat_ushiftRight, Nat.shiftRight_eq_div_pow]; omega
  rw [writeByte, runBeats_before _ _ _ (by simp [repeated, writeBit, after])]
  simp only [repeated, runBeats_append, runBeats_nil, writeBit_effect, List.foldl_cons, List.foldl_nil, State.write]
  simp only [← BitVec.shiftRight_add, Nat.reduceAdd, h8, getLsbD_shift]
  simp only [State.emits, transferEvents_w, observeAll_append, pinsAfter_writeBit, List.reverse_append,
    List.append_assoc]
  rfl

/-- `SendCommand(v)` from every state (41_bus_transport.md R117). -/
theorem sendCommand_effect (s : State) (v : Byte) :
    s.runBeats (sendCommand v) = s.emits (frameEvents [.w v]) (s.work.wrote s.timing.tSettle) s.cfg := by
  simp only [sendCommand, runBeats_append, stb_effect, writeByte_effect, emits_emits, emits_work, emits_cfg]
  simp [frameEvents]

/-- `SendData(a, d)` from every state (41_bus_transport.md R118). -/
theorem sendData_effect (s : State) (a d : Byte) :
    s.runBeats (sendData a d) = s.emits (transcriptEvents (dataFrames a d)) (s.work.wrote s.timing.tSettle) s.cfg := by
  simp only [sendData, runBeats_append, stb_effect, writeByte_effect, sendCommand_effect, emits_emits, emits_work,
    emits_cfg]
  simp [frameEvents, transcriptEvents, dataFrames, addrCmd]

theorem sendCommand_ne_nil (v : Byte) : sendCommand v ≠ [] := by simp [sendCommand]

theorem sendData_ne_nil (a d : Byte) : sendData a d ≠ [] := by simp [sendData, sendCommand]

/-- `SendConfig(en, br)` from every state (42_command_encoder.md R138). -/
theorem sendConfig_effect (s : State) (en : Bool) (br : Byte) :
    s.runBeats (sendConfig en br) =
      s.emits (transcriptEvents (configFrames en (clamp br))) (s.work.wrote s.timing.tSettle) { en := en, br := clamp br } := by
  rw [sendConfig, runBeats_before _ _ _ (by simp [sendCommand])]
  simp only [runBeats_append, sendCommand_effect, emits_emits, emits_work, emits_cfg, List.foldl_cons, List.foldl_nil,
    State.write]
  simp [transcriptEvents, configFrames, State.emits, Work.wrote]

/-- `n` zero bytes of the block-clear frame (45_initialization.md R185). -/
theorem zeros_effect (s : State) (n : Nat) (h : s.work = (s.work.wrote s.timing.tSettle)) :
    s.runBeats (repeated n (after (writeByte 0) [.nextByte])) =
      s.emits ((List.replicate n (Transfer.w 0)).flatMap transferEvents)
        { s.work with byteCnt := s.work.byteCnt + BitVec.ofNat 5 n } s.cfg := by
  induction n generalizing s with
  | zero => simp [repeated, State.emits]
  | succ n ih =>
    rw [repeated, runBeats_append, runBeats_after _ _ _ (writeByte_ne_nil 0), writeByte_effect]
    rw [ih _ (by rw [h]; rfl)]
    have hb : s.work.byteCnt + 1 + BitVec.ofNat 5 n = s.work.byteCnt + BitVec.ofNat 5 (n + 1) := by
      rw [BitVec.add_assoc, ← BitVec.ofNat_add_ofNat, BitVec.add_comm 1]; rfl
    simp only [List.foldl_cons, List.foldl_nil, State.write, emits_work, emits_cfg, Work.wrote, hb]
    rw [h]
    simp [State.emits, Work.wrote, List.replicate_succ, pinsAfter_append, observeAll_append]

/-- The frames of `INIT en, br` (45_initialization.md R185). -/
def initFrames (en : Bool) (br : BitVec 3) : List (List Transfer) :=
  (.w 0xC0 :: List.replicate 16 (.w 0)) :: configFrames en br

/-- `INIT` from every state (45_initialization.md R185). -/
theorem init_effect (s : State) (en : Bool) (br : Byte) :
    s.runBeats (initBeats en br) =
      s.emits ([.dirAllOut, .stb true, .clk true] ++ transcriptEvents (initFrames en (clamp br)))
        { s.work.wrote s.timing.tSettle with byteCnt := 16 } { en := en, br := clamp br } := by
  have hsplit : ([pinBeat .dirAllOut, pinBeat (.stb true), pinBeat (.clk true)] : List Beat) =
      [pinBeat .dirAllOut] ++ [pinBeat (.stb true)] ++ [pinBeat (.clk true)] := rfl
  rw [initBeats, hsplit, blockClear]
  simp only [runBeats_append, dirAllOut_effect, stb_effect, clk_effect, emits_emits, emits_work, emits_cfg,
    runBeats_after _ _ _ (writeByte_ne_nil _), writeByte_effect, List.foldl_cons, List.foldl_nil]
  rw [zeros_effect _ 16 rfl]
  simp only [sendConfig_effect, emits_emits, emits_work, emits_cfg]
  simp only [State.write, emits_work, emits_cfg, addrCmd_zero]
  simp [State.emits, Work.wrote, initFrames, transcriptEvents, frameEvents, pinsAfter_append, observeAll_append]

/-- The frames that clear `n` positions from `p` at the addresses `addr` gives. -/
def clearFrames (addr : Byte → Byte) (n : Nat) (p : Byte) : List (List Transfer) :=
  match n with
  | 0 => []
  | k + 1 => dataFrames (addr p) 0 ++ clearFrames addr k (p + 1)

theorem clearFrames_succ (addr : Byte → Byte) (n : Nat) (p : Byte) :
    clearFrames addr (n + 1) p = dataFrames (addr p) 0 ++ clearFrames addr n (p + 1) := rfl

theorem clearFrom_effect (s : State) (addr : Byte → Byte) (n : Nat) (p : Byte) :
    s.runBeats (clearFrom addr (n + 1) p) =
      s.emits (transcriptEvents (clearFrames addr (n + 1) p))
        { s.work.wrote s.timing.tSettle with posCnt := s.work.posCnt + BitVec.ofNat 4 (n + 1) } s.cfg := by
  induction n generalizing s p with
  | zero =>
    rw [clearFrom, runBeats_append, runBeats_after _ _ _ (sendData_ne_nil _ _), sendData_effect]
    simp [clearFrom, clearFrames, State.write, State.emits, Work.wrote]
  | succ n ih =>
    rw [clearFrom, runBeats_append, runBeats_after _ _ _ (sendData_ne_nil _ _), sendData_effect, ih]
    have hb : s.work.posCnt + 1 + BitVec.ofNat 4 (n + 1) = s.work.posCnt + BitVec.ofNat 4 (n + 1 + 1) := by
      rw [BitVec.add_assoc, ← BitVec.ofNat_add_ofNat (n + 1) 1, BitVec.add_comm 1]; rfl
    simp only [List.foldl_cons, List.foldl_nil, State.write, emits_work, emits_cfg, Work.wrote, hb]
    rw [clearFrames_succ addr (n + 1)]
    simp [State.emits, transcriptEvents, pinsAfter_append, observeAll_append]

/-- Eight positions cleared, from every state (43_display_memory.md R157, R159). -/
theorem clearEight_effect (s : State) (addr : Byte → Byte) :
    s.runBeats (before [.startPositions] (clearFrom addr 8 0)) =
      s.emits (transcriptEvents (clearFrames addr 8 0)) { s.work.wrote s.timing.tSettle with posCnt := 8 } s.cfg := by
  rw [runBeats_before _ _ _ (by simp [clearFrom, after_ne_nil, sendData_ne_nil]), clearFrom_effect]
  rfl

end Sys2Proof.Machine
end

