-- ==== Sys2Proof/Laws/Reading.lean ====
section
/-! SUPPORT. `ReadByte` and the key-scan frame: the adapter's registers and the trace from every state, and the bytes read
from a transmitting reference peer and from a silent line. -/

namespace Sys2Proof.Machine

/-- Lines that do not change show the peer no edge. -/
@[simp] theorem edge_same (l : Line) : Line.edge l l = .none := by
  unfold Line.edge; split
  · cases l.out <;> rfl
  · rfl

/-- Only the clock and the strobe matter to the peer. -/
theorem observe_dio (old new : Pins) (p : Peer) (hc : new.clk = old.clk) (hs : new.stb = old.stb) :
    p.observe old new = p := by
  unfold Peer.observe; split
  · unfold Peer.react; simp [hc, hs]
  · rfl
  · rfl

@[simp] theorem observe_same (pins : Pins) (p : Peer) : p.observe pins pins = p := observe_dio _ _ _ rfl rfl

/-- The pins in the bit times of a read: the data line an input, its latch high (40_pin_interface.md R106). -/
def Pins.reading (p : Pins) (clk : Bool) : Pins :=
  { p with clk := { p.clk with out := clk }, dio := { out := true, oe := false } }

/-- One bit time of a read, from clock latch `c`: the level sampled, and the peer after it. -/
def bitOf (pins : Pins) (c : Bool) (p : Peer) : Bool × Peer :=
  let low := p.observe (pins.reading c) (pins.reading false)
  let r := senseDio (pins.reading false) low
  (r.1, r.2.observe (pins.reading false) (pins.reading true))

/-- `n` bit times of a read: the levels in order, and the peer after them. -/
def bitsOf (pins : Pins) (n : Nat) (c : Bool) (p : Peer) : List Bool × Peer :=
  match n with
  | 0 => ([], p)
  | k + 1 =>
    let r := bitOf pins c p
    let rest := bitsOf pins k true r.2
    (r.1 :: rest.1, rest.2)

theorem bitsOf_length (pins : Pins) (n : Nat) (c : Bool) (p : Peer) : (bitsOf pins n c p).1.length = n := by
  induction n generalizing c p with
  | zero => rfl
  | succ n ih => simp [bitsOf, ih]

/-- One bit time of `ReadByte` (41_bus_transport.md R116). -/
theorem readBit_effect (s : State) (pins : Pins) (c : Bool) (h : s.pins = pins.reading c) :
    s.runBeats readBit =
      { s with
        pins := pins.reading true
        trace := (readBitEvents (bitOf pins c s.peer).1).reverse ++ s.trace
        work :=
          { s.work with
            acc := shiftIn s.work.acc (bitOf pins c s.peer).1
            bitCnt := s.work.bitCnt + 1
            tmr := s.timing.tSettle }
        peer := (bitOf pins c s.peer).2 } := by
  simp [readBit, after, State.beat, State.act, State.loadTimer, State.emit, State.sample, State.write, pinBeat, h,
    Pins.reading, bitOf, readBitEvents]

theorem readBits_effect (s : State) (pins : Pins) (n : Nat) (c : Bool) (h : s.pins = pins.reading c)
    (ht : s.work.tmr = s.timing.tSettle) :
    s.runBeats (repeated n readBit) =
      { s with
        pins := pins.reading (c || n != 0)
        trace := ((bitsOf pins n c s.peer).1.flatMap readBitEvents).reverse ++ s.trace
        work :=
          { s.work with
            acc := (bitsOf pins n c s.peer).1.foldl shiftIn s.work.acc
            bitCnt := s.work.bitCnt + BitVec.ofNat 4 n }
        peer := (bitsOf pins n c s.peer).2 } := by
  induction n generalizing s c with
  | zero => simp [repeated, bitsOf, ← h]
  | succ n ih =>
    rw [repeated, runBeats_append, readBit_effect s pins c h, ih _ true rfl rfl]
    have hb : s.work.bitCnt + 1 + BitVec.ofNat 4 n = s.work.bitCnt + BitVec.ofNat 4 (n + 1) := by
      rw [BitVec.add_assoc, ← BitVec.ofNat_add_ofNat, BitVec.add_comm 1]; rfl
    simp [bitsOf, ht, ← hb]

/-- At least one bit time, from every state. -/
theorem readBits_succ_effect (s : State) (pins : Pins) (n : Nat) (c : Bool) (h : s.pins = pins.reading c) :
    s.runBeats (repeated (n + 1) readBit) =
      { s with
        pins := pins.reading true
        trace := ((bitsOf pins (n + 1) c s.peer).1.flatMap readBitEvents).reverse ++ s.trace
        work :=
          { s.work with
            acc := (bitsOf pins (n + 1) c s.peer).1.foldl shiftIn s.work.acc
            bitCnt := s.work.bitCnt + BitVec.ofNat 4 (n + 1)
            tmr := s.timing.tSettle }
        peer := (bitsOf pins (n + 1) c s.peer).2 } := by
  rw [repeated, runBeats_append, readBit_effect s pins c h, readBits_effect _ pins n true rfl rfl]
  have hb : s.work.bitCnt + 1 + BitVec.ofNat 4 n = s.work.bitCnt + BitVec.ofNat 4 (n + 1) := by
    rw [BitVec.add_assoc, ← BitVec.ofNat_add_ofNat, BitVec.add_comm 1]; rfl
  simp [bitsOf, ← hb]

theorem levelsOf_byteOfLevels_of_length (ls : List Bool) (h : ls.length = 8) : levelsOf (byteOfLevels ls) = ls := by
  match ls, h with
  | [l0, l1, l2, l3, l4, l5, l6, l7], _ => exact levelsOf_byteOfLevels l0 l1 l2 l3 l4 l5 l6 l7

/-- The byte a `ReadByte` returns, and the peer after it, with the lines at `pins` before. -/
def byteRead (pins : Pins) (p : Peer) : Byte × Peer :=
  let r := bitsOf pins 8 pins.clk.out p
  (byteOfLevels r.1, r.2)

/-- The pins after a `ReadByte`. -/
def Pins.hasRead (p : Pins) : Pins := { p with clk := { p.clk with out := true }, dio := { out := false, oe := true } }

/-- The working registers after a `ReadByte` that returned `v`. -/
def Work.hasRead (w : Work) (settle : Nat) (v : Byte) : Work := { w with acc := v, bitCnt := 8, tmr := settle }

/-- `ReadByte()` from every state (41_bus_transport.md R116). -/
theorem readByte_effect (s : State) :
    s.runBeats readByte =
      { s with
        pins := s.pins.hasRead
        trace := (transferEvents (.r (byteRead s.pins s.peer).1)).reverse ++ s.trace
        work := s.work.hasRead s.timing.tSettle (byteRead s.pins s.peer).1
        peer := (byteRead s.pins s.peer).2 } := by
  have hlead : s.runBeats (after [pinBeat .dirIn, pinBeat (.dio true)] [.clearAcc, .startBits]) =
      { s with
        pins := s.pins.reading s.pins.clk.out
        trace := [.dio true, .dirIn] ++ s.trace
        work := { s.work with acc := 0, bitCnt := 0 } } := by
    simp [after, State.beat, State.act, State.loadTimer, State.emit, State.write, pinBeat, Pins.reading, observe_dio]
  have hlast : ∀ t : State, t.runBeats [pinBeat .dirOut, pinBeat (.dio false)] =
      { t with
        pins := { t.pins with dio := { out := false, oe := true } }
        trace := [.dio false, .dirOut] ++ t.trace } := by
    intro t
    simp [State.beat, State.act, State.loadTimer, State.emit, pinBeat, observe_dio]
  have hlen := bitsOf_length s.pins 8 s.pins.clk.out s.peer
  rw [readByte, runBeats_append, runBeats_append, hlead, hlast]
  rw [readBits_succ_effect _ s.pins 7 s.pins.clk.out rfl]
  have hl := levelsOf_byteOfLevels_of_length _ hlen
  simp only [transferEvents, byteRead, hl]
  simp [Pins.reading, Pins.hasRead, Work.hasRead, byteOfLevels]

@[simp] theorem hasRead_hasRead (p : Pins) : p.hasRead.hasRead = p.hasRead := rfl

theorem readByte_ne_nil : readByte ≠ [] := by simp [readByte]

/-- The lines when the command byte of the key-scan frame is out. -/
def scanPins (pins : Pins) : Pins := pinsAfter pins (.stb false :: transferEvents (.w 0x42))

/-- The peer when the command byte of the key-scan frame is out. -/
def scanPeer (pins : Pins) (p : Peer) : Peer := observeAll pins (.stb false :: transferEvents (.w 0x42)) p

/-- The peer after `n` of the four reads of a key scan. -/
def peerAfterReads (pins : Pins) (p : Peer) (n : Nat) : Peer :=
  match n with
  | 0 => p
  | k + 1 => (byteRead pins.hasRead (peerAfterReads pins p k)).2

/-- The bytes of a key scan, with the lines and the peer at `pins` and `p` before the frame (44_key_scanner.md R175). -/
def scanned (pins : Pins) (p : Peer) (k : Nat) : Byte :=
  (byteRead (scanPins pins).hasRead (peerAfterReads (scanPins pins) (scanPeer pins p) k)).1

/-- The key bitmap of a key scan (44_key_scanner.md R176). -/
def scannedKeys (pins : Pins) (p : Peer) : Byte :=
  keyDecode (scanned pins p 0) (scanned pins p 1) (scanned pins p 2) (scanned pins p 3)

/-- `byteRead` looks at the lines only. -/
theorem byteRead_hasRead (pins : Pins) (p : Peer) (h : pins.clk.out = true) :
    byteRead pins.hasRead p = byteRead pins p := by
  have hr : ∀ c, pins.hasRead.reading c = pins.reading c := fun _ => rfl
  have hb : ∀ c q, bitOf pins.hasRead c q = bitOf pins c q := fun c q => by simp [bitOf, hr]
  have hbs : ∀ n c q, bitsOf pins.hasRead n c q = bitsOf pins n c q := by
    intro n
    induction n with
    | zero => intros; rfl
    | succ n ih => intro c q; simp [bitsOf, hb, ih]
  simp only [byteRead, hbs, h]
  rfl

theorem scanRead_effect (s : State) (i : Nat) (h : s.pins.clk.out = true) :
    s.runBeats (scanRead i) =
      { s with
        pins := s.pins.hasRead
        trace := (transferEvents (.r (byteRead s.pins.hasRead s.peer).1)).reverse ++ s.trace
        work :=
          { s.work.hasRead s.timing.tSettle (byteRead s.pins.hasRead s.peer).1 with
            keys := s.work.keys ||| ((byteRead s.pins.hasRead s.peer).1 <<< i)
            byteCnt := s.work.byteCnt + 1 }
        peer := (byteRead s.pins.hasRead s.peer).2 } := by
  rw [scanRead, runBeats_after _ _ _ readByte_ne_nil, readByte_effect, byteRead_hasRead _ _ h]
  simp [State.write, Work.hasRead]

theorem scanPins_eq (pins : Pins) :
    scanPins pins =
      { clk := { pins.clk with out := true }
        stb := { pins.stb with out := false }
        dio := { pins.dio with out := false } } := rfl

/-- The key-scan frame up to its command byte. -/
theorem scanHead_effect (s : State) :
    (s.runBeats [pinBeat (.stb false)]).runBeats (after (writeByte (dataCmd false false true)) [.startBytes]) =
      { s with
        pins := scanPins s.pins
        trace := (.stb false :: transferEvents (.w 0x42)).reverse ++ s.trace
        work := { s.work.wrote s.timing.tSettle with byteCnt := 0 }
        peer := scanPeer s.pins s.peer } := by
  rw [stb_effect, runBeats_after _ _ _ (writeByte_ne_nil _), writeByte_effect, emits_emits]
  rfl

/-- The four reads of the key-scan frame. -/
theorem fourReads_effect (s : State) (pins : Pins) (p : Peer) (hp : s.pins = pins) (hq : s.peer = p)
    (h : pins.clk.out = true) (b0 b1 b2 b3 : Byte) (p0 p1 p2 p3 : Peer)
    (h0 : byteRead pins.hasRead p = (b0, p0)) (h1 : byteRead pins.hasRead p0 = (b1, p1))
    (h2 : byteRead pins.hasRead p1 = (b2, p2)) (h3 : byteRead pins.hasRead p2 = (b3, p3)) :
    ((((s.runBeats (scanRead 0)).runBeats (scanRead 1)).runBeats (scanRead 2)).runBeats (scanRead 3)) =
      { s with
        pins := pins.hasRead
        trace :=
          (transferEvents (.r b3)).reverse ++ ((transferEvents (.r b2)).reverse ++ ((transferEvents (.r b1)).reverse ++
            ((transferEvents (.r b0)).reverse ++ s.trace)))
        work :=
          { s.work with
            acc := b3
            keys := s.work.keys ||| keyDecode b0 b1 b2 b3
            bitCnt := 8
            byteCnt := s.work.byteCnt + 4
            tmr := s.timing.tSettle }
        peer := p3 } := by
  subst hp hq
  have hh : s.pins.hasRead.clk.out = true := rfl
  have hk : ∀ k : Byte, k ||| b0 <<< 0 ||| b1 <<< 1 ||| b2 <<< 2 ||| b3 <<< 3 = k ||| keyDecode b0 b1 b2 b3 := by
    intro k; simp [keyDecode, BitVec.or_assoc]
  have hc : s.work.byteCnt + 1 + 1 + 1 + 1 = s.work.byteCnt + 4 := by
    simp only [BitVec.add_assoc]; rfl
  rw [scanRead_effect s 0 h, scanRead_effect _ 1 hh, scanRead_effect _ 2 hh, scanRead_effect _ 3 hh]
  simp only [hasRead_hasRead, h0, h1, h2, h3, Work.hasRead, hk, hc]

/-- `ScanFrame()` with its decoder from every state (44_key_scanner.md R175, R176). -/
theorem scanFrame_effect (s : State) :
    s.runBeats scanFrame =
      { s with
        pins :=
          { s.pins with
            clk := { s.pins.clk with out := true }
            stb := { s.pins.stb with out := true }
            dio := { out := false, oe := true } }
        trace :=
          (frameEvents
              [.w 0x42, .r (scanned s.pins s.peer 0), .r (scanned s.pins s.peer 1), .r (scanned s.pins s.peer 2),
                .r (scanned s.pins s.peer 3)]).reverse ++ s.trace
        work :=
          { s.work with
            shr := 0
            acc := scanned s.pins s.peer 3
            keys := scannedKeys s.pins s.peer
            bitCnt := 8
            byteCnt := 4
            tmr := s.timing.tSettle }
        peer :=
          (peerAfterReads (scanPins s.pins) (scanPeer s.pins s.peer) 4).observe (scanPins s.pins).hasRead
            ((PinEvent.stb true).onPins (scanPins s.pins).hasRead) } := by
  obtain ⟨⟨b0, p0⟩, e0⟩ : ∃ r, byteRead (scanPins s.pins).hasRead (scanPeer s.pins s.peer) = r := ⟨_, rfl⟩
  obtain ⟨⟨b1, p1⟩, e1⟩ : ∃ r, byteRead (scanPins s.pins).hasRead p0 = r := ⟨_, rfl⟩
  obtain ⟨⟨b2, p2⟩, e2⟩ : ∃ r, byteRead (scanPins s.pins).hasRead p1 = r := ⟨_, rfl⟩
  obtain ⟨⟨b3, p3⟩, e3⟩ : ∃ r, byteRead (scanPins s.pins).hasRead p2 = r := ⟨_, rfl⟩
  have hframe : (frameEvents [.w 0x42, .r b0, .r b1, .r b2, .r b3]).reverse ++ s.trace =
      [.stb true] ++ ((transferEvents (.r b3)).reverse ++ ((transferEvents (.r b2)).reverse
        ++ ((transferEvents (.r b1)).reverse ++ ((transferEvents (.r b0)).reverse
        ++ ((.stb false :: transferEvents (.w 0x42)).reverse ++ s.trace))))) := by
    simp [frameEvents]
  have hclk : (scanPins s.pins).clk.out = true := by rw [scanPins_eq]
  have hpins : ((PinEvent.stb true).onPins (scanPins s.pins).hasRead) =
      { s.pins with
        clk := { s.pins.clk with out := true }
        stb := { s.pins.stb with out := true }
        dio := { out := false, oe := true } } := by rw [scanPins_eq]; rfl
  have hzero : ∀ x : Byte, (0 : Byte) ||| x = x := fun x => by simp
  rw [scanFrame, runBeats_before _ _ _ (by simp)]
  rw [runBeats_append, runBeats_append, runBeats_append, runBeats_append, runBeats_append, runBeats_append,
    List.foldl_cons, List.foldl_nil, State.write]
  rw [scanHead_effect, fourReads_effect _ (scanPins s.pins) (scanPeer s.pins s.peer) rfl rfl hclk b0 b1 b2 b3 p0 p1 p2 p3 e0 e1 e2 e3, stb_effect]
  simp only [scannedKeys, scanned, peerAfterReads, e0, e1, e2, e3, hframe, State.emits, Work.wrote, hzero,
    pinsAfter_cons, pinsAfter_nil, observeAll_cons, observeAll_nil, hpins, List.reverse_singleton]
  rfl

end Sys2Proof.Machine
end

