-- ==== Sys2Proof/Laws/Frames.lean ====
section
/-! SUPPORT. Whole frames as the reference peer sees them: what a frame of written bytes does to it, what the key-scan frame
reads from it, and what a silent line reads as. -/

namespace Sys2Proof.Machine

/-! ## Frames of written bytes -/

/-- The peer after the bytes `vs` of one frame. -/
def Peer.takeFrame (vs : List Byte) (p : Peer) : Peer := (vs.foldl (fun q v => q.receive v) p.openFrame).closeFrame

/-- A frame in progress that receives: at a byte boundary, not transmitting. -/
def Peer.receiving (p : Peer) : Prop :=
  p.kind = .reference ∧ ∃ fr, p.frame = some fr ∧ fr.nbits = 0 ∧ fr.kind ≠ .scan

theorem receiving_openFrame (p : Peer) (h : p.kind = .reference) : p.openFrame.receiving :=
  ⟨(openFrame_kind p).trans h, _, rfl, rfl, by decide⟩

/-- A later byte leaves the kind of the frame. -/
theorem receiving_receive (v : Byte) (p : Peer) (fr : Frame) (hk : p.kind = .reference) (hf : p.frame = some fr)
    (hfr : fr.kind = .data ∨ fr.kind = .unspecified) :
    (p.receive v).receiving ∧ ∃ fr', (p.receive v).frame = some fr' ∧ (fr'.kind = .data ∨ fr'.kind = .unspecified) := by
  rcases hfr with h | h <;> simp [Peer.receive, Peer.receiving, hf, h, hk, Peer.store, Peer.scramble]

/-- The first byte fixes the kind of the frame (20_memory.md R56). -/
theorem receive_first (c : Byte) (p : Peer) :
    (p.openFrame.receive c).frame =
      some { bytes := [c], nbits := 0, sh := 0, kind := kindAfter c p.closeFrame.mode, drive := none } := rfl

theorem kindAfter_ne_command (c : Byte) (m : Mode) : kindAfter c m ≠ .command := by
  unfold kindAfter; repeat' split
  all_goals decide

/-- The writes of a frame, from inside it. -/
theorem observeAll_writes (pins : Pins) (vs : List Byte) (p : Peer) (fr : Frame) (hp : pins.inFrame)
    (hd : pins.dio.oe = true) (hk : p.kind = .reference) (hf : p.frame = some fr) (hn : fr.nbits = 0)
    (hfr : vs = [] ∨ fr.kind = .data ∨ fr.kind = .unspecified) :
    observeAll pins ((vs.map Transfer.w).flatMap transferEvents) p = vs.foldl (fun q v => q.receive v) p := by
  induction vs generalizing pins p fr with
  | nil => rfl
  | cons v rest ih =>
    have hfr' : fr.kind = .data ∨ fr.kind = .unspecified := by simpa using hfr
    have hs : fr.kind ≠ .scan := by rcases hfr' with h | h <;> rw [h] <;> decide
    obtain ⟨⟨hk', _⟩, fr', hf', hkind'⟩ := receiving_receive v p fr hk hf hfr'
    obtain ⟨_, g, hg, hg0, _⟩ := (receiving_receive v p fr hk hf hfr').1
    rw [hf'] at hg
    obtain rfl : fr' = g := by simpa using hg
    simp only [List.map_cons, List.flatMap_cons, observeAll_append, List.foldl_cons]
    rw [observeAll_write pins p fr v hp hd hk hf hn hs, pinsAfter_write]
    exact ih _ _ _ hp hd hk' hf' hg0 (.inr hkind')

theorem pinsAfter_writes (pins : Pins) (c : Byte) (vs : List Byte) :
    pinsAfter pins (((c :: vs).map Transfer.w).flatMap transferEvents) =
      pins.wrote (((c :: vs).getLast (by simp)).getLsbD 7) := by
  induction vs generalizing pins c with
  | nil => rfl
  | cons d rest ih =>
    rw [List.map_cons, List.flatMap_cons, pinsAfter_append, pinsAfter_write, ih]
    rfl

theorem idleBus_iff (p : Pins) :
    p.idleBus = true ↔ p.clk.oe = true ∧ p.stb.oe = true ∧ p.dio.oe = true ∧ p.stb.out = true ∧ p.clk.out = true := by
  simp [Pins.idleBus, and_assoc]

/-- The pins after a frame of written bytes: idle levels, the data latch at the last bit (40_pin_interface.md R111). -/
theorem pinsAfter_frame (pins : Pins) (c : Byte) (vs : List Byte) :
    pinsAfter pins (frameEvents ((c :: vs).map Transfer.w)) =
      { clk := { pins.clk with out := true }
        stb := { pins.stb with out := true }
        dio := { pins.dio with out := ((c :: vs).getLast (by simp)).getLsbD 7 } } := by
  rw [frameEvents, pinsAfter_append, pinsAfter_append, pinsAfter_writes]
  rfl

/-- A frame of written bytes on an idle bus: the reference peer takes the bytes (20_memory.md R52, R53, R56). A byte after
the command must not come while the peer transmits. -/
theorem observeAll_frame (pins : Pins) (c : Byte) (vs : List Byte) (p : Peer) (hp : pins.idleBus = true)
    (hk : p.kind = .reference) (hvs : vs = [] ∨ kindAfter c p.closeFrame.mode ≠ .scan) :
    observeAll pins (frameEvents ((c :: vs).map Transfer.w)) p = p.takeFrame (c :: vs) := by
  obtain ⟨hco, hso, hdo, hs, hc⟩ := (idleBus_iff pins).1 hp
  have hopen : observeAll pins [.stb false] p = p.openFrame := by
    simp [Peer.observe, Peer.react, Line.edge, hk, hso, hs]
  have hin : (pinsAfter pins [.stb false]).inFrame := ⟨hco, hso, rfl⟩
  have hclose : ∀ (q : Peer) (b : Bool), q.kind = .reference →
      observeAll ((pinsAfter pins [.stb false]).wrote b) [.stb true] q = q.closeFrame := by
    intro q b hq
    simp [Peer.observe, Peer.react, Line.edge, Pins.wrote, hq, hso]
  have hkindOpen : p.openFrame.kind = .reference := (openFrame_kind p).trans hk
  have hfirst : observeAll (pinsAfter pins [.stb false]) (transferEvents (.w c)) p.openFrame = p.openFrame.receive c :=
    observeAll_write _ _ _ c hin hdo hkindOpen rfl rfl (by decide)
  have hkindFold : ∀ (ws : List Byte) (q : Peer), (ws.foldl (fun q v => q.receive v) q).kind = q.kind := by
    intro ws
    induction ws with
    | nil => intro q; rfl
    | cons w rest ih => intro q; rw [List.foldl_cons, ih, receive_kind]
  have hrest : observeAll ((pinsAfter pins [.stb false]).wrote (c.getLsbD 7)) ((vs.map Transfer.w).flatMap transferEvents)
      (p.openFrame.receive c) = vs.foldl (fun q v => q.receive v) (p.openFrame.receive c) := by
    refine observeAll_writes _ vs _ _ hin hdo (by rw [receive_kind]; exact hkindOpen) (receive_first c p) rfl ?_
    rcases hvs with h | h
    · exact .inl h
    · right
      have := kindAfter_ne_command c p.closeFrame.mode
      cases hka : kindAfter c p.closeFrame.mode <;> simp_all
  rw [frameEvents, observeAll_append, observeAll_append, hopen, List.map_cons, List.flatMap_cons, observeAll_append,
    hfirst, pinsAfter_write, hrest]
  have := pinsAfter_writes (pinsAfter pins [.stb false]) c vs
  rw [List.map_cons, List.flatMap_cons] at this
  rw [pinsAfter_append, this, hclose _ _ (by rw [hkindFold, receive_kind]; exact hkindOpen)]
  rfl

/-! ## What the adapter's frames do to the reference peer -/

/-- The first byte of a frame acts as a command on the peer whose earlier frame has ended (20_memory.md R53). -/
theorem receive_openFrame (c : Byte) (p : Peer) :
    p.openFrame.receive c =
      (p.closeFrame.command c).withFrame
        (some { bytes := [c], nbits := 0, sh := 0, kind := kindAfter c p.closeFrame.mode, drive := none }) := by
  simp only [Peer.openFrame, Peer.receive, withFrame_frame, command_withFrame, withFrame_withFrame]
  rfl

/-- A frame of one command byte. -/
theorem takeFrame_one (c : Byte) (p : Peer) : p.takeFrame [c] = (p.closeFrame.command c).withFrame none := by
  simp only [Peer.takeFrame, List.foldl_cons, List.foldl_nil, receive_openFrame]
  rw [closeFrame_of_whole _ rfl, withFrame_withFrame]

theorem loneCommand_eq (c : Byte) (p : Peer) (h : p.kind = .reference) :
    p.loneCommand c = (p.closeFrame.command c).withFrame none := by
  rw [← takeFrame_one, Peer.loneCommand, h]; rfl

/-- A data-instruction command writes the mode (20_memory.md R53); test mode frees the rest (R61 e). -/
theorem command_dataCmd (t f r : Bool) (p : Peer) :
    p.command (dataCmd t f r) =
      (if t then p.unsettle else p.atCommand).withMode { fixed := f, read := r, test := t } := by
  cases t <;> cases f <;> cases r <;> rfl

/-- A display-control command writes the display control (20_memory.md R54). -/
theorem command_dispCmd (en : Bool) (br : BitVec 3) (p : Peer) :
    p.command (dispCmd en br) = p.atCommand.withDisp { on := en, br := br } := by
  obtain ⟨h1, h2, h3, _⟩ := dispCmd_bits en br
  simp only [Peer.command, h1, h2, h3]
  rfl

/-- An address command writes the pointer (20_memory.md R55). -/
theorem command_addrCmd (a : Byte) (p : Peer) :
    p.command (addrCmd a) = p.atCommand.withPtr (a.extractLsb' 0 4) := by
  obtain ⟨h1, h2⟩ := addrCmd_bits a
  simp only [Peer.command, h1, h2]
  rfl

theorem kindAfter_addrCmd (a : Byte) (m : Mode) :
    kindAfter (addrCmd a) m = if m.read || m.test then .unspecified else .data := by
  simp only [kindAfter, (addrCmd_bits a).1]
  rfl

theorem kindAfter_addrCmd_ne_scan (a : Byte) (m : Mode) : kindAfter (addrCmd a) m ≠ .scan := by
  rw [kindAfter_addrCmd]; split <;> decide

/-- The address that a store with address byte `AddrCmd(a)` goes to: the low four bits (20_memory.md R55). -/
def ramAddr (a : Byte) : BitVec 4 := a.extractLsb' 0 4

theorem found_eq (p : Peer) (h : p.frame = none) : p.found = p.atCommand := by rw [Peer.found, closeFrame_of_none p h]

@[simp] theorem found_kind (p : Peer) : p.found.kind = p.kind := by simp [Peer.found]
@[simp] theorem found_frame (p : Peer) : p.found.frame = none := by simp [Peer.found]
@[simp] theorem found_keys (p : Peer) : p.found.keys = p.keys := by simp [Peer.found]
@[simp] theorem found_keyFeed (p : Peer) : p.found.keyFeed = p.keyFeed := by simp [Peer.found]
@[simp] theorem found_keyReads (p : Peer) : p.found.keyReads = p.keyReads := by simp [Peer.found]
@[simp] theorem found_keysAt (p : Peer) (n : Nat) : p.found.keysAt n = p.keysAt n := by simp [Peer.keysAt]

/-- The reference peer after `SendData(a, d)` (20_memory.md R57). -/
def Peer.stored (a d : Byte) (p : Peer) : Peer :=
  { p.found with
    ram := Ram.insert p.found.ram (ramAddr a).toNat d
    mode := { fixed := true, read := false, test := false }
    ptr := ramAddr a }

/-- The reference peer after `SendConfig` (20_memory.md R53, R54). -/
def Peer.configured (en : Bool) (br : BitVec 3) (p : Peer) : Peer :=
  { p.found with
    mode := { fixed := false, read := false, test := false }
    disp := { on := en, br := br } }

@[simp] theorem stored_kind (a d : Byte) (p : Peer) : (p.stored a d).kind = p.kind := found_kind p
@[simp] theorem stored_mode (a d : Byte) (p : Peer) :
    (p.stored a d).mode = { fixed := true, read := false, test := false } := rfl
@[simp] theorem stored_disp (a d : Byte) (p : Peer) : (p.stored a d).disp = p.found.disp := rfl
@[simp] theorem stored_frame (a d : Byte) (p : Peer) : (p.stored a d).frame = none := found_frame p

@[simp] theorem configured_kind (en : Bool) (br : BitVec 3) (p : Peer) : (p.configured en br).kind = p.kind := found_kind p
@[simp] theorem configured_mode (en : Bool) (br : BitVec 3) (p : Peer) :
    (p.configured en br).mode = { fixed := false, read := false, test := false } := rfl
@[simp] theorem configured_disp (en : Bool) (br : BitVec 3) (p : Peer) :
    (p.configured en br).disp = { on := en, br := br } := rfl
@[simp] theorem configured_frame (en : Bool) (br : BitVec 3) (p : Peer) : (p.configured en br).frame = none := found_frame p
@[simp] theorem configured_keyReads (en : Bool) (br : BitVec 3) (p : Peer) :
    (p.configured en br).keyReads = p.keyReads := found_keyReads p

/-- Outside test mode, with no frame open, the peer is found as it is. -/
theorem found_of_settled (p : Peer) (hf : p.frame = none) (ht : p.mode.test = false) : p.found = p := by
  rw [found_eq p hf, atCommand_of_not_test p ht]

/-- Outside test mode, with no frame open, a configuration changes the mode and the display control alone. -/
theorem configured_of_settled (p : Peer) (en : Bool) (br : BitVec 3) (hf : p.frame = none) (ht : p.mode.test = false) :
    p.configured en br =
      { p with mode := { fixed := false, read := false, test := false }, disp := { on := en, br := br } } := by
  rw [Peer.configured, found_of_settled p hf ht]

theorem takeFrame_data (a d : Byte) (p : Peer) (hf : p.frame = none) (h : p.mode.read = false) (ht : p.mode.test = false) :
    p.takeFrame [addrCmd a, d] = ((p.withPtr (ramAddr a)).store d).withFrame none := by
  rw [Peer.takeFrame, List.foldl_cons, receive_openFrame, closeFrame_of_none p hf, command_addrCmd,
    atCommand_of_not_test p ht, kindAfter_addrCmd, h, ht]
  rfl

/-- The one-byte frame of a write-mode data-instruction command. -/
theorem takeFrame_mode (f r : Bool) (p : Peer) :
    p.takeFrame [dataCmd false f r] = p.found.withMode { fixed := f, read := r, test := false } := by
  rw [takeFrame_one, command_dataCmd]
  exact congrArg _ (found_frame p).symm

theorem idleBus_frame (pins : Pins) (c : Byte) (vs : List Byte) (h : pins.idleBus = true) :
    (pinsAfter pins (frameEvents ((c :: vs).map Transfer.w))).idleBus = true := by
  rw [pinsAfter_frame]
  rw [idleBus_iff] at h ⊢
  exact ⟨h.1, h.2.1, h.2.2.1, rfl, rfl⟩

/-- `SendData` on an idle bus stores its byte in the reference peer (41_bus_transport.md R118, 20_memory.md R57). -/
theorem observeAll_dataFrames (pins : Pins) (a d : Byte) (p : Peer) (hp : pins.idleBus = true)
    (hk : p.kind = .reference) :
    observeAll pins (transcriptEvents (dataFrames a d)) p = p.stored a d := by
  have e : transcriptEvents (dataFrames a d) =
      frameEvents ([0x44].map Transfer.w) ++ frameEvents ([addrCmd a, d].map Transfer.w) := by
    simp [transcriptEvents, dataFrames, addrCmd]
  rw [e, observeAll_append, observeAll_frame _ _ _ _ hp hk (.inl rfl), ← dataCmd_write_fixed, takeFrame_mode,
    observeAll_frame _ _ _ _ (idleBus_frame _ _ _ hp) (by simp [hk])
      (.inr (kindAfter_addrCmd_ne_scan _ _)), takeFrame_data _ _ _ (by simp) rfl rfl]
  simp [Peer.stored, Peer.store, Peer.withMode, Peer.withPtr, Peer.withFrame]

theorem pinsAfter_dataFrames (pins : Pins) (a d : Byte) :
    pinsAfter pins (transcriptEvents (dataFrames a d)) =
      { clk := { pins.clk with out := true }
        stb := { pins.stb with out := true }
        dio := { pins.dio with out := d.getLsbD 7 } } := by
  have e : transcriptEvents (dataFrames a d) =
      frameEvents ([0x44].map Transfer.w) ++ frameEvents ([addrCmd a, d].map Transfer.w) := by
    simp [transcriptEvents, dataFrames, addrCmd]
  rw [e, pinsAfter_append, pinsAfter_frame, pinsAfter_frame]
  rfl

/-- `SendConfig` on an idle bus configures the reference peer (42_command_encoder.md R139, R142). -/
theorem observeAll_configFrames (pins : Pins) (en : Bool) (br : BitVec 3) (p : Peer) (hp : pins.idleBus = true)
    (hk : p.kind = .reference) :
    observeAll pins (transcriptEvents (configFrames en br)) p = p.configured en br := by
  have e : transcriptEvents (configFrames en br) =
      frameEvents ([0x40].map Transfer.w) ++ frameEvents ([dispCmd en br].map Transfer.w) := by
    simp [transcriptEvents, configFrames]
  rw [e, observeAll_append, observeAll_frame _ _ _ _ hp hk (.inl rfl), ← dataCmd_write_auto, takeFrame_mode,
    observeAll_frame _ _ _ _ (idleBus_frame _ _ _ hp) (by simp [hk]) (.inl rfl), takeFrame_one, command_dispCmd,
    closeFrame_of_none _ (by simp), atCommand_of_not_test _ rfl]
  simp [Peer.configured, Peer.withMode, Peer.withDisp, Peer.withFrame]

theorem pinsAfter_configFrames (pins : Pins) (en : Bool) (br : BitVec 3) :
    pinsAfter pins (transcriptEvents (configFrames en br)) =
      { clk := { pins.clk with out := true }
        stb := { pins.stb with out := true }
        dio := { pins.dio with out := true } } := by
  have e : transcriptEvents (configFrames en br) =
      frameEvents ([0x40].map Transfer.w) ++ frameEvents ([dispCmd en br].map Transfer.w) := by
    simp [transcriptEvents, configFrames]
  have h7 : (dispCmd en br).getLsbD 7 = true := (dispCmd_bits en br).2.2.2
  rw [e, pinsAfter_append, pinsAfter_frame, pinsAfter_frame]
  simp only [List.getLast_singleton, h7]

/-! ## The key-scan frame -/

/-- The lines in the bit times of a key-scan byte: clock and strobe driven, strobe low. -/
theorem bitOf_transmitting (pins : Pins) (p : Peer) (hc : pins.clk.oe = true) (hs : pins.stb.oe = true)
    (hso : pins.stb.out = false) (hk : p.kind = .reference) (hput : p.transmitting = true)
    (q : Peer) (level : Bool) (hq : p.putBit = q) (hqk : q.kind = .reference) (hqt : q.transmitting = true)
    (hd : q.drives = some level) : bitOf pins true p = (level, q.endBit) := by
  have hlow : p.observe (pins.reading true) (pins.reading false) = q := by
    simp [Peer.observe, Peer.react, Pins.reading, Line.edge, hk, hc, hs, hso, hput, hq]
  have hsense : senseDio (pins.reading false) q = (level, q) := by simp [senseDio, Pins.reading, hqk, hd]
  have hhigh : q.observe (pins.reading false) (pins.reading true) = q.endBit := by
    simp [Peer.observe, Peer.react, Pins.reading, Line.edge, hqk, hc, hs, hso, hqt]
  simp only [bitOf, hlow, hsense, hhigh]

/-- A peer that transmits byte `v`, before bit `n`. -/
def Peer.sending (p : Peer) (bytes : List Byte) (v : Byte) (n : Fin 8) (d : Option Bool) : Peer :=
  { p with frame := some { bytes := bytes, nbits := n, sh := v, kind := .scan, drive := d } }

/-- The peer after one more read of the keys (20_memory.md R60). -/
def Peer.readOnce (p : Peer) : Peer := { p with keyReads := p.keyReads + 1 }

theorem bitOf_first (pins : Pins) (p : Peer) (bytes : List Byte) (x : Byte) (d : Option Bool) (k : Nat)
    (hc : pins.clk.oe = true) (hs : pins.stb.oe = true) (hso : pins.stb.out = false) (hk : p.kind = .reference)
    (hlen : bytes.length = k + 1) (hk4 : k < 4) (ht : p.mode.test = false) :
    bitOf pins true (p.sending bytes x 0 d) =
      ((scanByte (p.keysAt 0) k).getLsbD 0,
        p.readOnce.sending bytes (scanByte (p.keysAt 0) k) 1 (some ((scanByte (p.keysAt 0) k).getLsbD 0))) := by
  refine bitOf_transmitting pins (p.sending bytes x 0 d) hc hs hso hk rfl
    (p.readOnce.sending bytes (scanByte (p.keysAt 0) k) 0 (some ((scanByte (p.keysAt 0) k).getLsbD 0))) _ ?_ hk rfl rfl
  simp [Peer.sending, Peer.readOnce, Peer.putBit, Peer.transmitByte, Peer.keysAt, hlen, hk4, ht]

theorem bitOf_next (pins : Pins) (p : Peer) (bytes : List Byte) (v : Byte) (d : Option Bool) (n : Fin 8)
    (hc : pins.clk.oe = true) (hs : pins.stb.oe = true) (hso : pins.stb.out = false) (hk : p.kind = .reference)
    (hn : n ≠ 0) (hn7 : n ≠ 7) :
    bitOf pins true (p.sending bytes v n d) =
      (v.getLsbD n.val, p.sending bytes v (n + 1) (some (v.getLsbD n.val))) := by
  rw [bitOf_transmitting pins (p.sending bytes v n d) hc hs hso hk rfl (p.sending bytes v n (some (v.getLsbD n.val))) _
    (by simp [Peer.sending, Peer.putBit, hn]) hk rfl rfl]
  simp [Peer.sending, Peer.endBit, hn7]

theorem bitOf_last (pins : Pins) (p : Peer) (bytes : List Byte) (v : Byte) (d : Option Bool)
    (hc : pins.clk.oe = true) (hs : pins.stb.oe = true) (hso : pins.stb.out = false) (hk : p.kind = .reference) :
    bitOf pins true (p.sending bytes v 7 d) =
      (v.getLsbD 7, p.sending (bytes ++ [v]) v 0 (some (v.getLsbD 7))) := by
  rw [bitOf_transmitting pins (p.sending bytes v 7 d) hc hs hso hk rfl (p.sending bytes v 7 (some (v.getLsbD 7))) _
    (by simp [Peer.sending, Peer.putBit]) hk rfl rfl]
  simp [Peer.sending, Peer.endBit]

/-- One read of a transmitting reference peer: the key-scan byte (20_memory.md R58, R60). -/
theorem byteRead_transmitting (pins : Pins) (p : Peer) (bytes : List Byte) (x : Byte) (d : Option Bool) (k : Nat)
    (hc : pins.clk.oe = true) (hs : pins.stb.oe = true) (hso : pins.stb.out = false) (hco : pins.clk.out = true)
    (hk : p.kind = .reference) (hlen : bytes.length = k + 1) (hk4 : k < 4) (ht : p.mode.test = false) :
    byteRead pins (p.sending bytes x 0 d) =
      (scanByte (p.keysAt 0) k,
        p.readOnce.sending (bytes ++ [scanByte (p.keysAt 0) k]) (scanByte (p.keysAt 0) k) 0
          (some ((scanByte (p.keysAt 0) k).getLsbD 7))) := by
  have hv : byteOfLevels (levelsOf (scanByte (p.keysAt 0) k)) = scanByte (p.keysAt 0) k := shiftIn_byteOfLevels _
  have hk' : p.readOnce.kind = .reference := hk
  rw [levelsOf_eq] at hv
  simp only [byteRead, hco, bitsOf]
  rw [bitOf_first pins p bytes x d k hc hs hso hk hlen hk4 ht]
  generalize hvv : scanByte (p.keysAt 0) k = v at hv ⊢
  generalize p.readOnce = q at hk' ⊢
  simp only [bitOf_next pins q bytes v _ 1 hc hs hso hk' (by decide) (by decide)]
  simp only [bitOf_next pins q bytes v _ (1 + 1) hc hs hso hk' (by decide) (by decide)]
  simp only [bitOf_next pins q bytes v _ (1 + 1 + 1) hc hs hso hk' (by decide) (by decide)]
  simp only [bitOf_next pins q bytes v _ (1 + 1 + 1 + 1) hc hs hso hk' (by decide) (by decide)]
  simp only [bitOf_next pins q bytes v _ (1 + 1 + 1 + 1 + 1) hc hs hso hk' (by decide) (by decide)]
  simp only [bitOf_next pins q bytes v _ (1 + 1 + 1 + 1 + 1 + 1) hc hs hso hk' (by decide) (by decide)]
  have h7 : (1 + 1 + 1 + 1 + 1 + 1 + 1 : Fin 8) = 7 := by decide
  simp only [h7, bitOf_last pins q bytes v _ hc hs hso hk']
  exact Prod.ext hv rfl

/-- The peer when the command byte of the key-scan frame is out, on an idle bus: it transmits (20_memory.md R53, R56). -/
theorem scanPeer_idle (pins : Pins) (p : Peer) (hp : pins.idleBus = true) (hk : p.kind = .reference) :
    scanPeer pins p =
      (p.found.withMode { fixed := false, read := true, test := false }).sending [0x42] 0 0 none := by
  obtain ⟨hco, hso, hdo, hs, hc⟩ := (idleBus_iff pins).1 hp
  have hopen : p.observe pins ((PinEvent.stb false).onPins pins) = p.openFrame := by
    simp [Peer.observe, Peer.react, Line.edge, hk, hso, hs]
  rw [scanPeer, observeAll_cons, hopen, observeAll_write ((PinEvent.stb false).onPins pins) p.openFrame _ 0x42
    ⟨hco, hso, rfl⟩ hdo ((openFrame_kind p).trans hk) rfl rfl (by decide), receive_openFrame, ← dataCmd_read, command_dataCmd]
  rfl

/-- The four reads of a peer that has taken the read command (20_memory.md R58, R60). -/
theorem scan_reads (pins : Pins) (p q : Peer) (hp : pins.idleBus = true) (hk : q.kind = .reference)
    (hq : scanPeer pins p = (q.withMode { fixed := false, read := true, test := false }).sending [0x42] 0 0 none) :
    (∀ k, k < 4 → scanned pins p k = scanByte (q.keysAt k) k) ∧
      (peerAfterReads (scanPins pins) (scanPeer pins p) 4).observe (scanPins pins).hasRead
        ((PinEvent.stb true).onPins (scanPins pins).hasRead) =
        { q with
          mode := { fixed := false, read := true, test := false }
          keyReads := q.keyReads + 4
          frame := none } := by
  obtain ⟨hco, hso, hdo, hs, hc⟩ := (idleBus_iff pins).1 hp
  have hpn : (scanPins pins).hasRead =
      { clk := { pins.clk with out := true }, stb := { pins.stb with out := false }, dio := ⟨false, true⟩ } := by
    rw [scanPins_eq]; rfl
  have rd := fun (j : Nat) (bytes : List Byte) (x : Byte) (d : Option Bool) (hlen : bytes.length = j + 1) (hk4 : j < 4) =>
    byteRead_transmitting (scanPins pins).hasRead
      { q with mode := { fixed := false, read := true, test := false }, keyReads := q.keyReads + j } bytes x d j
      (by rw [hpn]; exact hco) (by rw [hpn]; exact hso) (by rw [hpn]) (by rw [hpn]) hk hlen hk4 rfl
  have h0 := rd 0 [0x42] 0 none rfl (by decide)
  have h1 := rd 1 _ (scanByte (q.keysAt 0) 0) (some ((scanByte (q.keysAt 0) 0).getLsbD 7))
    (by rfl : ([0x42] ++ [scanByte (q.keysAt 0) 0]).length = 2) (by decide)
  have h2 := rd 2 _ (scanByte (q.keysAt 1) 1) (some ((scanByte (q.keysAt 1) 1).getLsbD 7))
    (by rfl : ([0x42] ++ [scanByte (q.keysAt 0) 0] ++ [scanByte (q.keysAt 1) 1]).length = 3) (by decide)
  have h3 := rd 3 _ (scanByte (q.keysAt 2) 2) (some ((scanByte (q.keysAt 2) 2).getLsbD 7))
    (by rfl : ([0x42] ++ [scanByte (q.keysAt 0) 0] ++ [scanByte (q.keysAt 1) 1] ++ [scanByte (q.keysAt 2) 2]).length = 4)
    (by decide)
  simp only [Peer.keysAt, Peer.readOnce, Nat.add_zero, Nat.add_assoc, Nat.reduceAdd] at h0 h1 h2 h3
  constructor
  · intro k hk4
    have : k = 0 ∨ k = 1 ∨ k = 2 ∨ k = 3 := by omega
    rcases this with rfl | rfl | rfl | rfl <;>
      simp only [Peer.keysAt, Nat.add_zero, scanned, peerAfterReads, hq, Peer.withMode, h0, h1, h2, h3]
  · simp only [peerAfterReads, hq, Peer.withMode, h0, h1, h2, h3]
    rw [hpn]
    simp [Peer.observe, Peer.react, Line.edge, Peer.sending, hk, hso, Peer.closeFrame, Peer.midByte, Peer.withFrame]

/-- The reference peer after a key scan (20_memory.md R53, 44_key_scanner.md R178). -/
def Peer.scannedOver (p : Peer) : Peer :=
  { p.found with
    mode := { fixed := false, read := true, test := false }
    keyReads := p.keyReads + 4 }

/-- A key scan of the reference peer on an idle bus reads the keys (20_memory.md R58, 44_key_scanner.md R176). -/
theorem scan_idle (pins : Pins) (p : Peer) (hp : pins.idleBus = true) (hk : p.kind = .reference) :
    (∀ k, k < 4 → scanned pins p k = scanByte (p.keysAt k) k) ∧
      (peerAfterReads (scanPins pins) (scanPeer pins p) 4).observe (scanPins pins).hasRead
        ((PinEvent.stb true).onPins (scanPins pins).hasRead) = p.scannedOver := by
  obtain ⟨h1, h2⟩ := scan_reads pins p p.found hp (by simp [hk]) (scanPeer_idle pins p hp hk)
  refine ⟨fun k hk4 => by rw [h1 k hk4, found_keysAt], ?_⟩
  rw [h2, ← found_frame p, Peer.scannedOver, found_keyReads]

/-- The key bitmap of a key scan of the reference peer on an idle bus, with the keys held over the scan, is the keys
(44_key_scanner.md R176, R177, 20_memory.md R60). -/
theorem scannedKeys_idle (pins : Pins) (p : Peer) (v : Byte) (hp : pins.idleBus = true) (hk : p.kind = .reference)
    (hv : ∀ k, k < 4 → p.keysAt k = v) : scannedKeys pins p = v := by
  have h := (scan_idle pins p hp hk).1
  rw [scannedKeys, h 0 (by decide), h 1 (by decide), h 2 (by decide), h 3 (by decide), hv 0 (by decide), hv 1 (by decide),
    hv 2 (by decide), hv 3 (by decide), keyDecode_scanBytes]

/-! ## A silent line -/

/-- Nothing on the bus answers: no device, or a reference peer that sees no strobe and has no frame open
(40_pin_interface.md R107, 70_reset_and_hazards.md R236). -/
def Peer.silent (p : Peer) (pins : Pins) : Prop :=
  p.kind = .absent ∨ (p.kind = .reference ∧ p.frame = none ∧ pins.stb.oe = false)

theorem observe_silent (p : Peer) (old new : Pins) (h : p.silent new) : p.observe old new = p := by
  rcases h with h | ⟨_, _, h⟩
  · exact observe_other _ _ _ (by rw [h]; decide)
  · exact observe_released _ _ _ h

theorem bitOf_silent (pins : Pins) (c : Bool) (p : Peer) (h : p.silent pins) : bitOf pins c p = (true, p) := by
  have hs : ∀ c, p.silent (pins.reading c) := fun _ => h
  have hsense : senseDio (pins.reading false) p = (true, p) := by
    rcases h with h | ⟨h, hf, _⟩
    · simp [senseDio, Pins.reading, h, Pins.dioPu]
    · simp [senseDio, Pins.reading, h, hf, Peer.drives, Pins.dioPu]
  simp only [bitOf, observe_silent p _ _ (hs false), hsense, observe_silent p _ _ (hs true)]

/-- A silent line reads as ones (41_bus_transport.md R116, 44_key_scanner.md R177). -/
theorem byteRead_silent (pins : Pins) (p : Peer) (h : p.silent pins) : byteRead pins p = (0xFF, p) := by
  simp only [byteRead, bitsOf, bitOf_silent pins _ p h]
  rfl

theorem observeAll_silent (pins : Pins) (es : List PinEvent) (p : Peer) (h : p.silent pins)
    (hes : PinEvent.dirAllOut ∉ es) : observeAll pins es p = p := by
  induction es generalizing pins with
  | nil => rfl
  | cons e rest ih =>
    have hs : p.silent (e.onPins pins) := by
      rcases h with h | ⟨h, hf, ho⟩
      · exact .inl h
      · refine .inr ⟨h, hf, ?_⟩
        cases e <;> first | exact ho | simp at hes
    rw [observeAll_cons, observe_silent p _ _ hs]
    exact ih _ hs (fun hm => hes (List.mem_cons_of_mem _ hm))

theorem dirAllOut_not_mem_transfer (t : Transfer) : PinEvent.dirAllOut ∉ transferEvents t := by
  cases t <;> simp [transferEvents, levelsOf, writeBitEvents, readBitEvents]

theorem dirAllOut_not_mem_transcript (fs : List (List Transfer)) : PinEvent.dirAllOut ∉ transcriptEvents fs := by
  simp [transcriptEvents, frameEvents, dirAllOut_not_mem_transfer]

theorem scan_silent (pins : Pins) (p : Peer) (h : p.silent pins) :
    (∀ k, scanned pins p k = 0xFF) ∧
      (peerAfterReads (scanPins pins) (scanPeer pins p) 4).observe (scanPins pins).hasRead
        ((PinEvent.stb true).onPins (scanPins pins).hasRead) = p := by
  have hpeer : scanPeer pins p = p :=
    observeAll_silent _ _ _ h (by simp [dirAllOut_not_mem_transfer])
  have hs : p.silent (scanPins pins).hasRead := h
  have hreads : ∀ n, peerAfterReads (scanPins pins) p n = p := by
    intro n
    induction n with
    | zero => rfl
    | succ n ih => rw [peerAfterReads, ih, byteRead_silent _ _ hs]
  refine ⟨fun k => ?_, ?_⟩
  · rw [scanned, hpeer, hreads, byteRead_silent _ _ hs]
  · rw [hpeer, hreads]
    exact observe_silent p _ _ (by exact h)

end Sys2Proof.Machine
end

