-- ==== Sys2Proof/Laws/Operations.lean ====
section
/-! SUPPORT. Each host operation as one equation: the state it answers from every state, in terms of the events it emits; and
the reference peer after it, on an idle bus. -/

namespace Sys2Proof.Machine

/-! ## The state an operation answers -/

theorem perform_emits (op : BitVec 4) (f : Bool) (a b : Byte) (bs : List Beat) (s : State) (es : List PinEvent)
    (w : Work) (c : Cfg) (h : (s.accept op f a b).runBeats bs = (s.accept op f a b).emits es w c) :
    s.perform op f a b bs noResult = ((s.accept op f a b).emits es w c).complete 0 false := by
  simp [State.perform, h, noResult]

theorem exec_init (f : Bool) (a b : Byte) (s : State) :
    exec (.init f a b) s =
      .next
        (((s.accept 0x0 f a b).emits ([.dirAllOut, .stb true, .clk true] ++ transcriptEvents (initFrames f (clamp a)))
          { s.work.wrote s.timing.tSettle with byteCnt := 16 } { en := f, br := clamp a }).complete 0 false) := by
  have h := init_effect (s.accept 0x0 f a b) f a
  rw [accept_work, accept_timing] at h
  rw [exec, execInit, perform_emits _ _ _ _ _ _ _ _ _ h]

theorem exec_enable (f : Bool) (a b : Byte) (s : State) :
    exec (.enable f a b) s =
      .next
        (((s.accept 0x1 f a b).emits (transcriptEvents (configFrames f s.cfg.br)) (s.work.wrote s.timing.tSettle)
          { en := f, br := s.cfg.br }).complete 0 false) := by
  have h := sendConfig_effect (s.accept 0x1 f a b) f (s.cfg.br.setWidth 8)
  rw [clamp_setWidth, accept_work, accept_timing] at h
  rw [exec, execEnable, enableBeats, perform_emits _ _ _ _ _ _ _ _ _ h]

theorem exec_setBrightness (f : Bool) (a b : Byte) (s : State) :
    exec (.setBrightness f a b) s =
      .next
        (((s.accept 0x2 f a b).emits (transcriptEvents (configFrames s.cfg.en (clamp a))) (s.work.wrote s.timing.tSettle)
          { en := s.cfg.en, br := clamp a }).complete 0 false) := by
  have h := sendConfig_effect (s.accept 0x2 f a b) s.cfg.en a
  rw [accept_work, accept_timing] at h
  rw [exec, execSetBrightness, brightnessBeats, perform_emits _ _ _ _ _ _ _ _ _ h]

/-- An operation whose position check fails: accepted and completed, nothing else (43_display_memory.md R151). -/
theorem perform_nothing (op : BitVec 4) (f : Bool) (a b : Byte) (s : State) :
    s.perform op f a b [] noResult = (s.accept op f a b).complete 0 false := rfl

theorem exec_displaySegments (f : Bool) (a b : Byte) (s : State) (h : positionOk a = true) :
    exec (.displaySegments f a b) s =
      .next
        (((s.accept 0x3 f a b).emits (transcriptEvents (dataFrames (digitAddr a) b)) (s.work.wrote s.timing.tSettle) s.cfg).complete 0
          false) := by
  refine congrArg _ (perform_emits _ _ _ _ _ _ _ _ _ ?_)
  rw [segmentsBeats, if_pos h, sendData_effect]; rfl

theorem exec_displaySegments_out (f : Bool) (a b : Byte) (s : State) (h : positionOk a = false) :
    exec (.displaySegments f a b) s = .next ((s.accept 0x3 f a b).complete 0 false) := by
  simp only [exec, execDisplaySegments, segmentsBeats, h]; rfl

theorem exec_displayDigit (f : Bool) (a b : Byte) (s : State) (h : positionOk a = true) :
    exec (.displayDigit f a b) s =
      .next
        (((s.accept 0x5 f a b).emits (transcriptEvents (dataFrames (digitAddr a) (segOf s.digitRom b f))) (s.work.wrote s.timing.tSettle)
          s.cfg).complete 0 false) := by
  refine congrArg _ (perform_emits _ _ _ _ _ _ _ _ _ ?_)
  rw [digitBeats, segmentsBeats, if_pos h, sendData_effect]; rfl

theorem exec_displayDigit_out (f : Bool) (a b : Byte) (s : State) (h : positionOk a = false) :
    exec (.displayDigit f a b) s = .next ((s.accept 0x5 f a b).complete 0 false) := by
  simp only [exec, execDisplayDigit, digitBeats, segmentsBeats, h]; rfl

theorem exec_setLed (f : Bool) (a b : Byte) (s : State) (h : positionOk a = true) :
    exec (.setLed f a b) s =
      .next
        (((s.accept 0x6 f a b).emits (transcriptEvents (dataFrames (ledAddr a) (nz b))) (s.work.wrote s.timing.tSettle) s.cfg).complete 0
          false) := by
  refine congrArg _ (perform_emits _ _ _ _ _ _ _ _ _ ?_)
  rw [ledBeats, if_pos h, sendData_effect]; rfl

theorem exec_setLed_out (f : Bool) (a b : Byte) (s : State) (h : positionOk a = false) :
    exec (.setLed f a b) s = .next ((s.accept 0x6 f a b).complete 0 false) := by
  simp only [exec, execSetLed, ledBeats, h]; rfl

theorem exec_clearSegments (f : Bool) (a b : Byte) (s : State) :
    exec (.clearSegments f a b) s =
      .next
        (((s.accept 0x4 f a b).emits (transcriptEvents (clearFrames digitAddr 8 0)) { s.work.wrote s.timing.tSettle with posCnt := 8 }
          s.cfg).complete 0 false) := by
  have h := clearEight_effect (s.accept 0x4 f a b) digitAddr
  rw [accept_work, accept_cfg, accept_timing] at h
  rw [exec, execClearSegments, clearSegmentsBeats, perform_emits _ _ _ _ _ _ _ _ _ h]

theorem exec_clearLeds (f : Bool) (a b : Byte) (s : State) :
    exec (.clearLeds f a b) s =
      .next
        (((s.accept 0x7 f a b).emits (transcriptEvents (clearFrames ledAddr 8 0)) { s.work.wrote s.timing.tSettle with posCnt := 8 }
          s.cfg).complete 0 false) := by
  have h := clearEight_effect (s.accept 0x7 f a b) ledAddr
  rw [accept_work, accept_cfg, accept_timing] at h
  rw [exec, execClearLeds, clearLedsBeats, perform_emits _ _ _ _ _ _ _ _ _ h]

theorem exec_scanKeys (f : Bool) (a b : Byte) (s : State) :
    exec (.scanKeys f a b) s =
      .next
        (((s.accept 0x8 f a b).runBeats scanFrame).complete (scannedKeys s.pins s.peer) false) := by
  simp only [exec, execScanKeys, State.perform, keysResult]
  rw [scanFrame_effect]
  rfl

/-- `SCAN_KEYS` from every state, with all it writes (44_key_scanner.md R177). -/
theorem exec_scanKeys_completed (f : Bool) (a b : Byte) (s : State) :
    exec (.scanKeys f a b) s = .next (s.completed 0x8 f a b
      { cfg := s.cfg
        pins :=
          { clk := { s.pins.clk with out := true }
            stb := { s.pins.stb with out := true }
            dio := { out := false, oe := true } }
        work :=
          { s.work with
            shr := 0
            acc := scanned s.pins s.peer 3
            keys := scannedKeys s.pins s.peer
            bitCnt := 8
            byteCnt := 4
            tmr := s.timing.tSettle }
        peer :=
          (peerAfterReads (scanPins s.pins) (scanPeer s.pins s.peer) 4).observe (scanPins s.pins).hasRead
            ((PinEvent.stb true).onPins (scanPins s.pins).hasRead)
        events :=
          frameEvents
            [.w 0x42, .r (scanned s.pins s.peer 0), .r (scanned s.pins s.peer 1), .r (scanned s.pins s.peer 2),
              .r (scanned s.pins s.peer 3)]
        data := scannedKeys s.pins s.peer }) := by
  rw [exec_scanKeys, scanFrame_effect]; rfl

/-! ## The device that hears nothing -/

/-- On an undriven strobe, or with a device that has no state, the frames of an operation change nothing
(70_reset_and_hazards.md R236, 20_memory.md R50). -/
theorem observeAll_unheard (pins : Pins) (fs : List (List Transfer)) (p : Peer)
    (h : (!pins.stb.oe || (p.kind != .reference)) = true) : observeAll pins (transcriptEvents fs) p = p := by
  have hd := dirAllOut_not_mem_transcript fs
  revert hd
  generalize transcriptEvents fs = es
  intro hd
  by_cases hk : p.kind = .reference
  · have hs : pins.stb.oe = false := by simpa [hk] using h
    induction es generalizing pins with
    | nil => rfl
    | cons e rest ih =>
      have ho : (e.onPins pins).stb.oe = false := by cases e <;> first | exact hs | simp at hd
      rw [observeAll_cons, observe_released _ _ _ ho]
      exact ih _ (by simp [ho]) (fun hm => hd (List.mem_cons_of_mem _ hm)) ho
  · clear h hd
    induction es generalizing pins with
    | nil => rfl
    | cons e rest ih => rw [observeAll_cons, observe_other _ _ _ hk]; exact ih _

/-! ## The pins after an operation (40_pin_interface.md R111) -/

theorem pinsAfter_clearFrames (pins : Pins) (addr : Byte → Byte) (n : Nat) (p : Byte) :
    pinsAfter pins (transcriptEvents (clearFrames addr (n + 1) p)) = pins.idledWith false := by
  induction n generalizing pins p with
  | zero =>
    rw [clearFrames_succ, show clearFrames addr 0 (p + 1) = [] from rfl, List.append_nil, pinsAfter_dataFrames]; rfl
  | succ n ih =>
    rw [clearFrames_succ, transcriptEvents, List.flatMap_append, pinsAfter_append]
    have h := pinsAfter_dataFrames pins (addr p) 0
    rw [transcriptEvents] at h
    rw [h]
    have := ih { clk := { pins.clk with out := true }
                 stb := { pins.stb with out := true }
                 dio := { pins.dio with out := (0 : Byte).getLsbD 7 } } (p + 1)
    rw [transcriptEvents] at this
    rw [this]; rfl

/-- Eight positions cleared leave the bus idle. -/
theorem pinsAfter_clearEight (pins : Pins) (addr : Byte → Byte) :
    pinsAfter pins (transcriptEvents (clearFrames addr 8 0#8)) = pins.idledWith false :=
  pinsAfter_clearFrames pins addr 7 0

/-- The pins when `INIT` has made the lines outputs and the bus idle. -/
def Pins.opened (p : Pins) : Pins :=
  { clk := { out := true, oe := true }, stb := { out := true, oe := true }, dio := { out := p.dio.out, oe := true } }

theorem pinsAfter_open (pins : Pins) : pinsAfter pins [.dirAllOut, .stb true, .clk true] = pins.opened := rfl

theorem opened_idle (pins : Pins) : pins.opened.idleBus = true := rfl

theorem initFrames_events (en : Bool) (br : BitVec 3) :
    transcriptEvents (initFrames en br) =
      frameEvents ((0xC0 :: List.replicate 16 0).map Transfer.w) ++ transcriptEvents (configFrames en br) := by
  rw [transcriptEvents, initFrames, List.flatMap_cons, transcriptEvents]
  rfl

theorem pinsAfter_init (pins : Pins) (en : Bool) (br : BitVec 3) :
    pinsAfter pins ([.dirAllOut, .stb true, .clk true] ++ transcriptEvents (initFrames en br)) =
      { clk := ⟨true, true⟩, stb := ⟨true, true⟩, dio := ⟨true, true⟩ } := by
  rw [pinsAfter_append, pinsAfter_open, initFrames_events, pinsAfter_append, pinsAfter_frame, pinsAfter_configFrames]
  rfl

/-! ## The reference peer after an operation -/

/-- Making the lines outputs and the bus idle is at most the end of a frame (70_reset_and_hazards.md R232). -/
theorem observeAll_open (pins : Pins) (p : Peer) (hk : p.kind = .reference) :
    observeAll pins [.dirAllOut, .stb true, .clk true] p = p ∨
      observeAll pins [.dirAllOut, .stb true, .clk true] p = p.closeFrame := by
  obtain ⟨⟨cl, co⟩, ⟨sl, so⟩, ⟨dl, d_o⟩⟩ := pins
  cases cl <;> cases co <;> cases sl <;> cases so <;>
    simp [Peer.observe, Peer.react, Line.edge, hk]

/-- Ending a frame just before the next begins makes no difference. -/
theorem takeFrame_closeFrame (vs : List Byte) (p : Peer) : p.closeFrame.takeFrame vs = p.takeFrame vs := by
  simp [Peer.takeFrame]

theorem takeFrame_kind (vs : List Byte) (p : Peer) : (p.takeFrame vs).kind = p.kind := by
  have : ∀ (ws : List Byte) (q : Peer), (ws.foldl (fun q v => q.receive v) q).kind = q.kind := by
    intro ws
    induction ws with
    | nil => intro q; rfl
    | cons w rest ih => intro q; rw [List.foldl_cons, ih, receive_kind]
  rw [Peer.takeFrame, closeFrame_kind, this, openFrame_kind]

theorem takeFrame_keyReads (vs : List Byte) (p : Peer) : (p.takeFrame vs).keyReads = p.keyReads := by
  have : ∀ (ws : List Byte) (q : Peer), (ws.foldl (fun q v => q.receive v) q).keyReads = q.keyReads := by
    intro ws
    induction ws with
    | nil => intro q; rfl
    | cons w rest ih => intro q; rw [List.foldl_cons, ih, receive_keyReads]
  rw [Peer.takeFrame, closeFrame_keyReads, this, openFrame_keyReads]

/-- `INIT` from every state of the lines: the block-clear frame, then the configuration (45_initialization.md R186). -/
theorem observeAll_init (pins : Pins) (en : Bool) (br : BitVec 3) (p : Peer) (hk : p.kind = .reference) :
    observeAll pins ([.dirAllOut, .stb true, .clk true] ++ transcriptEvents (initFrames en br)) p =
      (p.takeFrame (0xC0 :: List.replicate 16 0)).configured en br := by
  have hne : ∀ q : Peer, kindAfter 0xC0 q.closeFrame.mode ≠ .scan := fun q => by
    rw [← addrCmd_zero]; exact kindAfter_addrCmd_ne_scan _ _
  have main : ∀ q : Peer, q.kind = .reference →
      observeAll pins.opened (transcriptEvents (initFrames en br)) q =
        (q.takeFrame (0xC0 :: List.replicate 16 0)).configured en br := by
    intro q hq
    rw [initFrames_events, observeAll_append, observeAll_frame _ _ _ _ (opened_idle pins) hq (.inr (hne q)),
      observeAll_configFrames _ _ _ _ (idleBus_frame _ _ _ (opened_idle pins)) (by rw [takeFrame_kind]; exact hq)]
  rw [observeAll_append, pinsAfter_open]
  rcases observeAll_open pins p hk with h | h
  · rw [h, main p hk]
  · rw [h, main p.closeFrame (by simp [hk]), takeFrame_closeFrame]

theorem lookup_foldl_insert (as : List Nat) (m : List Host.Cell) (x : Nat) :
    Ram.lookup (as.foldl (fun m a => Ram.insert m a 0) m) x = if x ∈ as then some 0 else Ram.lookup m x := by
  induction as generalizing m with
  | nil => rfl
  | cons a rest ih =>
    rw [List.foldl_cons, ih]
    by_cases hr : x ∈ rest
    · simp [hr]
    · by_cases hx : x = a
      · subst hx; simp [hr]
      · simp [hr, hx, lookup_insert_other _ _ _ _ hx]

/-- `n` zero bytes stored from address `a`, each at the next address, or all at `a` in fixed mode (20_memory.md R57). -/
def zeroFill (fixed : Bool) (n : Nat) (a : BitVec 4) (m : List Host.Cell) : List Host.Cell :=
  match n with
  | 0 => m
  | k + 1 => zeroFill fixed k (if fixed then a else a + 1) (Ram.insert m a.toNat 0)

/-- Zero bytes in a frame of data bytes. -/
theorem receive_zeros (n : Nat) (p : Peer) (bytes : List Byte) :
    (List.replicate n 0).foldl (fun q v => q.receive v)
        { p with frame := some { bytes := bytes, nbits := 0, sh := 0, kind := .data, drive := none } } =
      { p with
        ram := zeroFill p.mode.fixed n p.ptr p.ram
        ptr := if p.mode.fixed then p.ptr else p.ptr + BitVec.ofNat 4 n
        frame := some
          { bytes := bytes ++ List.replicate n 0, nbits := 0, sh := 0, kind := .data, drive := none } } := by
  induction n generalizing p bytes with
  | zero => cases h : p.mode.fixed <;> simp [zeroFill]
  | succ n ih =>
    have hb : ∀ a : BitVec 4, a + 1 + BitVec.ofNat 4 n = a + BitVec.ofNat 4 (n + 1) := fun a => by
      rw [BitVec.add_assoc, ← BitVec.ofNat_add_ofNat, BitVec.add_comm 1]; rfl
    have h1 : ({ p with frame := some { bytes := bytes, nbits := 0, sh := 0, kind := .data, drive := none } } : Peer).receive 0 =
        { p.store 0 with
          frame := some { bytes := bytes ++ [0], nbits := 0, sh := 0, kind := .data, drive := none } } := rfl
    rw [List.replicate_succ, List.foldl_cons, h1, ih (p.store 0) (bytes ++ [0])]
    cases h : p.mode.fixed <;> simp [Peer.store, h, zeroFill]
    exact hb _

/-- The block-clear frame in write mode: sixteen zeros from address 0 (45_initialization.md R186,
70_reset_and_hazards.md R238). -/
theorem takeFrame_clear (p : Peer) (hf : p.frame = none) (hr : p.mode.read = false) (ht : p.mode.test = false) :
    p.takeFrame (0xC0 :: List.replicate 16 0) =
      { p with ram := zeroFill p.mode.fixed 16 0 p.ram, ptr := 0 } := by
  have h1 : p.openFrame.receive 0xC0 =
      { p with
        ptr := 0
        frame := some { bytes := [0xC0], nbits := 0, sh := 0, kind := .data, drive := none } } := by
    rw [← addrCmd_zero, receive_openFrame, closeFrame_of_none p hf, command_addrCmd, atCommand_of_not_test p ht,
      kindAfter_addrCmd, hr, ht]
    rfl
  rw [Peer.takeFrame, List.foldl_cons, h1]
  have h2 := receive_zeros 16 ({ p with ptr := 0 } : Peer) [0xC0]
  simp only at h2
  rw [h2, closeFrame_of_whole _ rfl]
  cases p.mode.fixed <;> simp [Peer.withFrame, hf]

/-- The reference peer after `INIT` that found it in write mode, no frame cut in mid-byte (45_initialization.md R186,
70_reset_and_hazards.md R238). -/
theorem takeFrame_clear_configured (p : Peer) (en : Bool) (br : BitVec 3) (hw : p.midByte = false)
    (hr : p.mode.read = false) (ht : p.mode.test = false) :
    (p.takeFrame (0xC0 :: List.replicate 16 0)).configured en br =
      { p with
        ram := zeroFill p.mode.fixed 16 0 p.ram
        mode := { fixed := false, read := false, test := false }
        ptr := 0
        disp := { on := en, br := br }
        frame := none } := by
  rw [← takeFrame_closeFrame, closeFrame_of_whole p hw, takeFrame_clear (p.withFrame none) rfl hr ht,
    withFrame_mode, withFrame_ram]
  generalize zeroFill p.mode.fixed 16 0 p.ram = m
  exact configured_of_settled _ _ _ rfl ht

/-- A zero stays a zero. -/
theorem lookup_zeroFill_keeps (fixed : Bool) (n : Nat) (a : BitVec 4) (m : List Host.Cell) (x : Nat)
    (h : Ram.lookup m x = some 0) : Ram.lookup (zeroFill fixed n a m) x = some 0 := by
  induction n generalizing a m with
  | zero => exact h
  | succ n ih =>
    refine ih _ _ ?_
    by_cases hx : x = a.toNat
    · rw [hx]; exact lookup_insert_same _ _ _
    · rw [lookup_insert_other _ _ _ _ hx]; exact h

/-- Auto-increment: the addresses that are reached are zero afterwards. -/
theorem lookup_zeroFill_reached (n : Nat) (a : BitVec 4) (m : List Host.Cell) (k : Nat) (h : k < n) :
    Ram.lookup (zeroFill false n a m) (a + BitVec.ofNat 4 k).toNat = some 0 := by
  induction n generalizing a m k with
  | zero => omega
  | succ n ih =>
    cases k with
    | zero =>
      rw [show a + BitVec.ofNat 4 0 = a by simp]
      exact lookup_zeroFill_keeps false n _ _ _ (lookup_insert_same _ _ _)
    | succ k =>
      have hb : a + BitVec.ofNat 4 (k + 1) = a + 1 + BitVec.ofNat 4 k := by
        rw [BitVec.add_assoc, ← BitVec.ofNat_add_ofNat, BitVec.add_comm 1]; rfl
      rw [hb]
      exact ih _ _ _ (by omega)

/-- Auto-increment: every address is zero after sixteen. -/
theorem lookup_zeroFill_auto (m : List Host.Cell) (x : Nat) (h : x < 16) :
    Ram.lookup (zeroFill false 16 0 m) x = some 0 := by
  have := lookup_zeroFill_reached 16 0 m x h
  rwa [show (0 + BitVec.ofNat 4 x : BitVec 4).toNat = x by simp; omega] at this

/-- Fixed addressing: the one address alone changes. -/
theorem lookup_zeroFill_fixed (n : Nat) (a : BitVec 4) (m : List Host.Cell) (x : Nat) :
    Ram.lookup (zeroFill true (n + 1) a m) x = if x = a.toNat then some 0 else Ram.lookup m x := by
  induction n generalizing m with
  | zero =>
    by_cases hx : x = a.toNat
    · simp [zeroFill, hx]
    · simp [zeroFill, hx, lookup_insert_other _ _ _ _ hx]
  | succ n ih =>
    rw [zeroFill, if_pos rfl, ih]
    by_cases hx : x = a.toNat
    · simp [hx]
    · simp [hx, lookup_insert_other _ _ _ _ hx]

/-- A byte after the command, in a frame of the unspecified kind, leaves everything free (20_memory.md R61). -/
theorem receive_unspecified (n : Nat) (p : Peer) (fr : Frame) (hf : p.frame = some fr) (hu : fr.kind = .unspecified)
    (hd : fr.drive = none) :
    let q := (List.replicate (n + 1) (0 : Byte)).foldl (fun q v => q.receive v) p
    q.ram = [] ∧ q.epoch = p.draws + n ∧ q.draws = p.draws + n + 1 ∧
      ∃ bytes, q.frame = some { bytes := bytes, nbits := 0, sh := 0, kind := .unspecified, drive := none } := by
  have one : p.receive 0 = p.scramble.withFrame
      (some { bytes := fr.bytes ++ [0], nbits := 0, sh := 0, kind := .unspecified, drive := none }) := by
    simp [Peer.receive, hf, hu, hd]
  induction n generalizing p fr with
  | zero =>
    simp only [List.replicate_succ, List.replicate_zero, List.foldl_cons, List.foldl_nil, one]
    exact ⟨rfl, rfl, rfl, _, rfl⟩
  | succ n ih =>
    rw [List.replicate_succ, List.foldl_cons, one]
    have h := ih (p.scramble.withFrame
      (some { bytes := fr.bytes ++ [0], nbits := 0, sh := 0, kind := .unspecified, drive := none })) _ rfl rfl rfl
      (by simp [Peer.receive])
    have e : (p.scramble.withFrame
      (some { bytes := fr.bytes ++ [0], nbits := 0, sh := 0, kind := .unspecified, drive := none })).draws = p.draws + 1 := rfl
    simp only [e] at h
    obtain ⟨a, b, c, d⟩ := h
    exact ⟨a, by rw [b]; omega, by rw [c]; omega, d⟩

/-- The block-clear frame in read mode or in test mode: the display RAM is free (20_memory.md R61 d, e). -/
theorem takeFrame_clear_unspecified (p : Peer) (hf : p.frame = none) (h : p.mode.read = true ∨ p.mode.test = true) :
    (p.takeFrame (0xC0 :: List.replicate 16 0)).ram = [] ∧
      (p.takeFrame (0xC0 :: List.replicate 16 0)).epoch = p.atCommand.draws + 15 ∧
      (p.takeFrame (0xC0 :: List.replicate 16 0)).draws = p.atCommand.draws + 16 := by
  have hk : kindAfter 0xC0 p.mode = .unspecified := by
    rw [← addrCmd_zero, kindAfter_addrCmd]; rcases h with h | h <;> simp [h]
  have h1 := receive_openFrame 0xC0 p
  rw [closeFrame_of_none p hf, hk] at h1
  obtain ⟨a, b, c, bytes, e⟩ := receive_unspecified 15 (p.openFrame.receive 0xC0) _ (by rw [h1]; rfl) rfl rfl
  rw [Peer.takeFrame, List.foldl_cons, closeFrame_of_whole _ (by rw [Peer.midByte, e]; rfl)]
  rw [← addrCmd_zero, command_addrCmd] at h1
  exact ⟨a, b.trans (by rw [← addrCmd_zero, h1]; rfl), c.trans (by rw [← addrCmd_zero, h1]; rfl)⟩

/-- The addresses that clearing `n` positions from `p` writes, in order. -/
def clearedAddrs (addr : Byte → Byte) (n : Nat) (p : Byte) : List Nat :=
  match n with
  | 0 => []
  | k + 1 => (ramAddr (addr p)).toNat :: clearedAddrs addr k (p + 1)

/-- Clearing positions on an idle bus: each address is zero afterwards, every other display RAM byte is as before
(43_display_memory.md R157, R159). -/
theorem observeAll_clear (pins : Pins) (addr : Byte → Byte) (n : Nat) (p : Byte) (q : Peer) (hp : pins.idleBus = true)
    (hk : q.kind = .reference) :
    let t := observeAll pins (transcriptEvents (clearFrames addr (n + 1) p)) q
    t = { q.found with
      ram := (clearedAddrs addr (n + 1) p).foldl (fun m a => Ram.insert m a 0) q.found.ram
      mode := { fixed := true, read := false, test := false }
      ptr := ramAddr (addr (p + BitVec.ofNat 8 n)) } := by
  induction n generalizing pins p q with
  | zero =>
    simp only [clearFrames_succ, show clearFrames addr 0 (p + 1) = [] from rfl, List.append_nil,
      observeAll_dataFrames pins _ _ q hp hk, Peer.stored]
    simp [clearedAddrs]
  | succ n ih =>
    have hpins : (pinsAfter pins (transcriptEvents (dataFrames (addr p) 0))).idleBus = true := by
      rw [pinsAfter_dataFrames]
      rw [idleBus_iff] at hp ⊢
      exact ⟨hp.1, hp.2.1, hp.2.2.1, rfl, rfl⟩
    have hsplit : transcriptEvents (clearFrames addr (n + 1 + 1) p) =
        transcriptEvents (dataFrames (addr p) 0) ++ transcriptEvents (clearFrames addr (n + 1) (p + 1)) := by
      rw [clearFrames_succ]; simp [transcriptEvents]
    have hb : p + 1 + BitVec.ofNat 8 n = p + BitVec.ofNat 8 (n + 1) := by
      rw [BitVec.add_assoc, ← BitVec.ofNat_add_ofNat, BitVec.add_comm 1]; rfl
    have h := ih (pinsAfter pins (transcriptEvents (dataFrames (addr p) 0))) (p + 1) (q.stored (addr p) 0) hpins
      ((found_kind q).trans hk)
    rw [found_of_settled (q.stored (addr p) 0) (stored_frame _ _ _) rfl] at h
    simp only [hsplit, observeAll_append, observeAll_dataFrames pins _ _ q hp hk]
    rw [hb] at h
    exact h

end Sys2Proof.Machine
end

