-- ==== Sys2Proof/Laws/PerInstr.lean ====
section
/-! SUPPORT. The family `EncodeLegal` of statements about every instruction as syntax: its encoding, whatever its operands, is
a packet of the table, of the form its row gives (30_encoding.md R72, R73, R80). -/

namespace Sys2Proof.Laws.EncodeLegal

/-- The packet of the instruction decodes, and has the form of its row: a request word whose `zero` field is 0 and whose `op`
is at most 8, or a byte with a command class. -/
def Statement (i : Instr) : Prop :=
  match encode i with
  | .request w => reqZero w = 0 ∧ (reqOp w).toNat ≤ 8 ∧ ∃ j, decodeRequest w = .ok j
  | .wire c => cmdClass c ≠ 0 ∧ ∃ j, decodeWire c = .ok j

theorem init (f : Bool) (a b : Byte) : Statement (.init f a b) := by
  simp [Statement, encode, decodeRequest]

theorem enable (f : Bool) (a b : Byte) : Statement (.enable f a b) := by
  simp [Statement, encode, decodeRequest]

theorem setBrightness (f : Bool) (a b : Byte) : Statement (.setBrightness f a b) := by
  simp [Statement, encode, decodeRequest]

theorem displaySegments (f : Bool) (a b : Byte) : Statement (.displaySegments f a b) := by
  simp [Statement, encode, decodeRequest]

theorem clearSegments (f : Bool) (a b : Byte) : Statement (.clearSegments f a b) := by
  simp [Statement, encode, decodeRequest]

theorem displayDigit (f : Bool) (a b : Byte) : Statement (.displayDigit f a b) := by
  simp [Statement, encode, decodeRequest]

theorem setLed (f : Bool) (a b : Byte) : Statement (.setLed f a b) := by
  simp [Statement, encode, decodeRequest]

theorem clearLeds (f : Bool) (a b : Byte) : Statement (.clearLeds f a b) := by
  simp [Statement, encode, decodeRequest]

theorem scanKeys (f : Bool) (a b : Byte) : Statement (.scanKeys f a b) := by
  simp [Statement, encode, decodeRequest]

theorem dataCmdWriteAuto : Statement .dataCmdWriteAuto := ⟨by decide, _, rfl⟩

theorem dataCmdWriteFixed : Statement .dataCmdWriteFixed := ⟨by decide, _, rfl⟩

theorem dataCmdRead : Statement .dataCmdRead := ⟨by decide, _, rfl⟩

theorem setAddrWrapped : Statement .setAddrWrapped := ⟨by decide, _, rfl⟩

theorem testCmd (fixed read : Bool) : Statement (.testCmd fixed read) := by
  cases fixed <;> cases read <;> exact ⟨by decide, _, rfl⟩

theorem displayCtrl (on : Bool) (level : Nat) : Statement (.displayCtrl on level) := by
  have h : ∀ (on : Bool) (l : BitVec 3), cmdClass (0b1000#4 ++ BitVec.ofBool on ++ l) ≠ 0 ∧
      (decodeWire (0b1000#4 ++ BitVec.ofBool on ++ l)).toOption.isSome = true := by decide
  obtain ⟨h1, h2⟩ := h on (BitVec.ofNat 3 level)
  refine ⟨h1, ?_⟩
  revert h2
  generalize decodeWire (0b1000#4 ++ BitVec.ofBool on ++ BitVec.ofNat 3 level) = r
  cases r <;> simp [Except.toOption]

theorem setAddr (addr : Nat) : Statement (.setAddr addr) := by
  have h : ∀ a : BitVec 4, cmdClass (0b1100#4 ++ a) ≠ 0 ∧
      (decodeWire (0b1100#4 ++ a)).toOption.isSome = true := by decide
  obtain ⟨h1, h2⟩ := h (BitVec.ofNat 4 addr)
  refine ⟨h1, ?_⟩
  revert h2
  generalize decodeWire (0b1100#4 ++ BitVec.ofNat 4 addr) = r
  cases r <;> simp [Except.toOption]

end Sys2Proof.Laws.EncodeLegal
end

