-- ==== Sys2Proof/Laws/Step.lean ====
section
/-! SUPPORT. Everything one step can do, said once; and the sequencer's trace as it is emitted event by event. -/

namespace Sys2Proof.Machine

/-! ## The cases of a step -/

theorem step_rst (s : State) (h : s.host.rst = true) : step s = .next s.resetAdapter := by simp [step, h]

theorem step_running (s : State) (op : BitVec 4) (k : Nat) (h : s.host.rst = false) (hs : s.seq = .running op k) :
    step s = .next (s.advance op k) := by simp [step, h, hs]

theorem step_nothing (s : State) (h : s.host.rst = false) (hs : s.seq = .idle) (hf : s.fetch = none) :
    step s = .next s.endCycle := by simp [step, h, hs, hf]

theorem step_undecoded (s : State) (p : Packet) (e : DecodeError) (h : s.host.rst = false) (hs : s.seq = .idle)
    (hf : s.fetch = some p) (hd : decode p = .error e) : step s = .next ((s.consume p).takeUndecoded p) := by
  simp [step, h, hs, hf, hd]

theorem step_begins (s : State) (p : Packet) (i : Instr) (w : ReqWord) (h : s.host.rst = false) (hs : s.seq = .idle)
    (hf : s.fetch = some p) (hd : decode p = .ok i) (hb : s.startsPerEvent p = some w) :
    step s = .next ((s.consume p).acceptWord w) := by
  simp [step, h, hs, hf, hd, hb]

/-- What a step can do: reset, one event of the operation in progress, nothing, a packet that is no instruction, the start of
an operation that steps event by event, or a whole instruction. -/
theorem step_cases (s t : State) (h : step s = .next t) :
    (s.host.rst = true ∧ t = s.resetAdapter) ∨
      (s.host.rst = false ∧
        ((∃ op k, s.seq = .running op k ∧ t = s.advance op k) ∨
          (s.seq = .idle ∧
            ((s.fetch = none ∧ t = s.endCycle) ∨
              (∃ p, s.fetch = some p ∧
                ((∃ e, decode p = .error e ∧ t = (s.consume p).takeUndecoded p) ∨
                  (∃ i, decode p = .ok i ∧
                    ((∃ w, s.startsPerEvent p = some w ∧ t = (s.consume p).acceptWord w) ∨
                      (s.startsPerEvent p = none ∧ exec i (s.consume p) = .next t))))))))) := by
  unfold step at h
  split at h
  · rename_i hr
    exact .inl ⟨hr, by simpa using h.symm⟩
  · rename_i hr
    refine .inr ⟨by simpa using hr, ?_⟩
    split at h
    · rename_i op k hs
      exact .inl ⟨op, k, hs, by simpa using h.symm⟩
    · rename_i hs
      refine .inr ⟨hs, ?_⟩
      split at h
      · rename_i hf
        exact .inl ⟨hf, by simpa using h.symm⟩
      · rename_i p hf
        refine .inr ⟨p, hf, ?_⟩
        split at h
        · rename_i e hd
          exact .inl ⟨e, hd, by simpa using h.symm⟩
        · rename_i i hd
          refine .inr ⟨i, hd, ?_⟩
          split at h
          · rename_i w hw
            exact .inl ⟨w, hw, by simpa using h.symm⟩
          · rename_i hw
            exact .inr ⟨hw, h⟩

/-! ## Fields after a beat -/

theorem writes_frame (ws : List RegWrite) (s : State) :
    (ws.foldl State.write s).operands = s.operands ∧ (ws.foldl State.write s).digitRom = s.digitRom ∧
      (ws.foldl State.write s).host = s.host ∧ (ws.foldl State.write s).rsp = s.rsp ∧
      (ws.foldl State.write s).seq = s.seq ∧ (ws.foldl State.write s).peer = s.peer ∧
      (ws.foldl State.write s).pins = s.pins ∧ (ws.foldl State.write s).trace = s.trace := by
  induction ws generalizing s with
  | nil => simp
  | cons w rest ih => simpa using ih (s.write w)

theorem act_frame (a : Act) (s : State) :
    (s.act a).operands = s.operands ∧ (s.act a).digitRom = s.digitRom ∧ (s.act a).host = s.host ∧
      (s.act a).rsp = s.rsp ∧ (s.act a).seq = s.seq ∧ (s.act a).peer.kind = s.peer.kind ∧
      (s.act a).peer.keys = s.peer.keys ∧ (s.act a).peer.keyFeed = s.peer.keyFeed ∧ (s.act a).cfg = s.cfg := by
  cases a <;> simp [State.act]

theorem act_ram_wf (a : Act) (s : State) (h : Memory.wf s.peer.ram = true) :
    Memory.wf (s.act a).peer.ram = true := by
  cases a with
  | pin e => simpa [State.act] using observe_ram_wf _ _ _ h
  | shiftOut => simpa [State.act] using observe_ram_wf _ _ _ h
  | sampleIn => simpa [State.act, senseDio_ram] using h

/-- What no beat changes (10_state.md R13, R15, R16, R20). -/
theorem beat_frame (b : Beat) (s : State) :
    (s.beat b).operands = s.operands ∧ (s.beat b).digitRom = s.digitRom ∧ (s.beat b).host = s.host ∧
      (s.beat b).rsp = s.rsp ∧ (s.beat b).seq = s.seq ∧ (s.beat b).peer.kind = s.peer.kind ∧
      (s.beat b).peer.keys = s.peer.keys ∧ (s.beat b).peer.keyFeed = s.peer.keyFeed := by
  have h1 := writes_frame b.pre s
  have h2 := act_frame b.act (b.pre.foldl State.write s)
  have h3 := writes_frame b.post ((b.pre.foldl State.write s).act b.act)
  simp only [State.beat]
  refine ⟨?_, ?_, ?_, ?_, ?_, ?_, ?_, ?_⟩ <;> simp_all

theorem beat_ram_wf (b : Beat) (s : State) (h : Memory.wf s.peer.ram = true) : Memory.wf (s.beat b).peer.ram = true := by
  have h1 := (writes_frame b.pre s).2.2.2.2.2.1
  have h3 := (writes_frame b.post ((b.pre.foldl State.write s).act b.act)).2.2.2.2.2.1
  rw [State.beat, h3]
  exact act_ram_wf _ _ (by rw [h1]; exact h)

/-- What no list of beats changes. -/
theorem runBeats_frame (bs : List Beat) (s : State) :
    (s.runBeats bs).operands = s.operands ∧ (s.runBeats bs).digitRom = s.digitRom ∧ (s.runBeats bs).host = s.host ∧
      (s.runBeats bs).rsp = s.rsp ∧ (s.runBeats bs).seq = s.seq ∧ (s.runBeats bs).peer.kind = s.peer.kind ∧
      (s.runBeats bs).peer.keys = s.peer.keys ∧ (s.runBeats bs).peer.keyFeed = s.peer.keyFeed := by
  induction bs generalizing s with
  | nil => simp
  | cons b rest ih =>
    have h := beat_frame b s
    have h' := ih (s.beat b)
    rw [runBeats_cons]
    simp_all

@[simp] theorem beat_timing (b : Beat) (s : State) : (s.beat b).timing = s.timing := by
  have hw : ∀ (ws : List RegWrite) (u : State), (ws.foldl State.write u).timing = u.timing := by
    intro ws
    induction ws with
    | nil => intro u; rfl
    | cons w rest ih => intro u; rw [List.foldl_cons, ih, write_timing]
  have ha : ∀ u : State, (u.act b.act).timing = u.timing := by intro u; cases b.act <;> simp [State.act]
  rw [State.beat, hw, ha, hw]

@[simp] theorem runBeats_timing (bs : List Beat) (s : State) : (s.runBeats bs).timing = s.timing := by
  induction bs generalizing s with
  | nil => rfl
  | cons b rest ih => rw [runBeats_cons, ih, beat_timing]

theorem runBeats_ram_wf (bs : List Beat) (s : State) (h : Memory.wf s.peer.ram = true) :
    Memory.wf (s.runBeats bs).peer.ram = true := by
  induction bs generalizing s with
  | nil => exact h
  | cons b rest ih => exact ih _ (beat_ram_wf b s h)

/-! ## The sequencer position plays no part in a beat -/

/-- The same state at another position of the sequencer. -/
def State.atSeq (q : Seq) (s : State) : State := { s with seq := q }

@[simp] theorem atSeq_seq (q : Seq) (s : State) : (s.atSeq q).seq = q := rfl
@[simp] theorem atSeq_atSeq (q r : Seq) (s : State) : (s.atSeq q).atSeq r = s.atSeq r := rfl
@[simp] theorem atSeq_host (q : Seq) (s : State) : (s.atSeq q).host = s.host := rfl
@[simp] theorem atSeq_program (q : Seq) (op : BitVec 4) (s : State) : (s.atSeq q).program op = s.program op := rfl

theorem write_atSeq (w : RegWrite) (q : Seq) (s : State) : (s.atSeq q).write w = (s.write w).atSeq q := by cases w <;> rfl

theorem writes_atSeq (ws : List RegWrite) (q : Seq) (s : State) :
    ws.foldl State.write (s.atSeq q) = (ws.foldl State.write s).atSeq q := by
  induction ws generalizing s with
  | nil => rfl
  | cons w rest ih => rw [List.foldl_cons, write_atSeq, ih]; rfl

theorem act_atSeq (a : Act) (q : Seq) (s : State) : (s.atSeq q).act a = (s.act a).atSeq q := by
  cases a with
  | pin e => cases e <;> rfl
  | shiftOut => rfl
  | sampleIn => rfl

theorem beat_atSeq (b : Beat) (q : Seq) (s : State) : (s.atSeq q).beat b = (s.beat b).atSeq q := by
  simp only [State.beat, writes_atSeq, act_atSeq]

/-! ## The trace of the operation in progress does not change while it is emitted -/

/-- A register write that is not `CFG`'s. -/
def RegWrite.quiet (w : RegWrite) : Bool :=
  match w with
  | .latchCfg _ _ => false
  | _ => true

/-- A beat that does not write `CFG`. -/
def Beat.quiet (b : Beat) : Bool := b.pre.all RegWrite.quiet && b.post.all RegWrite.quiet

theorem writes_cfg_quiet (ws : List RegWrite) (s : State) (h : ws.all RegWrite.quiet = true) :
    (ws.foldl State.write s).cfg = s.cfg := by
  induction ws generalizing s with
  | nil => rfl
  | cons w rest ih =>
    simp only [List.all_cons, Bool.and_eq_true] at h
    rw [List.foldl_cons, ih _ h.2]
    cases w <;> first | rfl | simp [RegWrite.quiet] at h

theorem beat_cfg_quiet (b : Beat) (s : State) (h : b.quiet = true) : (s.beat b).cfg = s.cfg := by
  simp only [Beat.quiet, Bool.and_eq_true] at h
  rw [State.beat, writes_cfg_quiet _ _ h.2, (act_frame _ _).2.2.2.2.2.2.2.2, writes_cfg_quiet _ _ h.1]

theorem sendCommand_quiet (v : Byte) : (sendCommand v).all Beat.quiet = true := rfl

/-- A beat of `SendConfig` leaves `CFG` or writes the new configuration (42_command_encoder.md R138). -/
theorem sendConfig_beat_cfg (en : Bool) (br : Byte) (b : Beat) (s : State) (h : b ∈ sendConfig en br) :
    (s.beat b).cfg = s.cfg ∨ (s.beat b).cfg = { en := en, br := clamp br } := by
  have hrest : ∀ c ∈ (sendCommand (dataCmd false false false) ++ sendCommand (dispCmd en (clamp br))),
      c.quiet = true := by
    have e : (sendCommand (dataCmd false false false) ++ sendCommand (dispCmd en (clamp br))).all Beat.quiet = true := by
      rw [List.all_append, sendCommand_quiet, sendCommand_quiet]; rfl
    exact List.all_eq_true.1 e
  have hsplit : sendConfig en br =
      { pre := [.latchCfg en (clamp br)], act := .pin (.stb false), post := [] } ::
        (sendCommand (dataCmd false false false) ++ sendCommand (dispCmd en (clamp br))).tail := rfl
  rw [hsplit, List.mem_cons] at h
  rcases h with h | h
  · subst h; exact .inr rfl
  · exact .inl (beat_cfg_quiet _ _ (hrest _ (List.mem_of_mem_tail h)))

/-- While an operation runs, its trace stays what it was: it is a function of the operand latches, which nothing writes, and
of the part of `CFG` that the operation does not write (10_state.md R18). -/
theorem program_beat (op : BitVec 4) (b : Beat) (s : State) (h : b ∈ s.program op) :
    (s.beat b).program op = s.program op := by
  obtain ⟨ho, hr, _⟩ := beat_frame b s
  unfold State.program at h ⊢
  rw [ho, hr]
  split at h <;> try rfl
  · rcases sendConfig_beat_cfg _ _ b s h with hc | hc
    · rw [hc]
    · rw [hc, clamp_setWidth]; rfl
  · rcases sendConfig_beat_cfg _ _ b s h with hc | hc
    · rw [hc]
    · rw [hc]; rfl

end Sys2Proof.Machine
end

