-- ==== Sys2Proof/Tests/Slice0.lean ====
section
/-! SUPPORT. Tests: the smoke test of WellFormed, one word of each instruction written out from its row of 30_encoding.md,
small one-step tests whose expected results are vectors of 95_test_vectors.md (named in each docstring), and one witness for
each statement that has hypotheses. -/

namespace Sys2Proof.Machine

/-! ## WellFormed: an ill-formed term for each check -/

/-- A brightness of 8 does not fit three bits (30_encoding.md R82). -/
theorem test_displayCtrl_level_8_refused : (Instr.displayCtrl true 8).wellFormed = false := by decide

theorem test_displayCtrl_level_7_accepted : (Instr.displayCtrl true 7).wellFormed = true := by decide

/-- An address of 16 does not fit four bits (30_encoding.md R83). -/
theorem test_setAddr_16_refused : (Instr.setAddr 16).wellFormed = false := by decide

theorem test_setAddr_15_accepted : (Instr.setAddr 15).wellFormed = true := by decide

/-! ## Decoding: words written out from the encodings of 30_encoding.md R72, R81 to R85 (op, zero, f, a, b) -/

theorem test_decode_init : decode (.request 0b0000_000_1_00000011_00000000) = .ok (.init true 3 0) := by decide
theorem test_decode_enable : decode (.request 0b0001_000_1_00000000_00000000) = .ok (.enable true 0 0) := by decide
theorem test_decode_setBrightness :
    decode (.request 0b0010_000_0_11001000_00000000) = .ok (.setBrightness false 200 0) := by decide
theorem test_decode_displaySegments :
    decode (.request 0b0011_000_0_00000011_01011011) = .ok (.displaySegments false 3 0x5B) := by decide
theorem test_decode_clearSegments :
    decode (.request 0b0100_000_0_00000000_00000000) = .ok (.clearSegments false 0 0) := by decide
theorem test_decode_displayDigit :
    decode (.request 0b0101_000_1_00000011_00000111) = .ok (.displayDigit true 3 7) := by decide
theorem test_decode_setLed : decode (.request 0b0110_000_0_00000101_00000001) = .ok (.setLed false 5 1) := by decide
theorem test_decode_clearLeds :
    decode (.request 0b0111_000_1_10101011_11001101) = .ok (.clearLeds true 0xAB 0xCD) := by decide
theorem test_decode_scanKeys : decode (.request 0b1000_000_0_00000000_00000000) = .ok (.scanKeys false 0 0) := by decide
theorem test_decode_dataCmdWriteAuto : decode (.wire 0b0100_0000) = .ok .dataCmdWriteAuto := by decide
theorem test_decode_dataCmdWriteFixed : decode (.wire 0b0100_0100) = .ok .dataCmdWriteFixed := by decide
theorem test_decode_dataCmdRead : decode (.wire 0b0100_0010) = .ok .dataCmdRead := by decide
theorem test_decode_testCmd : decode (.wire 0b0101_0100) = .ok (.testCmd true false) := by decide
theorem test_decode_displayCtrl : decode (.wire 0b1000_1011) = .ok (.displayCtrl true 3) := by decide
theorem test_decode_setAddr : decode (.wire 0b1100_1001) = .ok (.setAddr 9) := by decide
theorem test_decode_setAddrWrapped : decode (.wire 0b1111_1111) = .ok .setAddrWrapped := by decide

/-- The illegal words of V39. -/
theorem test_decode_illegal :
    decode (.request 0x8FFFFF) = .error (.nonZeroField 7) ∧ decode (.request 0x900000) = .error (.reservedOp 9) ∧
      decode (.request 0xF00000) = .error (.reservedOp 15) ∧ decode (.request 0x020000) = .error (.nonZeroField 1) ∧
      decode (.request 0x680501) = .error (.nonZeroField 4) ∧ decode (.request 0xFFFFFF) = .error (.nonZeroField 7) := by
  decide

/-- Bytes that no row of the table has (30_encoding.md R81 to R83). -/
theorem test_decode_no_row :
    decode (.wire 0x00) = .error (.noCommandClass 0) ∧ decode (.wire 0x46) = .error (.unassignedCommand 0x46) ∧
      decode (.wire 0x90) = .error (.unassignedCommand 0x90) ∧ decode (.wire 0xD0) = .error (.unassignedCommand 0xD0) := by
  decide

/-! ## A small state -/

/-- Sixteen display RAM bytes, every address holding `v`. -/
def filled (v : Byte) : List Host.Cell := (List.range 16).map fun a => (a, v)

/-- The start of most vectors: the bus idle and driven, the display on at brightness 3, every RAM byte `v`, the given mode. -/
def started (v : Byte) (m : Mode) : State :=
  { State.reset with
    cfg := { en := true, br := 3 }
    pins := { clk := ⟨true, true⟩, stb := ⟨true, true⟩, dio := ⟨true, true⟩ }
    peer := { Peer.powerOn with ram := filled v, mode := m, disp := { on := true, br := 3 } } }

/-- Write mode, auto-increment. -/
def auto : Mode := { fixed := false, read := false, test := false }

/-- Write mode, fixed address. -/
def fixed : Mode := { fixed := true, read := false, test := false }

/-- The state of `started` with keys held. -/
def holding (keys : Byte) : State :=
  { started 0 auto with peer := { (started 0 auto).peer with keys := keys } }

/-- A view of the state that an outcome leaves. -/
def after? {α : Type} (o : Host.Outcome State Fault Refusal) (g : State → α) : Option α :=
  match o with
  | .next t => some (g t)
  | .fault _ => none
  | .refused _ => none

/-! ## One step -/

/-- V9, V36: INIT 1, 3. -/
theorem test_init_transcript :
    after? (exec (.init true 3 0) State.reset) (fun t => (transcript t.pinTrace, t.cfg.word, t.pins.dio)) =
      some (some [[.w 0xC0, .w 0, .w 0, .w 0, .w 0, .w 0, .w 0, .w 0, .w 0, .w 0, .w 0, .w 0, .w 0, .w 0, .w 0, .w 0, .w 0],
        [.w 0x40], [.w 0x8B]], 0b1011, ⟨true, true⟩) := by decide +kernel

/-- V45: a second INIT finds the peer in fixed mode, writes address 0 alone and ends in auto-increment mode. -/
theorem test_init_in_fixed_mode :
    after? (exec (.init true 3 0) (started 0xFF fixed)) (fun t => (t.peer.ram, t.peer.mode)) =
      some ((0, 0) :: (filled 0xFF).tail, auto) := by decide +kernel

/-- V42: ENABLE 1 before INIT: the events go out on the latches, no line moves, the peer keeps its state. -/
theorem test_enable_before_init :
    after? (exec (.enable true 0 0) State.reset)
        (fun t => (transcript t.pinTrace, t.cfg.word, t.pins, t.peer)) =
      some (some [[.w 0x40], [.w 0x88]], 0b1000, { clk := ⟨true, false⟩, stb := ⟨true, false⟩, dio := ⟨true, false⟩ },
        Peer.powerOn) := by
  decide +kernel

/-- V18: ENABLE 0 keeps the brightness. -/
theorem test_enable_keeps_brightness :
    after? (exec (.enable false 0 0) { started 0 auto with cfg := { en := true, br := 7 } })
        (fun t => (transcript t.pinTrace, t.cfg.word, t.peer.disp)) =
      some (some [[.w 0x40], [.w 0x87]], 0b0111, { on := false, br := 7 }) := by decide +kernel

/-- V4: SET_BRIGHTNESS 8 saturates to 7. -/
theorem test_setBrightness_saturates :
    after? (exec (.setBrightness false 8 0) (started 0 auto)) (fun t => (transcript t.pinTrace, t.cfg.word, t.peer.disp)) =
      some (some [[.w 0x40], [.w 0x8F]], 0b1111, { on := true, br := 7 }) := by decide +kernel

/-- V19: SET_BRIGHTNESS 2 with the display off leaves it off. -/
theorem test_setBrightness_keeps_off :
    after? (exec (.setBrightness false 2 0) { started 0 auto with cfg := { en := false, br := 7 } })
        (fun t => (transcript t.pinTrace, t.cfg.word)) =
      some (some [[.w 0x40], [.w 0x82]], 0b0010) := by decide +kernel

/-- V22: DISPLAY_SEGMENTS 3, 0xA5. -/
theorem test_displaySegments_position_3 :
    after? (exec (.displaySegments false 3 0xA5) (started 0 auto))
        (fun t => (transcript t.pinTrace, t.peer.readRam 6, t.peer.mode)) =
      some (some [[.w 0x44], [.w 0xC6, .w 0xA5]], 0xA5, fixed) := by decide +kernel

/-- V22: position 8 is out of range: no pin event, result 0, not illegal, the peer's mode unchanged. -/
theorem test_displaySegments_position_8 :
    after? (exec (.displaySegments false 8 0xA5) (started 0 auto)) (fun t => (t.pinTrace, t.rsp, t.peer)) =
      some ([], { data := 0, illegal := false, valid := true }, (started 0 auto).peer) := by decide +kernel

/-- V24: DISPLAY_DIGIT 3, 7, 1. -/
theorem test_displayDigit_dot :
    after? (exec (.displayDigit true 3 7) (started 0 auto)) (fun t => (transcript t.pinTrace, t.peer.readRam 6)) =
      some (some [[.w 0x44], [.w 0xC6, .w 0x87]], 0x87) := by decide +kernel

/-- V24: digit 10 is blank. -/
theorem test_displayDigit_10_blank :
    after? (exec (.displayDigit false 3 10) (started 0xFF auto)) (fun t => (transcript t.pinTrace, t.peer.readRam 6)) =
      some (some [[.w 0x44], [.w 0xC6, .w 0x00]], 0) := by decide +kernel

/-- V27: LED 0 goes to the wrapped address byte 0xFF, address 15 of the reference peer. -/
theorem test_setLed_position_0 :
    after? (exec (.setLed false 0 1) (started 0 auto))
        (fun t => (transcript t.pinTrace, t.peer.ptr, t.peer.readRam 15, t.peer.readRam 0, t.peer.readRam 1)) =
      some (some [[.w 0x44], [.w 0xFF, .w 0x01]], 15, 1, 0, 0) := by decide +kernel

/-- V29: every value but 0 sends 0x01. -/
theorem test_setLed_value_0x80 :
    after? (exec (.setLed false 3 0x80) (started 0 auto)) (fun t => (transcript t.pinTrace, t.peer.readRam 5)) =
      some (some [[.w 0x44], [.w 0xC5, .w 0x01]], 1) := by decide +kernel

/-- V8: CLEAR_SEGMENTS clears the even addresses. -/
theorem test_clearSegments :
    after? (exec (.clearSegments false 0 0) (started 0x5A auto))
        (fun t => (transcript t.pinTrace, (List.range 16).map t.peer.readRam)) =
      some (some [[.w 0x44], [.w 0xC0, .w 0], [.w 0x44], [.w 0xC2, .w 0], [.w 0x44], [.w 0xC4, .w 0], [.w 0x44],
          [.w 0xC6, .w 0], [.w 0x44], [.w 0xC8, .w 0], [.w 0x44], [.w 0xCA, .w 0], [.w 0x44], [.w 0xCC, .w 0], [.w 0x44],
          [.w 0xCE, .w 0]],
        [0, 0x5A, 0, 0x5A, 0, 0x5A, 0, 0x5A, 0, 0x5A, 0, 0x5A, 0, 0x5A, 0, 0x5A]) := by decide +kernel

/-- V10, V28: CLEAR_LEDS clears the odd addresses, 15 first; the pointer ends at 13, the mode is fixed. -/
theorem test_clearLeds :
    after? (exec (.clearLeds false 0 0) (started 1 auto))
        (fun t => (transcript t.pinTrace, (List.range 16).map t.peer.readRam, t.peer.ptr, t.peer.mode)) =
      some (some [[.w 0x44], [.w 0xFF, .w 0], [.w 0x44], [.w 0xC1, .w 0], [.w 0x44], [.w 0xC3, .w 0], [.w 0x44],
          [.w 0xC5, .w 0], [.w 0x44], [.w 0xC7, .w 0], [.w 0x44], [.w 0xC9, .w 0], [.w 0x44], [.w 0xCB, .w 0], [.w 0x44],
          [.w 0xCD, .w 0]],
        [1, 0, 1, 0, 1, 0, 1, 0, 1, 0, 1, 0, 1, 0, 1, 0], 13, fixed) := by decide +kernel

/-- V32: keys 1 and 6; V35: the lines and the peer after it. -/
theorem test_scanKeys_two_keys :
    after? (exec (.scanKeys false 0 0) (holding 0x42))
        (fun t => (transcript t.pinTrace, t.rsp.data, t.pins.dio, t.peer.mode.read, t.pinTrace.length)) =
      some (some [[.w 0x42, .r 0x00, .r 0x01, .r 0x10, .r 0x00]], 0x42, ⟨false, true⟩, true, 218) := by decide +kernel

/-- V43: SCAN_KEYS before INIT reads all ones through the pull-up; the data line is then the only one driven. -/
theorem test_scanKeys_before_init :
    after? (exec (.scanKeys false 0 0) State.reset) (fun t => (t.rsp.data, t.pins)) =
      some (0xFF, { clk := ⟨true, false⟩, stb := ⟨true, false⟩, dio := ⟨false, true⟩ }) := by decide +kernel

/-- The mode the command bytes of 30_encoding.md R81 and R85 set (20_memory.md R53), from read mode. -/
theorem test_dataCmdWriteAuto :
    after? (exec .dataCmdWriteAuto (started 0 { auto with read := true })) (fun t => t.peer.mode) = some auto := by decide
theorem test_dataCmdWriteFixed :
    after? (exec .dataCmdWriteFixed (started 0 { auto with read := true })) (fun t => t.peer.mode) = some fixed := by decide
theorem test_dataCmdRead :
    after? (exec .dataCmdRead (started 0 fixed)) (fun t => t.peer.mode) = some { auto with read := true } := by decide
theorem test_testCmd :
    after? (exec (.testCmd true false) (started 0 auto)) (fun t => t.peer.mode) = some { fixed with test := true } := by decide

/-- The display control of byte 0x85 (30_encoding.md R82, 20_memory.md R54). -/
theorem test_displayCtrl :
    after? (exec (.displayCtrl false 5) (started 0 auto)) (fun t => t.peer.disp) = some { on := false, br := 5 } := by decide

/-- The pointer of bytes 0xC9 and 0xFF (30_encoding.md R83, 20_memory.md R55). -/
theorem test_setAddr : after? (exec (.setAddr 9) (started 0 auto)) (fun t => t.peer.ptr) = some 9 := by decide
theorem test_setAddrWrapped : after? (exec .setAddrWrapped (started 0 auto)) (fun t => t.peer.ptr) = some 15 := by decide

/-- V40: an illegal request is accepted, emits nothing, and completes with `rsp_illegal`. -/
theorem test_illegal_request :
    after? (step { started 0 auto with host := { (started 0 auto).host with requests := [0x900000] } })
        (fun t => (t.cfg.word, t.pinTrace, t.rsp, t.pins, t.peer)) =
      some (0b1011, [], { data := 0, illegal := true, valid := true }, (started 0 auto).pins, (started 0 auto).peer) := by
  decide +kernel

/-- A request that is presented is the one accepted, also while a byte from other logic waits (10_state.md R21). -/
theorem test_request_before_waiting_byte :
    after? (step { started 0 auto with
        host := { rst := false, requests := [0x900000], busIn := some 0xC9, perEvent := false } })
        (fun t => (t.rsp.illegal, t.host.requests, t.host.busIn)) = some (true, [], some 0xC9) := by decide +kernel

/-- The settle timer is loaded with the parameter, zero too (60_exceptions.md R211). -/
theorem test_timer_is_parameter :
    (({ State.reset with timing := { tSettle := 0, tStbGap := 2 } } : State).runBeats (sendCommand 0x40)).work.tmr = 0 ∧
      (({ State.reset with timing := { tSettle := 9, tStbGap := 0 } } : State).runBeats (sendCommand 0x40)).work.tmr = 9 := by
  decide +kernel

/-! ## Micro-operations and pure functions -/

/-- V11: the trace of SendCommand(0x40). -/
theorem test_sendCommand_trace :
    (State.reset.runBeats (sendCommand 0x40)).pinTrace =
      .stb false :: ([false, false, false, false, false, false, true, false].flatMap fun b =>
        [.clk false, .wait, .dio b, .clk true, .wait]) ++ [.stb true] := by decide +kernel

/-- V13: ReadByte on an open line with pull-up. -/
theorem test_readByte_open_line :
    let t := (State.reset.runBeats readByte)
    (t.pinTrace, t.work.acc, t.pins.dio, t.pins.clk.out) =
      ([.dirIn, .dio true] ++ ((List.replicate 8 true).flatMap fun b =>
        [.clk false, .wait, .sample b, .clk true, .wait]) ++ [.dirOut, .dio false], 0xFF, ⟨false, true⟩, true) := by
  decide +kernel

/-- V2, V3, V14: the order of the bits of a byte read. -/
theorem test_shiftIn_order :
    byteOfLevels [false, true, false, false, true, true, false, true] = 0xB2 ∧
      byteOfLevels [true, false, false, false, false, false, false, false] = 0x01 ∧
      byteOfLevels [false, false, false, false, false, false, false, true] = 0x80 ∧
      byteOfLevels [true, false, false, false, true, false, false, false] = 0x11 := by decide

/-- V33, V34: truncation and aliasing of the key decoder. -/
theorem test_keyDecode :
    keyDecode 0 0 0 0xF0 = 0x80 ∧ keyDecode 0 0x80 0xC0 0xE0 = 0 ∧ keyDecode 0 0 0 0x1F = 0xF8 ∧
      keyDecode 0xFF 0 0 0 = 0xFF ∧ keyDecode 2 0 0 0 = 2 ∧ keyDecode 0 0 0 2 = 0x10 := by decide

/-- Program P1: what the reference display shows, and the segments of "1" and of "2." (20_memory.md R63, 30_encoding.md
R86). -/
theorem test_shown :
    let p := { (started 0 auto).peer with ram := [(0, 0x06), (1, 0x01), (2, 0xDB)] }
    (p.digitShown 0, p.digitShown 1, p.ledLit 1, litSegments Config.segAssign 0x06, litSegments Config.segAssign 0xDB) =
      (0x06, 0xDB, true, [.b, .c], [.a, .b, .d, .e, .g, .dot]) := by decide

/-- A key that changes between two reads of one scan: byte 0 sees key 0, byte 1 no key (20_memory.md R60). -/
theorem test_scanKeys_keys_change :
    after? (exec (.scanKeys false 0 0)
        { started 0 auto with peer := { (started 0 auto).peer with keyFeed := [0x01, 0x00] } })
        (fun t => (transcript t.pinTrace, t.peer.keyReads)) =
      some (some [[.w 0x42, .r 0x01, .r 0x00, .r 0x00, .r 0x00]], 4) := by decide +kernel

/-! ## Witnesses: states and operands that meet the hypotheses of the statements, clause by clause -/

/-- A state with these requests on the host port. -/
def presenting (ws : List ReqWord) (s : State) : State := { s with host := { s.host with requests := ws } }

/-- A state with this byte from other logic. -/
def otherByte (c : Byte) (s : State) : State := { s with host := { s.host with busIn := some c } }

/-- A state with `rst` = 1. -/
def inReset (s : State) : State := { s with host := { s.host with rst := true } }

/-- A state that steps event by event. -/
def stepping (s : State) : State := { s with host := { s.host with perEvent := true } }

/-- A state with another kind of device. -/
def withKind (k : PeerKind) (s : State) : State := { s with peer := { s.peer with kind := k } }

/-- A state whose peer's frame was cut after three bits of a byte (20_memory.md R61 g). -/
def cutInMidByte : State :=
  { started 0x5A auto with
    peer :=
      { (started 0x5A auto).peer with
        frame := some { bytes := [], nbits := 3, sh := 0, kind := .command, drive := none } } }

theorem witness_PowerOnPeer : (inReset State.reset).host.rst = true := by decide

/-- Idle, and with an operation in progress. -/
theorem witness_ResetCycle :
    (inReset State.reset).host.rst = true ∧ (inReset { State.reset with seq := .running 3 40 }).host.rst = true := by decide

theorem witness_IdleCycle :
    let s := started 0 auto
    s.host.rst = false ∧ s.seq = .idle ∧ s.host.busIn = none ∧ s.host.requests = [] := by decide

theorem witness_BusyIgnoresRequests :
    let s := presenting [0x400000] { started 0 auto with seq := .running 6 10 }
    s.host.rst = false ∧ s.seq = .running 6 10 := by decide

/-- A request, with a byte from other logic waiting too, and such a byte alone. -/
theorem witness_StepRunsDecodedPacket :
    let s := otherByte 0xC9 (presenting [0x600501] (started 0 auto))
    let t := otherByte 0xC9 (stepping (started 0 auto))
    (s.reqValid = true ∧ s.host.rst = false ∧ s.seq = .idle ∧ s.fetch = some (.request 0x600501) ∧
        decode (.request 0x600501) = .ok (.setLed false 5 1) ∧ s.host.perEvent = false) ∧
      t.reqValid = false ∧ t.host.rst = false ∧ t.seq = .idle ∧ t.fetch = some (.wire 0xC9) ∧ decode (.wire 0xC9) = .ok (.setAddr 9) ∧
        (∀ w, Packet.wire 0xC9 ≠ .request w) := by
  refine ⟨by decide, by decide, by decide, by decide, by decide, by decide, ?_⟩
  intro w h
  cases h

theorem witness_EventByEventRefinesAtomic :
    let s := stepping (presenting [0x110000, 0x800000] (started 0 auto))
    s.host.rst = false ∧ s.seq = .idle ∧ s.host.requests = 0x110000 :: [0x800000] ∧
      s.host.perEvent = true ∧ decode (.request 0x110000) = .ok (.enable true 0 0) ∧ 0 ≤ 84 ∧
      (((s.consume (.request 0x110000)).acceptWord 0x110000).program (reqOp 0x110000)).length = 84 := by decide +kernel

/-- A reserved operation code, and a non-zero `zero` field with an operation code that is not reserved. -/
theorem witness_IllegalRequestCompletes :
    (let s := presenting [0x900000] (started 0 auto);
      s.host.rst = false ∧ s.seq = .idle ∧ s.host.requests = 0x900000 :: [] ∧ 8 < (reqOp 0x900000).toNat) ∧
      let s := presenting [0x820000] (stepping (started 0 auto))
      s.host.rst = false ∧ s.seq = .idle ∧ s.host.requests = 0x820000 :: [] ∧ reqZero 0x820000 ≠ 0 := by
  decide

/-- Operation codes 0 and 8, then 9, then a non-zero `zero` field. -/
theorem witness_RequestDecodingIsTotal :
    (reqZero 0x000000 = 0 ∧ (reqOp 0x000000).toNat ≤ 8) ∧ (reqZero 0x81FFFF = 0 ∧ (reqOp 0x81FFFF).toNat ≤ 8) ∧
      ¬(reqZero 0x900000 = 0 ∧ (reqOp 0x900000).toNat ≤ 8) ∧ ¬(reqZero 0x020000 = 0 ∧ (reqOp 0x020000).toNat ≤ 8) ∧
      (0 : BitVec 4).toNat ≤ 8 ∧ (8 : BitVec 4).toNat ≤ 8 := by decide

theorem witness_DecodeOfEncode :
    (Instr.displayCtrl true 7).wellFormed = true ∧ (Instr.setAddr 15).wellFormed = true ∧
      (Instr.scanKeys true 255 255).wellFormed = true := by decide

theorem witness_EncodeOfDecode :
    decode (.request 0x81FFFF) = .ok (.scanKeys true 0xFF 0xFF) ∧ decode (.wire 0xCF) = .ok (.setAddr 15) := by decide

theorem witness_EveryStepAnswersNext :
    (requestOp (.init true 3 0)).isSome = true ∧ (requestOp (.scanKeys true 0 0)).isSome = true := by decide

theorem witness_InitResult :
    State.reset.peer.kind = .reference ∧ (withKind .absent State.reset).peer.kind ≠ .reference ∧ (withKind .oracle State.reset).peer.kind ≠ .reference := by decide

/-- The conditions of the clauses about the device, for ENABLE, SET_BRIGHTNESS, the display operations and the clears. -/
theorem witness_EnableResult :
    (started 0 auto).ready = true ∧ State.reset.unheard = true ∧ (withKind .absent (started 0 auto)).unheard = true := by decide

theorem witness_SetBrightnessResult :
    (started 0 fixed).ready = true ∧ State.reset.unheard = true ∧ (withKind .oracle (started 0 auto)).unheard = true := by decide

/-- The positions 0, 7 and 8. -/
theorem witness_DisplaySegmentsResult :
    (0 : Byte).toNat ≤ 7 ∧ (7 : Byte).toNat ≤ 7 ∧ 7 < (8 : Byte).toNat ∧ (started 0 auto).ready = true ∧
      State.reset.unheard = true := by decide

theorem witness_DisplayDigitResult :
    (0 : Byte).toNat ≤ 7 ∧ (7 : Byte).toNat ≤ 7 ∧ 7 < (8 : Byte).toNat ∧ (started 0xFF fixed).ready = true ∧
      State.reset.unheard = true := by decide

theorem witness_SetLedResult :
    (0 : Byte).toNat ≤ 7 ∧ (7 : Byte).toNat ≤ 7 ∧ 7 < (8 : Byte).toNat ∧
      (started 0 { auto with read := true }).ready = true ∧ State.reset.unheard = true := by decide

theorem witness_ClearSegmentsResult : (started 0x5A auto).ready = true ∧ State.reset.unheard = true := by decide

theorem witness_ClearLedsResult :
    (started 1 auto).ready = true ∧ (withKind .absent (started 1 auto)).unheard = true := by decide

/-- The reference peer with keys held, key-scan bytes 0 and 3 with their bits 0 and 7, and no device. -/
theorem witness_ScanKeysResult :
    (holding 0x42).ready = true ∧
      (∀ b0 b1 b2 b3 : Byte, [b0, b1, b2, b3][0]? = some b0 ∧ [b0, b1, b2, b3][3]? = some b3) ∧ 0 < 8 ∧ 7 < 8 ∧
      (∀ k, k < 4 → (holding 0x42).peer.keyFeed.getD ((holding 0x42).peer.keyReads + k) (holding 0x42).peer.keys = 0x42) ∧
      (holding 0x42).peer.keyFeed.length ≤ (holding 0x42).peer.keyReads ∧
      (withKind .absent (started 0 auto)).peer.kind = .absent :=
  ⟨by decide, fun _ _ _ _ => ⟨rfl, rfl⟩, by decide, by decide, fun _ _ => rfl, by decide, by decide⟩

theorem witness_ScanOfOracleIsFree : (withKind .oracle (started 0 auto)).peer.kind = .oracle := by decide

/-- The peer just powered on. -/
theorem witness_InitClearsPeer :
    State.reset.peer.kind = .reference ∧ State.reset.peer.midByte = false ∧
      State.reset.peer.mode = { fixed := false, read := false, test := false } ∧ 15 < 16 ∧ 16 ≤ 16 := by decide

theorem witness_InitInFixedMode :
    (started 0xFF fixed).peer.kind = .reference ∧ (started 0xFF fixed).peer.midByte = false ∧ 1 ≠ 0 ∧
      (started 0xFF fixed).peer.mode = { fixed := true, read := false, test := false } := by decide

theorem witness_InitInReadMode :
    (started 0xFF { auto with read := true }).peer.kind = .reference ∧
      (started 0xFF { auto with read := true }).peer.midByte = false ∧
      (started 0xFF { auto with read := true }).peer.mode.read = true := by decide

/-- An idle bus, and a peer whose frame a reset cut in mid-byte. -/
theorem witness_ReinitialisationClears :
    (started 0xFF fixed).ready = true ∧ (started 0xFF { auto with read := true }).ready = true ∧
      cutInMidByte.peer.kind = .reference := by decide

/-- Right after reset, for ENABLE, SET_BRIGHTNESS and SCAN_KEYS. -/
theorem witness_OperationsBeforeInit :
    State.reset.peer.kind = .reference ∧ State.reset.peer.frame = none ∧ State.reset.pins.stb.oe = false ∧
      ∀ i ∈ [Instr.enable true 0 0, .setBrightness false 5 0, .scanKeys false 0 0],
        (requestOp i).isSome = true ∧ ∀ f a b, i ≠ .init f a b := by
  refine ⟨by decide, by decide, by decide, ?_⟩
  intro i hi
  simp only [List.mem_cons, List.not_mem_nil, or_false] at hi
  rcases hi with rfl | rfl | rfl <;> exact ⟨by decide, fun _ _ _ h => (by cases h)⟩

theorem witness_DataCommandsSetMode :
    (started 0 fixed).peer.kind = .reference ∧ (withKind .absent (started 0 fixed)).peer.kind ≠ .reference := by decide

theorem witness_DisplayControlSetsDisplay :
    0 ≤ 7 ∧ 7 ≤ 7 ∧ (started 0 auto).peer.kind = .reference ∧
      (withKind .oracle (started 0 auto)).peer.kind ≠ .reference := by decide

theorem witness_AddressCommandsSetPointer :
    0 ≤ 15 ∧ 15 ≤ 15 ∧ (started 0 auto).peer.kind = .reference ∧
      (withKind .oracle (started 0 auto)).peer.kind ≠ .reference := by decide

/-- A byte of each class, with bits that no row assigns; two of the first class. -/
theorem witness_BusByteIsClassified :
    ∀ c ∈ ([0x67, 0x77, 0xB5, 0xE3, 0x3F] : List Byte),
      let s := otherByte c (started 0 auto)
      s.host.rst = false ∧ s.seq = .idle ∧ s.host.requests = [] ∧ s.host.busIn = some c ∧ s.peer.kind = .reference ∧
        (0x67 : Byte).extractLsb' 6 2 = 1 ∧ (0x67 : Byte).getLsbD 4 = false ∧ (0x77 : Byte).extractLsb' 6 2 = 1 ∧
        (0x77 : Byte).getLsbD 4 = true ∧ (0xB5 : Byte).extractLsb' 6 2 = 2 ∧ (0xE3 : Byte).extractLsb' 6 2 = 3 ∧
        (0x3F : Byte).extractLsb' 6 2 = 0 := by decide

/-- The states after 0, 1, … DISPLAY_SEGMENTS p, 0x00 (or SET_LED p, 0). -/
def afterSegments (p : Nat) : State :=
  match p with
  | 0 => started 0x5A auto
  | k + 1 => (afterSegments k).perform 3 false (BitVec.ofNat 8 k) 0 (segmentsBeats (BitVec.ofNat 8 k) 0) noResult

/-- The same with SET_LED p, 0. -/
def afterLeds (p : Nat) : State :=
  match p with
  | 0 => started 0x5A auto
  | k + 1 => (afterLeds k).perform 6 false (BitVec.ofNat 8 k) 0 (ledBeats (BitVec.ofNat 8 k) 0) noResult

theorem witness_ClearsAreEightOperations :
    (∀ p, p < 8 → exec (.displaySegments false (BitVec.ofNat 8 p) 0) (afterSegments p) = .next (afterSegments (p + 1))) ∧
      ∀ p, p < 8 → exec (.setLed false (BitVec.ofNat 8 p) 0) (afterLeds p) = .next (afterLeds (p + 1)) :=
  ⟨fun _ _ => rfl, fun _ _ => rfl⟩

/-- The positions 0, 1 and 7. -/
theorem witness_PositionAddresses :
    (0 : Byte).toNat ≤ 7 ∧ (1 : Byte).toNat ≤ 7 ∧ (7 : Byte).toNat ≤ 7 ∧ (7 : Byte) ≠ 0 := by decide

/-- The digits 9 and 10, and the default table. -/
theorem witness_SegmentMapper :
    (9 : Byte).toNat < 10 ∧ 10 ≤ (10 : Byte).toNat ∧ romOk Config.digitRom = true := by decide

theorem witness_KeyDecoderBits : 0 < 5 ∧ 4 < 5 := by decide

/-- A reference peer that transmits 0x11 while the adapter reads. -/
def transmitting : State :=
  { holding 0x11 with
    pins := { clk := ⟨true, true⟩, stb := ⟨false, true⟩, dio := ⟨false, true⟩ }
    peer := { (holding 0x11).peer with frame := some { bytes := [0x42], nbits := 0, sh := 0, kind := .scan, drive := none } } }

/-- 0x11 written, and 0x11 read from the transmitting peer. -/
theorem witness_ByteRoundTrip :
    let fs := (State.reset.runBeats (writeByte 0x11)).trace.reverse
    let es := (transmitting.runBeats readByte).trace.reverse
    (State.reset.runBeats (writeByte 0x11)).trace = fs.reverse ++ State.reset.trace ∧
      (transmitting.runBeats readByte).trace = es.reverse ++ transmitting.trace ∧ sampleLevels es = dioOperands fs ∧
      (transmitting.runBeats readByte).work.acc = 0x11 := by decide +kernel

/-- The leading events of an INIT at the start of a trace, and of a second INIT in the middle of it. -/
theorem witness_TranscriptIsFaithful :
    transcript (initLead ++ transcriptEvents [[.w 0x44], [.w 0xC9, .w 0x01]] ++ initLead ++ transcriptEvents [[.w 0x40]]) =
      some [[.w 0x44], [.w 0xC9, .w 0x01], [.w 0x40]] := by decide +kernel

theorem witness_EmittedFrames :
    exec (.setLed false 5 1) (started 0 auto) =
      .next ((started 0 auto).perform 6 false 5 1 (ledBeats 5 1) noResult) := rfl

theorem witness_EventCounts : (7 : Byte).toNat ≤ 7 ∧ 7 < (8 : Byte).toNat := by decide

theorem witness_MicroOperationCounts :
    (writeByte 0xC9, 40, 16, 0, 0) ∈
      [(writeByte 0xC9, 40, 16, 0, 0), (readByte, 44, 16, 8, 0), (sendCommand 0xC9, 42, 16, 0, 2),
        (sendData 0xC9 1, 124, 48, 0, 4), (sendConfig true 0xC9, 84, 32, 0, 4), (scanFrame, 218, 80, 32, 2)] :=
  List.mem_cons_self

/-- Addresses 0 and 15, from read mode. -/
theorem witness_SendDataStores :
    (0 : Byte).toNat < 16 ∧ (15 : Byte).toNat < 16 ∧ (started 0 { auto with read := true }).ready = true := by decide

theorem witness_StepKeepsWf :
    (started 0x5A auto).wf = true ∧ step (started 0x5A auto) = .next (started 0x5A auto).endCycle := ⟨by decide, rfl⟩

/-- The idle bus after INIT with a request waiting, and the released bus right after reset. -/
theorem witness_StepKeepsBusCoherent :
    let s := presenting [0x110000] (started 0 auto)
    s.atomicIdle = true ∧ s.busCoherent = true ∧
      step s = .next ((s.consume (.request 0x110000)).perform 1 true 0 0 (enableBeats s.cfg true) noResult) ∧
      State.reset.atomicIdle = true ∧ State.reset.busCoherent = true := by
  refine ⟨by decide, by decide, ?_, by decide, by decide⟩
  have hf : (presenting [0x110000] (started 0 auto)).fetch = some (.request 0x110000) := by decide
  have hd : decode (.request 0x110000) = .ok (.enable true 0 0) := by decide
  simp only [step, hf, hd]
  rfl

theorem witness_StepKeepsConfigurationShown :
    let s := started 0 auto
    s.inContract = true ∧ step s = .next s.endCycle := ⟨by decide, rfl⟩

theorem witness_ConstantsNeverChange : step (inReset (started 0 auto)) = .next (inReset (started 0 auto)).resetAdapter := rfl

/-- INIT, and operations that are not. -/
theorem witness_OnlyInitMakesOutputs :
    exec (.init true 3 0) State.reset = .next (State.reset.perform 0 true 3 0 (initBeats true 3) noResult) ∧
      exec (.enable true 0 0) State.reset =
        .next (State.reset.perform 1 true 0 0 (enableBeats State.reset.cfg true) noResult) ∧
      (∀ f a b, Instr.enable true 0 0 ≠ .init f a b) ∧ ∀ f a b, Instr.enable true 0 0 ≠ .scanKeys f a b :=
  ⟨rfl, rfl, fun _ _ _ h => (by cases h), fun _ _ _ h => (by cases h)⟩

/-- A meaning that may not write CFG, and a reset that changes it. -/
theorem witness_CfgWriters :
    (exec (.setLed false 5 1) (started 0 auto) =
        .next ((started 0 auto).perform 6 false 5 1 (ledBeats 5 1) noResult) ∧
      (∀ f a b, Instr.setLed false 5 1 ≠ .init f a b) ∧ (∀ f a b, Instr.setLed false 5 1 ≠ .enable f a b) ∧
      ∀ f a b, Instr.setLed false 5 1 ≠ .setBrightness f a b) ∧
      let s := inReset (started 0 auto)
      s.atomicIdle = true ∧ step s = .next s.resetAdapter ∧ s.resetAdapter.cfg ≠ s.cfg :=
  ⟨⟨rfl, fun _ _ _ h => (by cases h), fun _ _ _ h => (by cases h), fun _ _ _ h => (by cases h)⟩, by decide, rfl, by decide⟩

theorem witness_IdleBusAfterOperations :
    (started 0 auto).pins.idleBus = true ∧
      exec (.scanKeys false 0 0) (started 0 auto) =
        .next ((started 0 auto).perform 8 false 0 0 scanFrame keysResult) := ⟨by decide, rfl⟩

theorem witness_DisplayOffKeepsContents :
    (started 0x5A auto).peer.mode.test = false ∧ 0 ≤ 7 ∧ 7 ≤ 7 ∧ (started 0x5A auto).ready = true := by decide

theorem witness_RequestsRunInOrder :
    let s := presenting [0x010300, 0x600501] State.reset
    s.atomicIdle = true ∧ s.host.rst = false ∧ s.host.requests = 0x010300 :: 0x600501 :: [] ∧
      decode (.request 0x010300) = .ok (.init true 3 0) ∧ decode (.request 0x600501) = .ok (.setLed false 5 1) := by decide

/-- An event of an operation in progress, a reset cycle, an idle cycle. -/
theorem witness_TraceOnlyGrows :
    (let s : State := { started 0 auto with seq := .running 6 10 };
      step s = .next (s.advance 6 10) ∧ s.seq ≠ .idle) ∧
      (step (inReset (started 0 auto)) = .next (inReset (started 0 auto)).resetAdapter ∧
        (inReset (started 0 auto)).host.rst = true) ∧
      step (started 0 auto) = .next (started 0 auto).endCycle ∧ (started 0 auto).seq = .idle ∧
        (started 0 auto).fetch = none :=
  ⟨⟨rfl, by decide⟩, ⟨rfl, by decide⟩, rfl, by decide, by decide⟩

/-- Positions 0 and 7, another position and an odd address. -/
theorem witness_SegmentWritesAreLocal :
    (started 0x5A auto).ready = true ∧ (0 : Byte).toNat ≤ 7 ∧ (7 : Byte).toNat ≤ 7 ∧ 3 ≤ 7 ∧ 3 ≠ (7 : Byte).toNat ∧
      15 % 2 = 1 := by decide

/-- The default assignment, segment a on bit 0 and segment g on bit 6, and the dot. -/
theorem witness_SegmentsLit :
    Segment.dot ∉ Config.segAssign ∧ Segment.a ≠ .dot ∧ Config.segAssign[0]? = some .a ∧ (0x41 : Byte).getLsbD 0 = true ∧
      Config.segAssign[6]? = some .g ∧ (0x41 : Byte).getLsbD 6 = true := by decide

/-- A peer in use, one in test mode, one whose frame was cut in mid-byte. -/
theorem witness_UnspecifiedPeerIsFree :
    ((started 0 auto).peer.midByte = false ∧ (started 0 auto).peer.mode.test = false) ∧
      ((started 0 { auto with test := true }).peer.midByte = false ∧
        (started 0 { auto with test := true }).peer.mode.test = true) ∧ cutInMidByte.peer.midByte = true := by decide

/-- A trace of one frame, and the step of an ENABLE that a request asks for. -/
theorem witness_StepKeepsTranscript :
    let s : State := presenting [0x110000] { started 0 auto with trace := (transcriptEvents [[.w 0x40]]).reverse }
    s.atomicIdle = true ∧ transcript s.pinTrace = some [[.w 0x40]] ∧
      step s = .next ((s.consume (.request 0x110000)).perform 1 true 0 0 (enableBeats s.cfg true) noResult) := by
  refine ⟨by decide, by decide +kernel, ?_⟩
  have hd : decode (.request 0x110000) = .ok (.enable true 0 0) := by decide
  simp only [step, State.fetch, presenting, hd]
  rfl

end Sys2Proof.Machine
end

section
/-! PROOFS. A host operation from its operand latches (10_state.md R13, R21): the instruction, the request word and the
sequencer's trace name the same beats and the same result. -/

namespace Sys2Proof.Machine

/-- The operand latches that the acceptance of a host operation loads, none for a command byte on the wire
(10_state.md R13, 30_encoding.md R72). -/
def latched (i : Instr) : Option Operands :=
  match i with
  | .init f a b => some { op := 0, f := f, a := a, b := b }
  | .enable f a b => some { op := 1, f := f, a := a, b := b }
  | .setBrightness f a b => some { op := 2, f := f, a := a, b := b }
  | .displaySegments f a b => some { op := 3, f := f, a := a, b := b }
  | .clearSegments f a b => some { op := 4, f := f, a := a, b := b }
  | .displayDigit f a b => some { op := 5, f := f, a := a, b := b }
  | .setLed f a b => some { op := 6, f := f, a := a, b := b }
  | .clearLeds f a b => some { op := 7, f := f, a := a, b := b }
  | .scanKeys f a b => some { op := 8, f := f, a := a, b := b }
  | .dataCmdWriteAuto => none
  | .dataCmdWriteFixed => none
  | .dataCmdRead => none
  | .testCmd _ _ => none
  | .displayCtrl _ _ => none
  | .setAddr _ => none
  | .setAddrWrapped => none

/-- The request code is the `OP` that is latched. -/
theorem requestOp_eq_latched (i : Instr) : requestOp i = (latched i).map Operands.op := by cases i <;> rfl

/-- The `op` field as the number that the decoder matches. -/
theorem reqOp_of_toNat (w : ReqWord) (n : Nat) (h : (reqOp w).toNat = n) : reqOp w = BitVec.ofNat 4 n := by
  rw [← h, BitVec.ofNat_toNat, BitVec.setWidth_eq]

/-- What decodes from a request word latches the fields of the word (30_encoding.md R70, R72). -/
theorem latched_of_decode_request (w : ReqWord) (i : Instr) (h : decode (.request w) = .ok i) :
    latched i = some { op := reqOp w, f := reqF w, a := reqA w, b := reqB w } := by
  simp only [decode, decodeRequest] at h
  split at h
  · split at h <;> cases h
    all_goals next hn => rw [reqOp_of_toNat w _ hn]; rfl
  · cases h

/-- A byte on the wire decodes to no host operation (30_encoding.md R80). -/
theorem latched_of_decode_wire (c : Byte) (i : Instr) (h : decode (.wire c) = .ok i) : latched i = none := by
  simp only [decode, decodeWire] at h
  split_ifs at h <;> cases h <;> rfl

/-- A host operation is accepted with its operands, runs the trace that the sequencer has for them and completes with its
result (10_state.md R18, R21). -/
theorem exec_latched (i : Instr) (o : Operands) (s : State) (h : latched i = some o) :
    exec i s =
      .next (s.perform o.op o.f o.a o.b ((s.accept o.op o.f o.a o.b).program o.op) (State.resultOf o.op)) :=
  match i, h with
  | .init _ _ _, rfl => rfl
  | .enable _ _ _, rfl => rfl
  | .setBrightness _ _ _, rfl => rfl
  | .displaySegments _ _ _, rfl => rfl
  | .clearSegments _ _ _, rfl => rfl
  | .displayDigit _ _ _, rfl => rfl
  | .setLed _ _ _, rfl => rfl
  | .clearLeds _ _ _, rfl => rfl
  | .scanKeys _ _ _, rfl => rfl

/-- Every other instruction is a command byte that reaches the peer (assumption 4). -/
theorem exec_not_latched (i : Instr) (s : State) (h : latched i = none) : ∃ c, exec i s = .next (s.wireCommand c) :=
  match i, h with
  | .dataCmdWriteAuto, _ => ⟨_, rfl⟩
  | .dataCmdWriteFixed, _ => ⟨_, rfl⟩
  | .dataCmdRead, _ => ⟨_, rfl⟩
  | .testCmd _ _, _ => ⟨_, rfl⟩
  | .displayCtrl _ _, _ => ⟨_, rfl⟩
  | .setAddr _, _ => ⟨_, rfl⟩
  | .setAddrWrapped, _ => ⟨_, rfl⟩

/-- What an instruction can do: a host operation as a whole, or the peer's reaction to a byte. -/
theorem exec_cases (i : Instr) (s t : State) (h : exec i s = .next t) :
    (∃ o, latched i = some o ∧
        t = s.perform o.op o.f o.a o.b ((s.accept o.op o.f o.a o.b).program o.op) (State.resultOf o.op)) ∨
      (latched i = none ∧ ∃ c, t = s.wireCommand c) := by
  cases hl : latched i with
  | some o =>
    rw [exec_latched i o s hl] at h
    exact .inl ⟨o, rfl, by injection h with h; exact h.symm⟩
  | none =>
    obtain ⟨c, hc⟩ := exec_not_latched i s hl
    rw [hc] at h
    exact .inr ⟨rfl, c, by injection h with h; exact h.symm⟩

/-- The instruction of a request word, executed whole, from the state in which the word was accepted. -/
theorem exec_of_decode_request (s : State) (w : ReqWord) (i : Instr) (h : decode (.request w) = .ok i) :
    exec i s =
      .next
        (((s.acceptWord w).runBeats ((s.acceptWord w).program (reqOp w))).complete
          (((s.acceptWord w).runBeats ((s.acceptWord w).program (reqOp w))).resultOf (reqOp w)) false) :=
  exec_latched i _ s (latched_of_decode_request w i h)

end Sys2Proof.Machine
end

section
/-! PROOFS. The host side of a step (10_state.md R20, R21): which packet is taken, an instruction executed whole, and what the
packet that is no instruction leaves alone. -/

namespace Sys2Proof.Machine

/-- A presented request is the packet taken (10_state.md R21). -/
theorem fetch_of_requests (s : State) (w : ReqWord) (rest : List ReqWord) (h : s.host.requests = w :: rest) :
    s.fetch = some (.request w) := by simp [State.fetch, h]

/-- With no request presented it is the waiting byte, if there is one (assumption 4). -/
theorem fetch_of_no_requests (s : State) (h : s.host.requests = []) : s.fetch = s.host.busIn.map .wire := by
  simp [State.fetch, h]

/-- A request is taken only from the head of the list. -/
theorem head?_of_fetch_request (s : State) (w : ReqWord) (h : s.fetch = some (.request w)) :
    s.host.requests.head? = some w := by
  cases hr : s.host.requests with
  | nil => simp [fetch_of_no_requests s hr] at h
  | cons v rest => simpa [fetch_of_requests s v rest hr] using h

/-- Only a request starts event by event, and only in a machine that steps so (assumption 6). -/
theorem startsPerEvent_eq_none (s : State) (p : Packet) (h : ∀ w, p = .request w → s.host.perEvent = false) :
    s.startsPerEvent p = none := by
  cases p with
  | wire c => rfl
  | request w => simp [State.startsPerEvent, h w rfl]

theorem startsPerEvent_request (s : State) (w : ReqWord) (h : s.host.perEvent = true) :
    s.startsPerEvent (.request w) = some w := by simp [State.startsPerEvent, h]

/-- The remaining case of a step: the instruction whole. -/
theorem step_executes (s : State) (p : Packet) (i : Instr) (h : s.host.rst = false) (hs : s.seq = .idle)
    (hf : s.fetch = some p) (hd : decode p = .ok i) (hb : s.startsPerEvent p = none) :
    step s = exec i (s.consume p) := by
  simp [step, h, hs, hf, hd, hb]

@[simp] theorem consume_rst (p : Packet) (s : State) : (s.consume p).host.rst = s.host.rst := by cases p <;> rfl

@[simp] theorem acceptWord_cfg (w : ReqWord) (s : State) : (s.acceptWord w).cfg = s.cfg := rfl
@[simp] theorem acceptWord_seq (w : ReqWord) (s : State) : (s.acceptWord w).seq = .running (reqOp w) 0 := rfl
@[simp] theorem acceptWord_host (w : ReqWord) (s : State) : (s.acceptWord w).host = s.host := rfl
@[simp] theorem acceptWord_trace (w : ReqWord) (s : State) : (s.acceptWord w).trace = s.trace := rfl

/-- A packet that is no instruction leaves `CFG` (30_encoding.md R74). -/
@[simp] theorem takeUndecoded_cfg (p : Packet) (s : State) : (s.takeUndecoded p).cfg = s.cfg := by cases p <;> rfl

theorem atomicIdle_iff (s : State) : s.atomicIdle = true ↔ s.seq = .idle ∧ s.host.perEvent = false := by
  simp [State.atomicIdle]

end Sys2Proof.Machine
end

section
/-! PROOFS. The operation in progress, event by event (10_state.md R18): what one step of the sequencer does, and that the
steps from the acceptance on are the beats of the operation in order. -/

namespace Sys2Proof.Machine

/-- While there is an event to emit, the sequencer emits it and moves on. -/
theorem advance_beat (op : BitVec 4) (k : Nat) (b : Beat) (s : State) (h : (s.program op)[k]? = some b) :
    s.advance op k = (s.beat b).atSeq (.running op (k + 1)) := by simp [State.advance, h, State.atSeq]

/-- In the cycle after the last event the operation completes. -/
theorem advance_end (op : BitVec 4) (k : Nat) (s : State) (h : (s.program op)[k]? = none) :
    s.advance op k = s.complete (s.resultOf op) false := by simp [State.advance, h]

/-- Everything `advance` can do. -/
theorem advance_cases (op : BitVec 4) (k : Nat) (s : State) :
    (∃ b, (s.program op)[k]? = some b ∧ s.advance op k = (s.beat b).atSeq (.running op (k + 1))) ∨
      ((s.program op)[k]? = none ∧ s.advance op k = s.complete (s.resultOf op) false) := by
  cases h : (s.program op)[k]? with
  | some b => exact .inl ⟨b, rfl, advance_beat op k b s h⟩
  | none => exact .inr ⟨rfl, advance_end op k s h⟩

@[simp] theorem atSeq_trace (q : Seq) (s : State) : (s.atSeq q).trace = s.trace := rfl
@[simp] theorem resultOf_atSeq (q : Seq) (op : BitVec 4) (s : State) : (s.atSeq q).resultOf op = s.resultOf op := rfl
@[simp] theorem complete_atSeq (q : Seq) (d : Byte) (ill : Bool) (s : State) :
    (s.atSeq q).complete d ill = s.complete d ill := rfl
theorem atSeq_of_seq (q : Seq) (s : State) (h : s.seq = q) : s.atSeq q = s := by rw [← h]; rfl

/-- Where the sequencer stands plays no part in what `advance` answers for event `k`. -/
theorem advance_atSeq (q : Seq) (op : BitVec 4) (k : Nat) (s : State) : (s.atSeq q).advance op k = s.advance op k := by
  rcases advance_cases op k s with ⟨b, hb, heq⟩ | ⟨hb, heq⟩
  · rw [heq, advance_beat op k b (s.atSeq q) hb, beat_atSeq, atSeq_atSeq]
  · rw [heq, advance_end op k (s.atSeq q) hb, resultOf_atSeq, complete_atSeq]

/-- A step at event `k` of the operation in progress. -/
theorem step_atSeq_running (op : BitVec 4) (k : Nat) (s : State) (hr : s.host.rst = false) :
    step (s.atSeq (.running op k)) = .next (s.advance op k) := by
  rw [step_running (s.atSeq (.running op k)) op k hr rfl, advance_atSeq]

/-- Each beat emits one event (10_state.md R18). -/
theorem beat_trace_length (b : Beat) (s : State) : (s.beat b).trace.length = s.trace.length + 1 := by
  have hact : ∀ u : State, (u.act b.act).trace.length = u.trace.length + 1 := by
    intro u; cases b.act <;> simp [State.act]
  have htrace : ∀ (ws : List RegWrite) (u : State), (ws.foldl State.write u).trace = u.trace := by
    intro ws u
    obtain ⟨_, _, _, _, _, _, _, h⟩ := writes_frame ws u
    exact h
  rw [State.beat, htrace, hact, htrace]

theorem runBeats_trace_length (bs : List Beat) (s : State) :
    (s.runBeats bs).trace.length = s.trace.length + bs.length := by
  induction bs generalizing s with
  | nil => rfl
  | cons b rest ih => rw [runBeats_cons, ih, beat_trace_length, List.length_cons]; omega

/-- The trace of the operation in progress is the same after any of its beats. -/
theorem program_runBeats (op : BitVec 4) (bs : List Beat) (s : State) (h : ∀ b ∈ bs, b ∈ s.program op) :
    (s.runBeats bs).program op = s.program op := by
  induction bs generalizing s with
  | nil => rfl
  | cons b rest ih =>
    have hb : (s.beat b).program op = s.program op := program_beat op b s (h b List.mem_cons_self)
    have hrest : ∀ c ∈ rest, c ∈ (s.beat b).program op := by
      rw [hb]; exact fun c hc => h c (List.mem_cons_of_mem b hc)
    rw [runBeats_cons, ih _ hrest, hb]

/-- `n` steps of the machine. -/
def State.steps (n : Nat) (s : State) : Host.Outcome State Fault Refusal := Host.Core.run core n s

theorem steps_zero (s : State) : s.steps 0 = .next s := rfl

theorem steps_succ (n : Nat) (s t : State) (h : step s = .next t) : s.steps (n + 1) = t.steps n := by
  have hc : core.step s = .next t := h
  simp only [State.steps, Host.Core.run, hc]
  rfl

/-- From event `j` on, the next steps of the sequencer are the next beats of its trace, in order. -/
theorem steps_events (op : BitVec 4) (bs rest : List Beat) (j m : Nat) (s : State) (hr : s.host.rst = false)
    (hp : (s.program op).drop j = bs ++ rest) :
    (s.atSeq (.running op j)).steps (bs.length + m) =
      ((s.runBeats bs).atSeq (.running op (j + bs.length))).steps m := by
  induction bs generalizing j s with
  | nil => rw [List.length_nil, Nat.zero_add]; rfl
  | cons b bs ih =>
    have hb : (s.program op)[j]? = some b := by
      have h0 := congrArg (fun l => l[0]?) hp
      simpa using h0
    have hdrop : ((s.beat b).program op).drop (j + 1) = bs ++ rest := by
      rw [program_beat op b s (List.mem_of_getElem? hb), ← List.tail_drop, hp]; rfl
    have hrst : (s.beat b).host.rst = false := by
      obtain ⟨_, _, hhost, _⟩ := beat_frame b s
      rw [hhost, hr]
    have hstep : step (s.atSeq (.running op j)) = .next ((s.beat b).atSeq (.running op (j + 1))) := by
      rw [step_atSeq_running op j s hr, advance_beat op j b s hb]
    calc (s.atSeq (.running op j)).steps ((b :: bs).length + m)
        = (s.atSeq (.running op j)).steps (bs.length + m + 1) := by rw [List.length_cons, Nat.add_right_comm]
      _ = ((s.beat b).atSeq (.running op (j + 1))).steps (bs.length + m) := steps_succ _ _ _ hstep
      _ = (((s.beat b).runBeats bs).atSeq (.running op (j + 1 + bs.length))).steps m := ih (j + 1) _ hrst hdrop
      _ = ((s.runBeats (b :: bs)).atSeq (.running op (j + (b :: bs).length))).steps m := by
        rw [runBeats_cons, List.length_cons, Nat.add_right_comm, Nat.add_assoc]

/-- The first `k` steps after the acceptance emit the first `k` events. -/
theorem steps_first_events (op : BitVec 4) (k m : Nat) (s : State) (hr : s.host.rst = false)
    (hs : s.seq = .running op 0) (hk : k ≤ (s.program op).length) :
    s.steps (k + m) = ((s.runBeats ((s.program op).take k)).atSeq (.running op k)).steps m := by
  have h := steps_events op ((s.program op).take k) ((s.program op).drop k) 0 m s hr (List.take_append_drop k _).symm
  rwa [List.length_take_of_le hk, Nat.zero_add, atSeq_of_seq _ s hs] at h

/-- After its last event the operation completes, in the state that all its beats leave (10_state.md R21). -/
theorem steps_to_completion (op : BitVec 4) (s : State) (hr : s.host.rst = false) (hs : s.seq = .running op 0) :
    s.steps ((s.program op).length + 1) =
      .next ((s.runBeats (s.program op)).complete ((s.runBeats (s.program op)).resultOf op) false) := by
  have hend : ((s.runBeats (s.program op)).program op)[(s.program op).length]? = none := by
    rw [program_runBeats op _ s fun _ h => h]
    exact List.getElem?_eq_none le_rfl
  have hrst : (s.runBeats (s.program op)).host.rst = false := by
    obtain ⟨_, _, hhost, _⟩ := runBeats_frame (s.program op) s
    rw [hhost, hr]
  rw [steps_first_events op _ 1 s hr hs le_rfl, List.take_length,
    steps_succ 0 _ _ (step_atSeq_running op _ _ hrst), steps_zero, advance_end op _ _ hend]

/-- Settles O7: the step that accepts the word, then the beats of the operation one by one, then its completion. -/
theorem eventByEventRefinesAtomic : Obligations.EventByEventRefinesAtomic := by
  intro s w rest i hr hs hreq hpe hd begun n
  have hbegins : step s = .next begun :=
    step_begins s _ i w hr hs (fetch_of_requests s w rest hreq) hd (startsPerEvent_request s w hpe)
  have hrst : begun.host.rst = false := by simp [begun, hr]
  have hseq : begun.seq = .running (reqOp w) 0 := acceptWord_seq w _
  constructor
  · intro k hk
    refine ⟨(begun.runBeats ((begun.program (reqOp w)).take k)).atSeq (.running (reqOp w) k), ?_, atSeq_seq _ _, ?_⟩
    · exact (steps_succ k s begun hbegins).trans (steps_first_events _ k 0 begun hrst hseq hk)
    · rw [atSeq_trace, runBeats_trace_length, List.length_take_of_le hk, acceptWord_trace, consume_trace]
  · calc s.steps (n + 2)
        = begun.steps (n + 1) := steps_succ _ s begun hbegins
      _ = _ := steps_to_completion (reqOp w) begun hrst hseq
      _ = exec i (s.consume (.request w)) := (exec_of_decode_request _ w i hd).symm

end Sys2Proof.Machine
end

section
/-! PROOFS. The host port plays no part in the operation in progress (10_state.md R21). -/

namespace Sys2Proof.Machine

/-- The same state with other inputs presented. -/
def State.withHost (h : HostPort) (s : State) : State := { s with host := h }

@[simp] theorem program_withHost (h : HostPort) (op : BitVec 4) (s : State) :
    (s.withHost h).program op = s.program op := rfl
@[simp] theorem resultOf_withHost (h : HostPort) (op : BitVec 4) (s : State) :
    (s.withHost h).resultOf op = s.resultOf op := rfl
theorem complete_withHost (h : HostPort) (d : Byte) (ill : Bool) (s : State) :
    (s.withHost h).complete d ill = (s.complete d ill).withHost h := rfl
theorem atSeq_withHost (h : HostPort) (q : Seq) (s : State) : (s.withHost h).atSeq q = (s.atSeq q).withHost h := rfl

theorem write_withHost (h : HostPort) (w : RegWrite) (s : State) : (s.withHost h).write w = (s.write w).withHost h := by
  cases w <;> rfl

theorem writes_withHost (h : HostPort) (ws : List RegWrite) (s : State) :
    ws.foldl State.write (s.withHost h) = (ws.foldl State.write s).withHost h := by
  induction ws generalizing s with
  | nil => rfl
  | cons w rest ih => rw [List.foldl_cons, write_withHost, ih, List.foldl_cons]

theorem act_withHost (h : HostPort) (a : Act) (s : State) : (s.withHost h).act a = (s.act a).withHost h := by
  cases a with
  | pin e => cases e <;> rfl
  | shiftOut => rfl
  | sampleIn => rfl

theorem beat_withHost (h : HostPort) (b : Beat) (s : State) : (s.withHost h).beat b = (s.beat b).withHost h := by
  simp only [State.beat, writes_withHost, act_withHost]

theorem advance_withHost (h : HostPort) (op : BitVec 4) (k : Nat) (s : State) :
    (s.withHost h).advance op k = (s.advance op k).withHost h := by
  rcases advance_cases op k s with ⟨b, hb, heq⟩ | ⟨hb, heq⟩
  · rw [heq, advance_beat op k b (s.withHost h) hb, beat_withHost, atSeq_withHost]
  · rw [heq, advance_end op k (s.withHost h) hb, resultOf_withHost, complete_withHost]

/-- A step of the sequencer leaves the host port and the operand latches (10_state.md R13, R21). -/
theorem advance_frame (op : BitVec 4) (k : Nat) (s : State) :
    (s.advance op k).host = s.host ∧ (s.advance op k).operands = s.operands := by
  rcases advance_cases op k s with ⟨b, -, heq⟩ | ⟨-, heq⟩
  · obtain ⟨hops, _, hhost, _⟩ := beat_frame b s
    rw [heq]
    exact ⟨hhost, hops⟩
  · rw [heq]
    exact ⟨rfl, rfl⟩

/-- A running adapter is not ready (10_state.md R19). -/
theorem reqReady_of_running (s : State) (op : BitVec 4) (k : Nat) (hs : s.seq = .running op k) : s.reqReady = false := by
  simp [State.reqReady, State.busy, hs]

/-- Settles O5: the step is the sequencer's own, which does not read the requests. -/
theorem busyIgnoresRequests : Obligations.BusyIgnoresRequests := by
  intro s op k ws hr hs
  obtain ⟨hhost, hops⟩ := advance_frame op k s
  refine ⟨reqReady_of_running s op k hs, s.advance op k, step_running s op k hr hs, hhost, hops, ?_⟩
  rw [hhost]
  calc step (s.withHost { s.host with requests := ws })
      = .next ((s.withHost { s.host with requests := ws }).advance op k) := step_running _ op k hr hs
    _ = .next ((s.advance op k).withHost { s.host with requests := ws }) := by rw [advance_withHost]

end Sys2Proof.Machine
end

section
/-! PROOFS. What no step changes (10_state.md R16, 00_scope.md R3). -/

namespace Sys2Proof.Machine

theorem loneCommand_kind (c : Byte) (p : Peer) : (p.loneCommand c).kind = p.kind := by
  unfold Peer.loneCommand
  split
  · rw [closeFrame_kind, receive_kind, openFrame_kind]
  · rfl
  · rfl

theorem loneCommand_keys (c : Byte) (p : Peer) : (p.loneCommand c).keys = p.keys := by
  unfold Peer.loneCommand
  split
  · rw [closeFrame_keys, receive_keys, openFrame_keys]
  · rfl
  · rfl

theorem loneCommand_keyFeed (c : Byte) (p : Peer) : (p.loneCommand c).keyFeed = p.keyFeed := by
  unfold Peer.loneCommand
  split
  · rw [closeFrame_keyFeed, receive_keyFeed, openFrame_keyFeed]
  · rfl
  · rfl

/-- The fields that no step changes: `DIGIT_ROM` and the parameters of time, the device and the schedule of its keys
(assumptions 10, 19), the reset input and the way of stepping (assumption 20). -/
def State.constants (s : State) : Vector Byte 10 × Timing × PeerKind × Byte × List Byte × Bool × Bool :=
  (s.digitRom, s.timing, s.peer.kind, s.peer.keys, s.peer.keyFeed, s.host.rst, s.host.perEvent)

theorem constants_eq_iff (s t : State) :
    t.constants = s.constants ↔
      t.digitRom = s.digitRom ∧ t.timing = s.timing ∧ t.peer.kind = s.peer.kind ∧ t.peer.keys = s.peer.keys ∧
        t.peer.keyFeed = s.peer.keyFeed ∧ t.host.rst = s.host.rst ∧ t.host.perEvent = s.host.perEvent := by
  simp [State.constants]

@[simp] theorem constants_resetAdapter (s : State) : s.resetAdapter.constants = s.constants := rfl
@[simp] theorem constants_endCycle (s : State) : s.endCycle.constants = s.constants := rfl
@[simp] theorem constants_accept (op : BitVec 4) (f : Bool) (a b : Byte) (s : State) :
    (s.accept op f a b).constants = s.constants := rfl
@[simp] theorem constants_acceptWord (w : ReqWord) (s : State) : (s.acceptWord w).constants = s.constants := rfl
@[simp] theorem constants_complete (d : Byte) (ill : Bool) (s : State) : (s.complete d ill).constants = s.constants := rfl
@[simp] theorem constants_atSeq (q : Seq) (s : State) : (s.atSeq q).constants = s.constants := rfl
@[simp] theorem constants_consume (p : Packet) (s : State) : (s.consume p).constants = s.constants := by cases p <;> rfl

@[simp] theorem constants_wireCommand (c : Byte) (s : State) : (s.wireCommand c).constants = s.constants := by
  simp [State.constants, loneCommand_kind, loneCommand_keys, loneCommand_keyFeed]

@[simp] theorem constants_beat (b : Beat) (s : State) : (s.beat b).constants = s.constants := by
  obtain ⟨_, hrom, hhost, _, _, hkind, hkeys, hfeed⟩ := beat_frame b s
  simp [State.constants, hrom, hhost, hkind, hkeys, hfeed]

@[simp] theorem constants_runBeats (bs : List Beat) (s : State) : (s.runBeats bs).constants = s.constants := by
  induction bs generalizing s with
  | nil => rfl
  | cons b rest ih => rw [runBeats_cons, ih, constants_beat]

@[simp] theorem constants_perform (op : BitVec 4) (f : Bool) (a b : Byte) (bs : List Beat) (r : State → Byte) (s : State) :
    (s.perform op f a b bs r).constants = s.constants := by simp [State.perform]

@[simp] theorem constants_advance (op : BitVec 4) (k : Nat) (s : State) : (s.advance op k).constants = s.constants := by
  rcases advance_cases op k s with ⟨b, -, heq⟩ | ⟨-, heq⟩ <;> simp [heq]

/-- An illegal request is accepted and completed; any other byte acts as a command byte on the wire. -/
@[simp] theorem constants_takeUndecoded (p : Packet) (s : State) : (s.takeUndecoded p).constants = s.constants := by
  cases p with
  | request w => rfl
  | wire c => exact constants_wireCommand c s

theorem exec_constants (i : Instr) (s t : State) (h : exec i s = .next t) : t.constants = s.constants := by
  rcases exec_cases i s t h with ⟨o, -, rfl⟩ | ⟨-, c, rfl⟩
  · exact constants_perform ..
  · exact constants_wireCommand c s

theorem step_constants (s t : State) (h : step s = .next t) : t.constants = s.constants := by
  rcases step_cases s t h with ⟨-, rfl⟩ | ⟨-, ⟨op, k, -, rfl⟩ | ⟨-, ⟨-, rfl⟩ | ⟨p, -, hp⟩⟩⟩
  · exact constants_resetAdapter s
  · exact constants_advance op k s
  · exact constants_endCycle s
  · rcases hp with ⟨e, -, rfl⟩ | ⟨i, -, ⟨w, -, rfl⟩ | ⟨-, hexec⟩⟩
    · rw [constants_takeUndecoded, constants_consume]
    · rw [constants_acceptWord, constants_consume]
    · rw [exec_constants i _ t hexec, constants_consume]

/-- Settles O50. -/
theorem constantsNeverChange : Obligations.ConstantsNeverChange := fun s t h =>
  (constants_eq_iff s t).1 (step_constants s t h)

end Sys2Proof.Machine
end

section
/-! PROOFS. Who writes `CFG` (10_state.md R11, R26). -/

namespace Sys2Proof.Machine

theorem sendData_quiet (a d : Byte) : (sendData a d).all Beat.quiet = true := rfl

theorem segmentsBeats_quiet (pos segs : Byte) : (segmentsBeats pos segs).all Beat.quiet = true := by
  unfold segmentsBeats
  split
  · exact sendData_quiet _ _
  · rfl

theorem ledBeats_quiet (pos value : Byte) : (ledBeats pos value).all Beat.quiet = true := by
  unfold ledBeats
  split
  · exact sendData_quiet _ _
  · rfl

theorem clearSegmentsBeats_quiet : clearSegmentsBeats.all Beat.quiet = true := by decide +kernel

theorem clearLedsBeats_quiet : clearLedsBeats.all Beat.quiet = true := by decide +kernel

theorem scanFrame_quiet : scanFrame.all Beat.quiet = true := by decide +kernel

/-- The trace of an operation other than `INIT`, `ENABLE` and `SET_BRIGHTNESS` holds no write of `CFG`
(42_command_encoder.md R138). -/
theorem program_quiet (op : BitVec 4) (s : State) (h0 : op ≠ 0) (h1 : op ≠ 1) (h2 : op ≠ 2) :
    (s.program op).all Beat.quiet = true := by
  unfold State.program
  split
  next h => exact absurd (BitVec.eq_of_toNat_eq h) h0
  next h => exact absurd (BitVec.eq_of_toNat_eq h) h1
  next h => exact absurd (BitVec.eq_of_toNat_eq h) h2
  next => exact segmentsBeats_quiet _ _
  next => exact clearSegmentsBeats_quiet
  next => exact segmentsBeats_quiet _ _
  next => exact ledBeats_quiet _ _
  next => exact clearLedsBeats_quiet
  next => exact scanFrame_quiet
  next => rfl

theorem runBeats_cfg_quiet (bs : List Beat) (s : State) (h : bs.all Beat.quiet = true) : (s.runBeats bs).cfg = s.cfg := by
  induction bs generalizing s with
  | nil => rfl
  | cons b rest ih =>
    obtain ⟨hb, hrest⟩ : b.quiet = true ∧ rest.all Beat.quiet = true := by simpa using h
    rw [runBeats_cons, ih _ hrest, beat_cfg_quiet b s hb]

/-- An instruction that changes `CFG` is one of the three that send a configuration. -/
theorem exec_cfg_writer (i : Instr) (s t : State) (h : exec i s = .next t) (hc : t.cfg ≠ s.cfg) :
    requestOp i = some 0 ∨ requestOp i = some 1 ∨ requestOp i = some 2 := by
  rcases exec_cases i s t h with ⟨o, ho, rfl⟩ | ⟨-, c, rfl⟩
  · by_contra hne
    simp only [requestOp_eq_latched, ho, Option.map_some, Option.some.injEq, not_or] at hne
    obtain ⟨h0, h1, h2⟩ := hne
    exact hc (runBeats_cfg_quiet _ _ (program_quiet o.op _ h0 h1 h2))
  · exact absurd (wireCommand_cfg c s) hc

/-- The three request codes name the three instructions (30_encoding.md R72). -/
theorem cfg_writer_cases (i : Instr) (h : requestOp i = some 0 ∨ requestOp i = some 1 ∨ requestOp i = some 2) :
    (∃ f a b, i = .init f a b) ∨ (∃ f a b, i = .enable f a b) ∨ ∃ f a b, i = .setBrightness f a b := by
  cases i <;> simp [requestOp] at h ⊢

/-- A whole-operation step that changes `CFG` and is no reset takes the request that decodes to the writer. -/
theorem step_cfg_writer (s t : State) (ha : s.atomicIdle = true) (h : step s = .next t) (hc : t.cfg ≠ s.cfg) :
    s.host.rst = true ∨ ∃ w i, s.host.requests.head? = some w ∧ decode (.request w) = .ok i ∧
      (requestOp i = some 0 ∨ requestOp i = some 1 ∨ requestOp i = some 2) := by
  obtain ⟨hidle, -⟩ := (atomicIdle_iff s).1 ha
  rcases step_cases s t h with ⟨hr, -⟩ | ⟨-, ⟨op, k, hrun, -⟩ | ⟨-, ⟨-, rfl⟩ | ⟨p, hf, hp⟩⟩⟩
  · exact .inl hr
  · exact absurd (hidle.symm.trans hrun) nofun
  · exact absurd (endCycle_cfg s) hc
  · rcases hp with ⟨e, -, rfl⟩ | ⟨i, hd, ⟨w, -, rfl⟩ | ⟨-, hexec⟩⟩
    · exact absurd (by simp) hc
    · exact absurd (by simp) hc
    · have hi := exec_cfg_writer i _ t hexec (by simpa using hc)
      cases p with
      | request w => exact .inr ⟨w, i, head?_of_fetch_request s w hf, hd, hi⟩
      | wire c => simp [requestOp_eq_latched, latched_of_decode_wire c i hd] at hi

/-- Settles O52. -/
theorem cfgWriters : Obligations.CfgWriters := by
  refine ⟨fun i s t h hinit henable hbr => ?_, step_cfg_writer⟩
  by_contra hc
  rcases cfg_writer_cases i (exec_cfg_writer i s t h hc) with ⟨f, a, b, hi⟩ | ⟨f, a, b, hi⟩ | ⟨f, a, b, hi⟩
  · exact hinit f a b hi
  · exact henable f a b hi
  · exact hbr f a b hi

end Sys2Proof.Machine
end

section
/-! PROOFS. The state right after reset, an idle cycle, and the packet of a step (10_state.md R15, R21, R26). -/

namespace Sys2Proof.Machine

/-- Settles O1: every value is written in `State.reset`. -/
theorem resetState : Obligations.ResetState := by
  unfold Obligations.ResetState
  decide

/-- Settles O46: the display RAM list is empty, no line is driven, and the default digit table has bit 7 clear. -/
theorem resetMeetsInvariants : Obligations.ResetMeetsInvariants := by
  unfold Obligations.ResetMeetsInvariants
  decide

/-- Settles O4: with nothing to take, the step only ends the cycle. -/
theorem idleCycle : Obligations.IdleCycle := by
  intro s hr hs hbus hreq
  exact step_nothing s hr hs (by rw [fetch_of_no_requests s hreq, hbus]; rfl)

/-- The packet is the request word whenever one is presented, else the waiting byte (10_state.md R20, R21). -/
theorem fetch_of_reqValid (s : State) :
    (s.reqValid = true → s.fetch = some (.request s.reqWord)) ∧
      (s.reqValid = false → s.fetch = s.host.busIn.map Packet.wire) := by
  cases h : s.host.requests with
  | nil => exact ⟨fun hv => by simp [State.reqValid, h] at hv, fun _ => fetch_of_no_requests s h⟩
  | cons w rest =>
    refine ⟨fun _ => ?_, fun hv => by simp [State.reqValid, h] at hv⟩
    rw [fetch_of_requests s w rest h, State.reqWord, h]
    rfl

/-- Settles O6. -/
theorem stepRunsDecodedPacket : Obligations.StepRunsDecodedPacket :=
  ⟨fetch_of_reqValid, fun _ _ => rfl, fun _ _ => rfl, fun s p i hr hs hf hd hpe =>
    step_executes s p i hr hs hf hd (startsPerEvent_eq_none s p hpe)⟩

end Sys2Proof.Machine
end

section
/-! PROOFS. The display RAM and the digit table stay in form (20_memory.md R40, 10_state.md R16). -/

namespace Sys2Proof.Machine

theorem wf_iff (s : State) : s.wf = true ↔ Memory.wf s.peer.ram = true ∧ romOk s.digitRom = true := by
  simp [State.wf]

@[simp] theorem acceptWord_peer (w : ReqWord) (s : State) : (s.acceptWord w).peer = s.peer := rfl
@[simp] theorem atSeq_peer (q : Seq) (s : State) : (s.atSeq q).peer = s.peer := rfl

theorem advance_ram_wf (op : BitVec 4) (k : Nat) (s : State) (h : Memory.wf s.peer.ram = true) :
    Memory.wf (s.advance op k).peer.ram = true := by
  rcases advance_cases op k s with ⟨b, -, heq⟩ | ⟨-, heq⟩
  · rw [heq, atSeq_peer]; exact beat_ram_wf b s h
  · rw [heq, complete_peer]; exact h

theorem takeUndecoded_ram_wf (p : Packet) (s : State) (h : Memory.wf s.peer.ram = true) :
    Memory.wf (s.takeUndecoded p).peer.ram = true := by
  cases p with
  | request w => exact h
  | wire c => exact loneCommand_ram_wf c s.peer h

theorem exec_ram_wf (i : Instr) (s t : State) (hexec : exec i s = .next t) (h : Memory.wf s.peer.ram = true) :
    Memory.wf t.peer.ram = true := by
  rcases exec_cases i s t hexec with ⟨o, -, rfl⟩ | ⟨-, c, rfl⟩
  · exact runBeats_ram_wf _ (s.accept o.op o.f o.a o.b) h
  · exact loneCommand_ram_wf c s.peer h

/-- Only a beat and a byte on the wire reach the display RAM, and both keep it canonical. -/
theorem step_ram_wf (s t : State) (hstep : step s = .next t) (h : Memory.wf s.peer.ram = true) :
    Memory.wf t.peer.ram = true := by
  have hconsume : ∀ p, Memory.wf (s.consume p).peer.ram = true := fun p => by rw [consume_peer]; exact h
  rcases step_cases s t hstep with ⟨-, rfl⟩ | ⟨-, ⟨op, k, -, rfl⟩ | ⟨-, ⟨-, rfl⟩ | ⟨p, -, hp⟩⟩⟩
  · exact h
  · exact advance_ram_wf op k s h
  · exact h
  · rcases hp with ⟨e, -, rfl⟩ | ⟨i, -, ⟨w, -, rfl⟩ | ⟨-, hexec⟩⟩
    · exact takeUndecoded_ram_wf p _ (hconsume p)
    · exact hconsume p
    · exact exec_ram_wf i _ t hexec (hconsume p)

/-- Settles O47: every step keeps the display RAM canonical, and none writes the digit table. -/
theorem stepKeepsWf : Obligations.StepKeepsWf := by
  intro s t hs hstep
  obtain ⟨hram, hrom⟩ := (wf_iff s).1 hs
  obtain ⟨hromKept, -⟩ := constantsNeverChange s t hstep
  exact (wf_iff t).2 ⟨step_ram_wf s t hstep hram, by rw [hromKept]; exact hrom⟩

end Sys2Proof.Machine
end

section
/-! PROOFS. The peer at power-on, and what an operation finds of a peer whose behaviour is unspecified (20_memory.md R61,
R62). -/

namespace Sys2Proof.Machine

/-- With no display RAM byte known, every address reads the free value of the epoch (20_memory.md R62). -/
theorem readRam_of_ram_nil (p : Peer) (x : Nat) (h : p.ram = []) : p.readRam x = Config.freeRam p.epoch x := by
  simp [Peer.readRam, h, Ram.lookup]

/-- Settles O2: the power-on values are written in `Peer.powerOn`, and the adapter's reset leaves the peer. -/
theorem powerOnPeer : Obligations.PowerOnPeer :=
  ⟨rfl, rfl, rfl, rfl, fun x => ⟨rfl, readRam_of_ram_nil Peer.powerOn x rfl⟩, fun s hr =>
    ⟨s.resetAdapter, step_rst s hr, resetAdapter_peer s⟩⟩

theorem freed_readRam (p : Peer) (n x : Nat) : (p.freed n).readRam x = Config.freeRam n x :=
  readRam_of_ram_nil (p.freed n) x rfl

/-- What test mode leaves of the peer, its frame ended, is free at the next draw (20_memory.md R61 e). -/
theorem unsettle_withFrame_none (p : Peer) : p.unsettle.withFrame none = p.freed p.draws := rfl

/-- A peer out of mid-byte is found as it was, the frame ended, or free after test mode. -/
theorem found_of_whole (p : Peer) (h : p.midByte = false) : p.found = p.atCommand.withFrame none := by
  rw [Peer.found, closeFrame_of_whole p h, atCommand_withFrame]

theorem found_of_midByte (p : Peer) (h : p.midByte = true) : p.found = p.scramble.atCommand.withFrame none := by
  rw [Peer.found, closeFrame_of_midByte p h, atCommand_withFrame]

/-- After a frame cut in mid-byte the mode is free, and the rest is the free values of that draw, or of the next one where
the free mode is test mode (20_memory.md R61 e, g). -/
theorem found_of_midByte_freed (p : Peer) (h : p.midByte = true) :
    ∃ n, p.draws ≤ n ∧ p.found = { p.freed n with
      mode := { fixed := Config.freeFixed p.draws, read := Config.freeRead p.draws, test := Config.freeTest p.draws } } := by
  rw [found_of_midByte p h]
  cases ht : p.scramble.mode.test with
  | false => exact ⟨p.draws, le_rfl, by rw [atCommand_of_not_test _ ht]; rfl⟩
  | true => exact ⟨p.draws + 1, Nat.le_succ _, by rw [atCommand_of_test _ ht]; rfl⟩

/-- In test mode each digit and each LED slot shows a free value of its own (20_memory.md R61 e). -/
theorem shown_of_test (p : Peer) (h : p.mode.test = true) (d x : Nat) :
    p.digitShown d = Config.freeShown p.draws d ∧ p.ledLit x = Config.freeLit p.draws x := by
  simp [Peer.digitShown, Peer.ledLit, h]

/-- Settles O59. -/
theorem unspecifiedPeerIsFree : Obligations.UnspecifiedPeerIsFree := by
  refine fun p => ⟨fun hw ht => ?_, fun hw ht => ?_, found_of_midByte_freed p, freed_readRam p, shown_of_test p⟩
  · rw [found_of_whole p hw, atCommand_of_not_test p ht]; rfl
  · rw [found_of_whole p hw, atCommand_of_test p ht, unsettle_withFrame_none]

end Sys2Proof.Machine
end

section
/-! PROOFS. A command byte in a frame of its own, by its class (20_memory.md R53 to R55, R61 a, e), and the rows of command
bytes on the wire (30_encoding.md R81 to R85). -/

namespace Sys2Proof.Machine

/-- A device other than the reference peer takes no byte (20_memory.md R50). -/
theorem loneCommand_of_other (c : Byte) (p : Peer) (h : p.kind ≠ .reference) : p.loneCommand c = p := by
  unfold Peer.loneCommand
  split
  · contradiction
  · rfl
  · rfl

theorem wireCommand_of_other (c : Byte) (s : State) (h : s.peer.kind ≠ .reference) : s.wireCommand c = s := by
  rw [State.wireCommand, loneCommand_of_other c s.peer h]

theorem draws_le_closeFrame (p : Peer) : p.draws ≤ p.closeFrame.draws := by
  unfold Peer.closeFrame
  split
  · exact Nat.le_succ p.draws
  · exact le_rfl

section Classes
variable (c : Byte) (p : Peer) (hk : p.kind = .reference)
include hk

theorem loneCommand_data (hc : c.extractLsb' 6 2 = 1) (ht : c.getLsbD 4 = false) :
    p.loneCommand c =
      { p.found with mode := { fixed := c.getLsbD 2, read := c.getLsbD 1, test := false } } := by
  have hcmd : p.closeFrame.command c =
      p.found.withMode { fixed := c.getLsbD 2, read := c.getLsbD 1, test := false } := by
    simp only [Peer.command, hc, ht]; rfl
  rw [loneCommand_eq c p hk, hcmd, ← found_frame p]
  rfl

theorem loneCommand_test (hc : c.extractLsb' 6 2 = 1) (ht : c.getLsbD 4 = true) :
    p.loneCommand c =
      { p.freed p.closeFrame.draws with mode := { fixed := c.getLsbD 2, read := c.getLsbD 1, test := true } } := by
  have hcmd : p.closeFrame.command c =
      p.closeFrame.unsettle.withMode { fixed := c.getLsbD 2, read := c.getLsbD 1, test := true } := by
    simp only [Peer.command, hc, ht]; rfl
  rw [loneCommand_eq c p hk, hcmd]
  cases hm : p.midByte with
  | false => rw [closeFrame_of_whole p hm]; rfl
  | true => rw [closeFrame_of_midByte p hm]; rfl

theorem loneCommand_disp (hc : c.extractLsb' 6 2 = 2) :
    p.loneCommand c = { p.found with disp := { on := c.getLsbD 3, br := c.extractLsb' 0 3 } } := by
  have hcmd : p.closeFrame.command c = p.found.withDisp { on := c.getLsbD 3, br := c.extractLsb' 0 3 } := by
    simp only [Peer.command, hc]; rfl
  rw [loneCommand_eq c p hk, hcmd, ← found_frame p]
  rfl

theorem loneCommand_addr (hc : c.extractLsb' 6 2 = 3) : p.loneCommand c = { p.found with ptr := pointerOf c } := by
  have hcmd : p.closeFrame.command c = p.found.withPtr (pointerOf c) := by simp only [Peer.command, hc]; rfl
  rw [loneCommand_eq c p hk, hcmd, ← found_frame p]
  rfl

theorem loneCommand_noClass (hc : c.extractLsb' 6 2 = 0) :
    p.loneCommand c =
      { p.freed p.closeFrame.draws with
        mode :=
          { fixed := Config.freeFixed p.closeFrame.draws
            read := Config.freeRead p.closeFrame.draws
            test := Config.freeTest p.closeFrame.draws } } := by
  have hcmd : p.closeFrame.command c = p.closeFrame.scramble := by simp only [Peer.command, hc]; rfl
  rw [loneCommand_eq c p hk, hcmd]
  cases hm : p.midByte with
  | false => rw [closeFrame_of_whole p hm]; rfl
  | true => rw [closeFrame_of_midByte p hm]; rfl

end Classes

section Rows
variable (s : State)

theorem exec_dataCmdWriteAuto : exec .dataCmdWriteAuto s = .next (s.wireCommand (dataCmd false false false)) := rfl
theorem exec_dataCmdWriteFixed : exec .dataCmdWriteFixed s = .next (s.wireCommand (dataCmd false true false)) := rfl
theorem exec_dataCmdRead : exec .dataCmdRead s = .next (s.wireCommand (dataCmd false false true)) := rfl
theorem exec_testCmd (f r : Bool) : exec (.testCmd f r) s = .next (s.wireCommand (dataCmd true f r)) := rfl
theorem exec_displayCtrl (on : Bool) (level : Nat) :
    exec (.displayCtrl on level) s = .next (s.wireCommand (dispCmd on (BitVec.ofNat 3 level))) := rfl
theorem exec_setAddr (addr : Nat) : exec (.setAddr addr) s = .next (s.wireCommand (addrCmd (BitVec.ofNat 8 addr))) := rfl
theorem exec_setAddrWrapped : exec .setAddrWrapped s = .next (s.wireCommand (addrCmd 0xFF)) := rfl

end Rows

/-- A device other than the reference peer has no state that a row of command bytes changes (20_memory.md R50). -/
theorem exec_wire_of_other (i : Instr) (s : State) (hi : latched i = none) (h : s.peer.kind ≠ .reference) :
    exec i s = .next s := by
  obtain ⟨c, hc⟩ := exec_not_latched i s hi
  rw [hc, wireCommand_of_other c s h]

/-- A data-instruction command that leaves test mode off sets the mode to its own bits. -/
theorem wireCommand_dataCmd (f r : Bool) (s : State) (hk : s.peer.kind = .reference) :
    s.wireCommand (dataCmd false f r) =
      { s with peer := { s.peer.found with mode := { fixed := f, read := r, test := false } } } := by
  obtain ⟨hclass, hfixed, hread, htest⟩ := dataCmd_bits false f r
  rw [State.wireCommand, loneCommand_data _ _ hk hclass htest, hfixed, hread]

theorem wireCommand_testCmd (f r : Bool) (s : State) (hk : s.peer.kind = .reference) :
    s.wireCommand (dataCmd true f r) =
      { s with
        peer := { s.peer.freed s.peer.closeFrame.draws with mode := { fixed := f, read := r, test := true } } } := by
  obtain ⟨hclass, hfixed, hread, htest⟩ := dataCmd_bits true f r
  rw [State.wireCommand, loneCommand_test _ _ hk hclass htest, hfixed, hread]

theorem wireCommand_dispCmd (on : Bool) (br : BitVec 3) (s : State) (hk : s.peer.kind = .reference) :
    s.wireCommand (dispCmd on br) = { s with peer := { s.peer.found with disp := { on := on, br := br } } } := by
  obtain ⟨hclass, hon, hbr, -⟩ := dispCmd_bits on br
  rw [State.wireCommand, loneCommand_disp _ _ hk hclass, hon, hbr]

theorem wireCommand_addrCmd (a : Byte) (s : State) (hk : s.peer.kind = .reference) :
    s.wireCommand (addrCmd a) = { s with peer := { s.peer.found with ptr := ramAddr a } } := by
  obtain ⟨hclass, hptr⟩ := addrCmd_bits a
  rw [State.wireCommand, loneCommand_addr _ _ hk hclass, hptr]
  rfl

/-- Settles O29. -/
theorem dataCommandsSetMode : Obligations.DataCommandsSetMode := by
  refine fun s => ⟨fun hk => ⟨?_, ?_, ?_, fun f r => ⟨_, draws_le_closeFrame s.peer, ?_⟩⟩, fun hk => ?_⟩
  · rw [exec_dataCmdWriteAuto, wireCommand_dataCmd _ _ s hk]
  · rw [exec_dataCmdWriteFixed, wireCommand_dataCmd _ _ s hk]
  · rw [exec_dataCmdRead, wireCommand_dataCmd _ _ s hk]
  · rw [exec_testCmd, wireCommand_testCmd f r s hk]
  · have hother := fun i hi => exec_wire_of_other i s hi hk
    exact ⟨hother _ rfl, hother _ rfl, hother _ rfl, fun _ _ => hother _ rfl⟩

/-- Settles O30. -/
theorem displayControlSetsDisplay : Obligations.DisplayControlSetsDisplay := by
  refine fun on level s _ => ⟨fun hk => ?_, exec_wire_of_other _ s rfl⟩
  rw [exec_displayCtrl, wireCommand_dispCmd _ _ s hk]

/-- The low four bits of an address byte made from a number. -/
theorem ramAddr_ofNat (n : Nat) : ramAddr (BitVec.ofNat 8 n) = BitVec.ofNat 4 n := by
  apply BitVec.eq_of_toNat_eq
  simp only [ramAddr, BitVec.extractLsb'_toNat, BitVec.toNat_ofNat, Nat.shiftRight_zero]
  omega

/-- Settles O31: the byte of address 0xFF has the low four bits 15 (assumption 11). -/
theorem addressCommandsSetPointer : Obligations.AddressCommandsSetPointer := by
  refine fun s => ⟨fun hk => ⟨fun addr _ => ?_, ?_⟩, fun hk => ?_⟩
  · rw [exec_setAddr, wireCommand_addrCmd _ s hk, ramAddr_ofNat]
  · have hlast : ramAddr 0xFF = 15 := rfl
    rw [exec_setAddrWrapped, wireCommand_addrCmd _ s hk, hlast]
  · exact ⟨fun _ _ => exec_wire_of_other _ s rfl hk, exec_wire_of_other _ s rfl hk⟩

/-! ## Any byte from other logic -/

/-- A byte of the test row is the command of its own two bits (30_encoding.md R85). -/
theorem dataCmd_of_mask : ∀ c : Byte, c &&& 0xF9 = 0x50 → dataCmd true (c.getLsbD 2) (c.getLsbD 1) = c := by
  decide +kernel

/-- A byte of the display-control row is the command of its own fields (30_encoding.md R82). -/
theorem dispCmd_of_mask :
    ∀ c : Byte, c &&& 0xF0 = 0x80 → dispCmd (c.getLsbD 3) (BitVec.ofNat 3 (c.extractLsb' 0 3).toNat) = c := by
  decide +kernel

/-- A byte of the address row is the command of its own address (30_encoding.md R83). -/
theorem addrCmd_of_mask : ∀ c : Byte, c &&& 0xF0 = 0xC0 → addrCmd (BitVec.ofNat 8 (c.extractLsb' 0 4).toNat) = c := by
  decide +kernel

/-- The instruction of a byte on the wire sends that byte to the peer. -/
theorem exec_of_decode_wire (c : Byte) (i : Instr) (s : State) (h : decode (.wire c) = .ok i) :
    exec i s = .next (s.wireCommand c) := by
  simp only [decode, decodeWire] at h
  split_ifs at h with hauto hfixed hread htest hdisp haddr hwrapped hclass <;> cases h
  · rw [hauto, exec_dataCmdWriteAuto, dataCmd_write_auto]
  · rw [hfixed, exec_dataCmdWriteFixed, dataCmd_write_fixed]
  · rw [hread, exec_dataCmdRead, dataCmd_read]
  · rw [exec_testCmd, dataCmd_of_mask c htest]
  · rw [exec_displayCtrl, dispCmd_of_mask c hdisp]
  · rw [exec_setAddr, addrCmd_of_mask c haddr]
  · rw [hwrapped, exec_setAddrWrapped]; rfl

/-- A byte from other logic reaches the peer, whether a row of the table has it or not (assumption 17). -/
theorem step_wire (s : State) (c : Byte) (hr : s.host.rst = false) (hs : s.seq = .idle)
    (hf : s.fetch = some (.wire c)) : step s = .next ((s.consume (.wire c)).wireCommand c) := by
  cases hd : decode (.wire c) with
  | error e => exact step_undecoded s (.wire c) e hr hs hf hd
  | ok i => rw [step_executes s (.wire c) i hr hs hf hd rfl, exec_of_decode_wire c i _ hd]

/-- Settles O32. -/
theorem busByteIsClassified : Obligations.BusByteIsClassified := by
  intro s c hr hs hreq hbus hk
  have hf : s.fetch = some (.wire c) := by rw [fetch_of_no_requests s hreq, hbus]; rfl
  refine ⟨s.peer.loneCommand c, step_wire s c hr hs hf, fun hc ht => ?_, fun hc ht => ?_, fun hc => ?_, fun hc => ?_,
    fun hc => ?_⟩
  · exact loneCommand_data c s.peer hk hc ht
  · exact ⟨_, draws_le_closeFrame s.peer, loneCommand_test c s.peer hk hc ht⟩
  · exact loneCommand_disp c s.peer hk hc
  · exact loneCommand_addr c s.peer hk hc
  · exact ⟨_, draws_le_closeFrame s.peer, loneCommand_noClass c s.peer hk hc⟩

end Sys2Proof.Machine
end

section
/-! PROOFS. Stores, the display switched off and on, and `INIT` in read mode (20_memory.md R57, R61 d, R63). -/

namespace Sys2Proof.Machine

theorem ready_iff (s : State) :
    s.ready = true ↔ s.pins.idleBus = true ∧ s.peer.kind = .reference ∧ s.peer.frame = none := by
  simp [State.ready, and_assoc]

/-! ## A store -/

theorem stored_readRam_same (a d : Byte) (p : Peer) : (p.stored a d).readRam (ramAddr a).toNat = d := by
  simp [Peer.readRam, Peer.stored]

theorem stored_readRam_other (a d : Byte) (p : Peer) (y : Nat) (h : y ≠ (ramAddr a).toNat) :
    (p.stored a d).readRam y = p.found.readRam y := by
  simp [Peer.readRam, Peer.stored, lookup_insert_other _ _ _ _ h]

theorem storedAt_stored (a d : Byte) (p : Peer) : Peer.storedAt (ramAddr a) d p.found (p.stored a d) := by
  refine ⟨stored_readRam_same a d p, stored_readRam_other a d p, ?_⟩
  rw [← found_frame p]
  rfl

/-- Settles O45: the two frames of `SendData`, on the lines and on the peer. -/
theorem sendDataStores : Obligations.SendDataStores := by
  intro s a d _ hready t
  obtain ⟨hidle, hkind, -⟩ := (ready_iff s).1 hready
  have ht : t = s.emits (transcriptEvents (dataFrames a d)) (s.work.wrote s.timing.tSettle) s.cfg := sendData_effect s a d
  have haddr : BitVec.ofNat 4 a.toNat = ramAddr a := by rw [← ramAddr_ofNat, BitVec.ofNat_toNat, BitVec.setWidth_eq]
  rw [ht, haddr, emits_peer, emits_pins, emits_cfg, emits_trace, observeAll_dataFrames _ a d _ hidle hkind,
    pinsAfter_dataFrames]
  exact ⟨storedAt_stored a d s.peer, rfl, rfl, rfl⟩

/-! ## A host operation that only emits events -/

section Operation
variable (op : BitVec 4) (f : Bool) (a b : Byte) (es : List PinEvent) (w : Work) (c : Cfg) (d : Byte) (s : State)

theorem operation_peer :
    (((s.accept op f a b).emits es w c).complete d false).peer = observeAll s.pins es s.peer := rfl
theorem operation_pins : (((s.accept op f a b).emits es w c).complete d false).pins = pinsAfter s.pins es := rfl

end Operation

/-! ## The display switched off and on -/

theorem digitShown_of_not_test (p : Peer) (h : p.mode.test = false) (d : Nat) :
    p.digitShown d = if p.disp.on then p.readRam (2 * d) else 0 := by simp [Peer.digitShown, h]

theorem ledLit_of_not_test (p : Peer) (h : p.mode.test = false) (x : Nat) :
    p.ledLit x = (p.disp.on && (p.readRam x).getLsbD 0) := by simp [Peer.ledLit, h]

@[simp] theorem configured_readRam (en : Bool) (br : BitVec 3) (p : Peer) (x : Nat) :
    (p.configured en br).readRam x = p.found.readRam x := rfl

/-- What is found after a configuration is what is there. -/
@[simp] theorem configured_found (en : Bool) (br : BitVec 3) (p : Peer) :
    (p.configured en br).found = p.configured en br := found_of_settled _ (configured_frame en br p) rfl

/-- After a configuration digits and LEDs show the display RAM that was found, or nothing (20_memory.md R63). -/
theorem configured_shown (en : Bool) (br : BitVec 3) (p : Peer) (d x : Nat) :
    (p.configured en br).digitShown d = (if en then p.found.readRam (2 * d) else 0) ∧
      (p.configured en br).ledLit x = (en && (p.found.readRam x).getLsbD 0) :=
  ⟨digitShown_of_not_test _ rfl d, ledLit_of_not_test _ rfl x⟩

/-- `ENABLE` on the idle bus configures the peer and leaves the bus idle (42_command_encoder.md R141). -/
theorem exec_enable_ready (f : Bool) (a b : Byte) (s : State) (h : s.ready = true) :
    ∃ t, exec (.enable f a b) s = .next t ∧ t.peer = s.peer.configured f s.cfg.br ∧ t.ready = true := by
  obtain ⟨hidle, hkind, -⟩ := (ready_iff s).1 h
  obtain ⟨hclk, hstb, hdio, -, -⟩ := (idleBus_iff s.pins).1 hidle
  have hpeer := observeAll_configFrames s.pins f s.cfg.br s.peer hidle hkind
  refine ⟨_, exec_enable f a b s, (operation_peer ..).trans hpeer, (ready_iff _).2 ⟨?_, ?_⟩⟩
  · rw [operation_pins, pinsAfter_configFrames, idleBus_iff]
    exact ⟨hclk, hstb, hdio, rfl, rfl⟩
  · rw [operation_peer, hpeer]
    exact ⟨(configured_kind _ _ _).trans hkind, configured_frame _ _ _⟩

/-- Settles O54: both operations leave the display RAM as the first finds it. -/
theorem displayOffKeepsContents : Obligations.DisplayOffKeepsContents := by
  refine ⟨fun p d x ht _ => ⟨digitShown_of_not_test p ht d, ledLit_of_not_test p ht x⟩, ?_⟩
  rintro _ _ a b c d s hready rfl rfl
  obtain ⟨t, hexec, hpeer, htready⟩ := exec_enable_ready false a b s hready
  obtain ⟨u, hexec', hpeer', -⟩ := exec_enable_ready true c d t htready
  refine ⟨t, u, hexec, hexec', fun q x _ => ?_⟩
  obtain ⟨hoff, hdark⟩ := configured_shown false s.cfg.br s.peer q x
  obtain ⟨hon, hlit⟩ := configured_shown true t.cfg.br t.peer q x
  rw [hpeer, configured_found] at hon hlit
  rw [hpeer', hpeer]
  exact ⟨hoff, by simpa using hdark, by simpa using hon, by simpa using hlit⟩

/-! ## `INIT` in read mode -/

/-- `INIT` as the reference peer sees it, from every state of the lines (45_initialization.md R186). -/
theorem exec_init_peer (f : Bool) (a b : Byte) (s : State) (hk : s.peer.kind = .reference) :
    ∃ t, exec (.init f a b) s = .next t ∧
      t.peer = (s.peer.takeFrame (0xC0 :: List.replicate 16 0)).configured f (clamp a) ∧
      t.peer.keys = s.peer.keys ∧ t.peer.keyFeed = s.peer.keyFeed := by
  refine ⟨_, exec_init f a b s, ?_⟩
  rw [operation_peer]
  exact ⟨observeAll_init s.pins f (clamp a) s.peer hk, observeAll_keys _ _ _, observeAll_keyFeed _ _ _⟩

theorem takeFrame_frame (vs : List Byte) (p : Peer) : (p.takeFrame vs).frame = none := closeFrame_frame _

/-- What is found of a peer without known display RAM has none either: the free values of the same epoch, or of the next
draw. -/
theorem found_of_ram_nil (p : Peer) (hf : p.frame = none) (h : p.ram = []) :
    p.found.ram = [] ∧ (p.found.epoch = p.epoch ∨ p.found.epoch = p.draws) := by
  rw [found_eq p hf]
  cases ht : p.mode.test with
  | false => rw [atCommand_of_not_test p ht]; exact ⟨h, .inl rfl⟩
  | true => rw [atCommand_of_test p ht]; exact ⟨rfl, .inr rfl⟩

theorem draws_le_atCommand (p : Peer) : p.draws ≤ p.atCommand.draws := by
  unfold Peer.atCommand
  split
  · exact Nat.le_succ p.draws
  · exact le_rfl

/-- The block-clear frame in read mode leaves the display RAM free (20_memory.md R61 d), whatever mode it leaves. -/
theorem takeFrame_clear_found (p : Peer) (hw : p.midByte = false) (hr : p.mode.read = true) :
    (p.takeFrame (0xC0 :: List.replicate 16 0)).found.ram = [] ∧
      p.draws ≤ (p.takeFrame (0xC0 :: List.replicate 16 0)).found.epoch := by
  have hsame := takeFrame_closeFrame (0xC0 :: List.replicate 16 0) p
  rw [closeFrame_of_whole p hw] at hsame
  obtain ⟨hram, hepoch, hdraws⟩ := takeFrame_clear_unspecified (p.withFrame none) rfl (.inl hr)
  rw [hsame] at hram hepoch hdraws
  have hle : p.draws ≤ (p.withFrame none).atCommand.draws := draws_le_atCommand (p.withFrame none)
  obtain ⟨hnil, hfound | hfound⟩ := found_of_ram_nil _ (takeFrame_frame _ p) hram
  · exact ⟨hnil, by rw [hfound, hepoch]; omega⟩
  · exact ⟨hnil, by rw [hfound, hdraws]; omega⟩

/-- Settles O26. -/
theorem initInReadMode : Obligations.InitInReadMode := by
  intro f a b s hk hw hr
  obtain ⟨t, hexec, hpeer, hkeys, hfeed⟩ := exec_init_peer f a b s hk
  obtain ⟨hram, hdraws⟩ := takeFrame_clear_found s.peer hw hr
  refine ⟨t, _, hexec, hdraws, fun x => ?_, ?_, ?_, hkeys, hfeed, ?_⟩ <;> rw [hpeer]
  · rw [configured_readRam, readRam_of_ram_nil _ x hram]
  · exact configured_mode _ _ _
  · exact configured_disp _ _ _
  · exact configured_frame _ _ _

end Sys2Proof.Machine
end

section
/-! PROOFS. Requests whole and in order (20_memory.md R64, 10_state.md R21). -/

namespace Sys2Proof.Machine

/-- A host operation leaves the host port as it is and the sequencer idle. -/
theorem exec_request_completes (w : ReqWord) (i : Instr) (s : State) (hd : decode (.request w) = .ok i) :
    ∃ t, exec i s = .next t ∧ t.host = s.host ∧ t.seq = .idle := by
  obtain ⟨_, _, hhost, _⟩ := runBeats_frame ((s.acceptWord w).program (reqOp w)) (s.acceptWord w)
  exact ⟨_, exec_of_decode_request s w i hd, hhost, rfl⟩

/-- The step that takes a legal request executes it whole and leaves the machine between operations, with the other requests
still to come. -/
theorem step_request (s : State) (w : ReqWord) (rest : List ReqWord) (i : Instr) (ha : s.atomicIdle = true)
    (hr : s.host.rst = false) (hreq : s.host.requests = w :: rest) (hd : decode (.request w) = .ok i) :
    ∃ t, exec i (s.consume (.request w)) = .next t ∧ step s = .next t ∧ t.atomicIdle = true ∧ t.host.rst = false ∧
      t.host.requests = rest := by
  obtain ⟨hidle, hpe⟩ := (atomicIdle_iff s).1 ha
  obtain ⟨t, hexec, hhost, hseq⟩ := exec_request_completes w i (s.consume (.request w)) hd
  rw [consume_request_host, hreq, List.tail_cons] at hhost
  have hstep : step s = exec i (s.consume (.request w)) :=
    step_executes s _ i hr hidle (fetch_of_requests s w rest hreq) hd (startsPerEvent_eq_none s _ fun _ _ => hpe)
  exact ⟨t, hexec, hstep.trans hexec, (atomicIdle_iff t).2 ⟨hseq, by rw [hhost]; exact hpe⟩, by rw [hhost]; exact hr,
    by rw [hhost]⟩

/-- Settles O55: the first request leaves the machine as the second one's step needs it. -/
theorem requestsRunInOrder : Obligations.RequestsRunInOrder := by
  intro s w x rest i j ha hr hreq hi hj
  obtain ⟨t, hexec, hstep, hta, htr, htreq⟩ := step_request s w (x :: rest) i ha hr hreq hi
  obtain ⟨u, hexec', hstep', -, -, hureq⟩ := step_request t x rest j hta htr htreq hj
  refine ⟨t, u, hexec, hexec', ?_, hureq⟩
  calc s.steps 2
      = t.steps 1 := steps_succ 1 s t hstep
    _ = u.steps 0 := steps_succ 0 t u hstep'
    _ = .next u := steps_zero u

end Sys2Proof.Machine
end

section
/-! PROOFS. The key scan of an unconstrained oracle (20_memory.md R50, 40_pin_interface.md R107). -/

namespace Sys2Proof.Machine

theorem observeAll_other (pins : Pins) (es : List PinEvent) (p : Peer) (h : p.kind ≠ .reference) :
    observeAll pins es p = p := by
  induction es generalizing pins with
  | nil => rfl
  | cons e rest ih => rw [observeAll_cons, observe_other _ _ _ h, ih]

/-- The peer after `n` more free values are used. -/
def Peer.drawn (n : Nat) (p : Peer) : Peer := { p with draws := p.draws + n }

@[simp] theorem drawn_kind (n : Nat) (p : Peer) : (p.drawn n).kind = p.kind := rfl
@[simp] theorem drawn_draws (n : Nat) (p : Peer) : (p.drawn n).draws = p.draws + n := rfl
theorem drawn_drawn (m n : Nat) (p : Peer) : (p.drawn m).drawn n = p.drawn (m + n) := by
  simp [Peer.drawn, Nat.add_assoc]

/-- The `n` levels that the free values from draw `d` on give. -/
def freeLevels (d n : Nat) : List Bool := (List.range n).map fun j => Config.freeBit (d + j)

theorem freeLevels_succ (d n : Nat) : freeLevels d (n + 1) = Config.freeBit d :: freeLevels (d + 1) n := by
  simp [freeLevels, List.range_succ_eq_map, Nat.add_comm, Nat.add_left_comm]

section Oracle
variable (pins : Pins) (p : Peer) (h : p.kind = .oracle)
include h

theorem kind_ne_reference_of_oracle : p.kind ≠ .reference := by rw [h]; decide

/-- One sample is one free value (20_memory.md R50). -/
theorem bitOf_oracle (c : Bool) : bitOf pins c p = (Config.freeBit p.draws, p.drawn 1) := by
  have hsense : senseDio (pins.reading false) p = (Config.freeBit p.draws, p.drawn 1) := by
    simp [senseDio, Pins.reading, h, Peer.drawn]
  rw [bitOf, observe_other _ _ p (kind_ne_reference_of_oracle p h), hsense]
  exact congrArg _ (observe_other _ _ (p.drawn 1) (kind_ne_reference_of_oracle p h))

theorem bitsOf_oracle (n : Nat) (c : Bool) : bitsOf pins n c p = (freeLevels p.draws n, p.drawn n) := by
  induction n generalizing c p with
  | zero => rfl
  | succ n ih =>
    rw [bitsOf, bitOf_oracle pins p h c, ih (p.drawn 1) h true, freeLevels_succ, drawn_drawn, Nat.add_comm 1 n, drawn_draws]

theorem byteRead_oracle : byteRead pins p = (byteOfLevels (freeLevels p.draws 8), p.drawn 8) := by
  rw [byteRead, bitsOf_oracle pins p h]

theorem peerAfterReads_oracle (n : Nat) : peerAfterReads pins p n = p.drawn (8 * n) := by
  induction n with
  | zero => rfl
  | succ n ih => rw [peerAfterReads, ih, byteRead_oracle _ (p.drawn (8 * n)) h, drawn_drawn, Nat.mul_succ]

theorem scanPeer_oracle : scanPeer pins p = p := observeAll_other _ _ p (kind_ne_reference_of_oracle p h)

theorem scanned_oracle (k : Nat) : scanned pins p k = byteOfLevels (freeLevels (p.draws + 8 * k) 8) := by
  rw [scanned, scanPeer_oracle pins p h, peerAfterReads_oracle _ p h, byteRead_oracle _ (p.drawn (8 * k)) h, drawn_draws]

/-- After the whole key-scan frame 32 free values are used, and nothing else of the oracle differs. -/
theorem peerAfterScan_oracle (old new : Pins) :
    (peerAfterReads (scanPins pins) (scanPeer pins p) 4).observe old new = p.drawn 32 := by
  rw [scanPeer_oracle pins p h, peerAfterReads_oracle _ p h]
  exact observe_other old new (p.drawn 32) (kind_ne_reference_of_oracle p h)

end Oracle

theorem completed_peer (op : BitVec 4) (f : Bool) (a b : Byte) (e : Effect) (s : State) :
    (s.completed op f a b e).peer = e.peer := rfl

theorem completed_data (op : BitVec 4) (f : Bool) (a b : Byte) (e : Effect) (s : State) :
    (s.completed op f a b e).rsp.data = e.data := rfl

/-- Settles O23. -/
theorem scanOfOracleIsFree : Obligations.ScanOfOracleIsFree := by
  intro f a b s h
  refine ⟨_, exec_scanKeys_completed f a b s, ?_, ?_⟩
  · rw [completed_peer, peerAfterScan_oracle s.pins s.peer h]
    rfl
  · rw [completed_data]
    calc scannedKeys s.pins s.peer
        = keyDecode (byteOfLevels (freeLevels (s.peer.draws + 8 * 0) 8)) (byteOfLevels (freeLevels (s.peer.draws + 8 * 1) 8))
            (byteOfLevels (freeLevels (s.peer.draws + 8 * 2) 8)) (byteOfLevels (freeLevels (s.peer.draws + 8 * 3) 8)) := by
          simp only [scannedKeys, scanned_oracle s.pins s.peer h]
      _ = _ := rfl

end Sys2Proof.Machine
end

section
/-! PROOFS. The decoder and the encoder (30_encoding.md R70 to R85): which packets decode, and that the two are inverse. -/

namespace Sys2Proof.Machine

/-! ## Request words -/

/-- A request word decodes exactly when its `zero` field is 0 and its `op` at most 8 (30_encoding.md R73). -/
theorem decode_request_isOk_iff (w : ReqWord) :
    (∃ i, decode (.request w) = .ok i) ↔ reqZero w = 0 ∧ (reqOp w).toNat ≤ 8 := by
  simp only [decode, decodeRequest]
  split
  next hz =>
    split
    case h_10 =>
      refine iff_of_false nofun fun ⟨_, hle⟩ => ?_
      simp only [imp_false] at *
      omega
    all_goals next hn => exact iff_of_true ⟨_, rfl⟩ ⟨hz, by omega⟩
  next hz => exact iff_of_false nofun fun ⟨hz', _⟩ => hz hz'

/-- Every other word is illegal (30_encoding.md R74). -/
theorem decode_request_error (w : ReqWord) (h : ¬(reqZero w = 0 ∧ (reqOp w).toNat ≤ 8)) :
    ∃ e, decode (.request w) = .error e := by
  cases hd : decode (.request w) with
  | error e => exact ⟨e, rfl⟩
  | ok i => exact absurd ((decode_request_isOk_iff w).1 ⟨i, hd⟩) h

/-- The code of what decodes is the `op` field (30_encoding.md R72). -/
theorem requestOp_of_decode_request (w : ReqWord) (i : Instr) (h : decode (.request w) = .ok i) :
    requestOp i = some (reqOp w) := by
  rw [requestOp_eq_latched, latched_of_decode_request w i h]; rfl

/-- The mask of the request rows keeps `op` and `zero` and clears the operands (30_encoding.md R72). -/
theorem fields_and_mask (w : ReqWord) :
    reqOp (w &&& 0xFE0000#24) = reqOp w ∧ reqZero (w &&& 0xFE0000#24) = reqZero w ∧ reqF (w &&& 0xFE0000#24) = false ∧
      reqA (w &&& 0xFE0000#24) = 0 ∧ reqB (w &&& 0xFE0000#24) = 0 := by
  simp only [reqOp, reqZero, reqF, reqA, reqB, BitVec.extractLsb'_and, BitVec.getLsbD_and]
  refine ⟨?_, ?_, ?_, ?_, ?_⟩
  · exact BitVec.and_allOnes
  · exact BitVec.and_allOnes
  · exact Bool.and_false _
  · exact BitVec.and_zero
  · exact BitVec.and_zero

/-- The `match` word of request row `n`. -/
theorem match_word_eq : ∀ n : BitVec 4, n.setWidth 24 <<< 20 = requestWord n false 0 0 := by decide

/-- A word meets the mask and match of row `n` exactly when its `zero` field is 0 and its `op` is `n`. -/
theorem meets_row_iff (w : ReqWord) (n : BitVec 4) :
    w &&& 0xFE0000#24 = n.setWidth 24 <<< 20 ↔ reqZero w = 0 ∧ reqOp w = n := by
  obtain ⟨hop, hzero, hf, ha, hb⟩ := fields_and_mask w
  rw [match_word_eq]
  constructor
  · intro h
    rw [h] at hop hzero
    exact ⟨by rw [← hzero, reqZero_requestWord], by rw [← hop, reqOp_requestWord]⟩
  · rintro ⟨hz, rfl⟩
    rw [← requestWord_fields (w &&& 0xFE0000#24) (hzero.trans hz), hop, hf, ha, hb]

/-- Settles O9: what decodes is decided by `zero` and `op`, and so is what meets a row. -/
theorem requestDecodingIsTotal : Obligations.RequestDecodingIsTotal := by
  refine fun w => ⟨fun h => ?_, decode_request_error w, fun n hn => ?_⟩
  · obtain ⟨i, hd⟩ := (decode_request_isOk_iff w).2 h
    exact ⟨i, hd, requestOp_of_decode_request w i hd⟩
  · rw [meets_row_iff]
    constructor
    · rintro ⟨hz, rfl⟩
      obtain ⟨i, hd⟩ := (decode_request_isOk_iff w).2 ⟨hz, hn⟩
      exact ⟨i, hd, requestOp_of_decode_request w i hd⟩
    · rintro ⟨i, hd, hi⟩
      rw [requestOp_of_decode_request w i hd, Option.some.injEq] at hi
      exact ⟨((decode_request_isOk_iff w).1 ⟨i, hd⟩).1, hi⟩

/-- The state in which an illegal request completes (30_encoding.md R74, assumption 15). -/
theorem takeUndecoded_request (s : State) (w : ReqWord) :
    (s.consume (.request w)).takeUndecoded (.request w) =
      { s with
        host := { s.host with requests := s.host.requests.tail }
        operands := { op := reqOp w, f := reqF w, a := reqA w, b := reqB w }
        rsp := { data := 0, illegal := true, valid := true }
        seq := .idle } := rfl

/-- Settles O8: the word does not decode, so the step takes it as an illegal request. -/
theorem illegalRequestCompletes : Obligations.IllegalRequestCompletes := by
  intro s w rest hr hs hreq hill
  obtain ⟨e, hd⟩ := decode_request_error w fun ⟨hz, hop⟩ => hill.elim (fun h => absurd hop (by omega)) (absurd hz)
  rw [step_undecoded s (.request w) e hr hs (fetch_of_requests s w rest hreq) hd, takeUndecoded_request, hreq, ← hs]
  rfl

/-! ## The two directions: host operations by their operand latches, command bytes by their row -/

/-- The request codes of the table (30_encoding.md R72). -/
theorem op_of_latched (i : Instr) (o : Operands) (h : latched i = some o) : o.op.toNat ≤ 8 := by
  cases i <;> cases h <;> simp

/-- A host operation is named by its operand latches. -/
theorem latched_injective (i j : Instr) (o : Operands) (hi : latched i = some o) (hj : latched j = some o) : i = j := by
  cases i <;> cases hi <;> cases j <;> cases hj <;> rfl

/-- A host operation encodes to the request word of its operand latches (30_encoding.md R70). -/
theorem encode_of_latched (i : Instr) (o : Operands) (h : latched i = some o) :
    encode i = .request (requestWord o.op o.f o.a o.b) := by
  cases i <;> cases h <;> rfl

/-- Only the two rows of command bytes with a number can be ill formed. -/
theorem wellFormed_of_latched (i : Instr) (o : Operands) (h : latched i = some o) : i.wellFormed = true := by
  cases i <;> cases h <;> rfl

/-- The word of a host operation decodes, and what it decodes to has the same operand latches. -/
theorem decode_encode_of_latched (i : Instr) (o : Operands) (h : latched i = some o) : decode (encode i) = .ok i := by
  rw [encode_of_latched i o h]
  obtain ⟨j, hj⟩ := (decode_request_isOk_iff (requestWord o.op o.f o.a o.b)).2
    ⟨reqZero_requestWord .., by rw [reqOp_requestWord]; exact op_of_latched i o h⟩
  have hlatched := latched_of_decode_request _ j hj
  rw [reqOp_requestWord, reqF_requestWord, reqA_requestWord, reqB_requestWord] at hlatched
  rw [hj, latched_injective i j o h hlatched]

/-- The encoder's byte of the test row is the command that the row executes (30_encoding.md R85). -/
theorem encode_testCmd (f r : Bool) : encode (.testCmd f r) = .wire (dataCmd true f r) := by
  cases f <;> cases r <;> rfl

/-- So is the byte of the display-control row (30_encoding.md R82). -/
theorem encode_displayCtrl (on : Bool) (level : Nat) :
    encode (.displayCtrl on level) = .wire (dispCmd on (BitVec.ofNat 3 level)) := by
  have h : ∀ (on : Bool) (br : BitVec 3), 0b1000#4 ++ BitVec.ofBool on ++ br = dispCmd on br := by decide
  exact congrArg Packet.wire (h on (BitVec.ofNat 3 level))

/-- So is the byte of the address row, with an address of four bits (30_encoding.md R83). -/
theorem encode_setAddr (a : BitVec 4) : encode (.setAddr a.toNat) = .wire (addrCmd (BitVec.ofNat 8 a.toNat)) := by
  revert a; decide

theorem decode_testCmd : ∀ f r : Bool, decode (.wire (dataCmd true f r)) = .ok (.testCmd f r) := by decide

theorem decode_displayCtrl :
    ∀ (on : Bool) (br : BitVec 3), decode (.wire (dispCmd on br)) = .ok (.displayCtrl on br.toNat) := by decide

theorem decode_setAddr :
    ∀ a : BitVec 4, decode (.wire (addrCmd (BitVec.ofNat 8 a.toNat))) = .ok (.setAddr a.toNat) := by decide

/-- The numbers of the two rows that carry one fit their fields, so nothing is cut off. -/
theorem decode_encode_of_not_latched (i : Instr) (hl : latched i = none) (hw : i.wellFormed = true) :
    decode (encode i) = .ok i := by
  cases i with
  | dataCmdWriteAuto => rfl
  | dataCmdWriteFixed => rfl
  | dataCmdRead => rfl
  | setAddrWrapped => rfl
  | testCmd f r => rw [encode_testCmd, decode_testCmd]
  | displayCtrl on level =>
    have hlevel : level ≤ 7 := of_decide_eq_true hw
    rw [encode_displayCtrl, decode_displayCtrl, BitVec.toNat_ofNat, Nat.mod_eq_of_lt (by omega)]
  | setAddr addr =>
    have haddr : addr ≤ 15 := of_decide_eq_true hw
    obtain ⟨a, rfl⟩ : ∃ a : BitVec 4, addr = a.toNat := ⟨.ofNat 4 addr, by rw [BitVec.toNat_ofNat]; omega⟩
    rw [encode_setAddr, decode_setAddr]
  | _ => cases hl

/-- Settles O10: host operations by their operand latches, command bytes by their row. -/
theorem decodeOfEncode : Obligations.DecodeOfEncode := by
  intro i hw
  cases hl : latched i with
  | some o => exact decode_encode_of_latched i o hl
  | none => exact decode_encode_of_not_latched i hl hw

theorem encode_of_decode_request (w : ReqWord) (i : Instr) (h : decode (.request w) = .ok i) :
    i.wellFormed = true ∧ encode i = .request w := by
  have hl := latched_of_decode_request w i h
  have hz : reqZero w = 0 := ((decode_request_isOk_iff w).1 ⟨i, h⟩).1
  refine ⟨wellFormed_of_latched i _ hl, ?_⟩
  rw [encode_of_latched i _ hl, requestWord_fields w hz]

theorem encode_of_decode_wire (c : Byte) (i : Instr) (h : decode (.wire c) = .ok i) :
    i.wellFormed = true ∧ encode i = .wire c := by
  simp only [decode, decodeWire] at h
  split_ifs at h with hauto hfixed hread htest hdisp haddr hwrapped hclass <;> cases h
  · exact ⟨rfl, by rw [hauto]; rfl⟩
  · exact ⟨rfl, by rw [hfixed]; rfl⟩
  · exact ⟨rfl, by rw [hread]; rfl⟩
  · exact ⟨rfl, by rw [encode_testCmd, dataCmd_of_mask c htest]⟩
  · have hbr := (c.extractLsb' 0 3).isLt
    exact ⟨decide_eq_true (by omega), by rw [encode_displayCtrl, dispCmd_of_mask c hdisp]⟩
  · have ha := (c.extractLsb' 0 4).isLt
    exact ⟨decide_eq_true (by omega), by rw [encode_setAddr, addrCmd_of_mask c haddr]⟩
  · exact ⟨rfl, by rw [hwrapped]; rfl⟩

/-- Settles O11: a request word is made of its fields, a command byte of those of its row. -/
theorem encodeOfDecode : Obligations.EncodeOfDecode := by
  intro p i h
  cases p with
  | request w => exact encode_of_decode_request w i h
  | wire c => exact encode_of_decode_wire c i h

/-- Settles O12: each word is closed, so the decoder computes. -/
theorem sampleWords : Obligations.SampleWords := by
  unfold Obligations.SampleWords
  decide

end Sys2Proof.Machine
end

section
/-! PROOFS. The segments that a segment byte lights (30_encoding.md R86). -/

namespace Sys2Proof.Machine

/-- A segment lit by a byte is one that a set bit has, or the dot with bit 7. -/
theorem mem_litSegments (assign : List Segment) (v : Byte) (seg : Segment) :
    seg ∈ litSegments assign v ↔
      (∃ i, assign[i]? = some seg ∧ v.getLsbD i = true) ∨ (seg = .dot ∧ v.getLsbD 7 = true) := by
  have hbits : seg ∈ (assign.zipIdx.filter fun p => v.getLsbD p.2).map Prod.fst ↔
      ∃ i, assign[i]? = some seg ∧ v.getLsbD i = true := by
    simp [List.mem_zipIdx_iff_getElem?]
  have hdot : seg ∈ (if v.getLsbD 7 then [Segment.dot] else []) ↔ seg = .dot ∧ v.getLsbD 7 = true := by
    cases v.getLsbD 7 <;> simp
  rw [litSegments, List.mem_append, hbits, hdot]

/-- Settles O58. -/
theorem segmentsLit : Obligations.SegmentsLit := by
  refine ⟨fun assign v hdot => ⟨?_, fun seg hseg => ?_⟩, rfl⟩
  · have hbits : ¬∃ i, assign[i]? = some Segment.dot ∧ v.getLsbD i = true := fun ⟨i, hi, _⟩ =>
      hdot (List.mem_of_getElem? hi)
    rw [mem_litSegments, or_iff_right hbits, and_iff_right rfl]
  · rw [mem_litSegments, or_iff_left fun h => hseg h.1]

end Sys2Proof.Machine
end

section
/-! PROOFS. Operations that run the same beats complete alike, whatever their operand latches hold (30_encoding.md R75,
R92). -/

namespace Sys2Proof.Machine

/-- The same state with other operand latches. -/
def State.withOperands (o : Operands) (s : State) : State := { s with operands := o }

theorem write_withOperands (o : Operands) (w : RegWrite) (s : State) :
    (s.withOperands o).write w = (s.write w).withOperands o := by cases w <;> rfl

theorem writes_withOperands (o : Operands) (ws : List RegWrite) (s : State) :
    ws.foldl State.write (s.withOperands o) = (ws.foldl State.write s).withOperands o := by
  induction ws generalizing s with
  | nil => rfl
  | cons w rest ih => rw [List.foldl_cons, write_withOperands, ih, List.foldl_cons]

theorem act_withOperands (o : Operands) (a : Act) (s : State) :
    (s.withOperands o).act a = (s.act a).withOperands o := by
  cases a with
  | pin e => cases e <;> rfl
  | shiftOut => rfl
  | sampleIn => rfl

theorem beat_withOperands (o : Operands) (b : Beat) (s : State) :
    (s.withOperands o).beat b = (s.beat b).withOperands o := by
  simp only [State.beat, writes_withOperands, act_withOperands]

/-- No beat reads the operand latches or the sequencer's position. -/
theorem runBeats_withOperands_atSeq (o : Operands) (q : Seq) (bs : List Beat) (s : State) :
    ((s.withOperands o).atSeq q).runBeats bs = ((s.runBeats bs).withOperands o).atSeq q := by
  induction bs generalizing s with
  | nil => rfl
  | cons b rest ih => rw [runBeats_cons, beat_atSeq, beat_withOperands, ih, runBeats_cons]

/-- A result that depends on the working registers alone, as every operation's does (10_state.md R15). -/
def ReadsWork (r : State → Byte) : Prop := ∀ s t : State, s.work = t.work → r s = r t

theorem noResult_readsWork : ReadsWork noResult := fun _ _ _ => rfl

theorem keysResult_readsWork : ReadsWork keysResult := fun _ _ h => congrArg Work.keys h

/-- The beats and the result decide what an operation does, but for the operand latches. -/
theorem perform_withOperands (op op' : BitVec 4) (f f' : Bool) (a b a' b' : Byte) (bs : List Beat) (r : State → Byte)
    (s : State) (hr : ReadsWork r) :
    s.perform op' f' a' b' bs r = (s.perform op f a b bs r).withOperands { op := op', f := f', a := a', b := b' } := by
  have haccept : s.accept op' f' a' b' =
      ((s.accept op f a b).withOperands { op := op', f := f', a := a', b := b' }).atSeq (.running op' 0) := rfl
  have hresult := hr ((((s.accept op f a b).runBeats bs).withOperands { op := op', f := f', a := a', b := b' }).atSeq
    (.running op' 0)) ((s.accept op f a b).runBeats bs) rfl
  simp only [State.perform, haccept, runBeats_withOperands_atSeq, hresult]
  rfl

/-- Two instructions that run the same beats with the same result complete in states that differ in the operand latches
only. -/
theorem exec_same_but_operands {i j : Instr} {op op' : BitVec 4} {f f' : Bool} {a b a' b' : Byte} {bs : List Beat}
    {r : State → Byte} {s : State} (hr : ReadsWork r) (hi : exec i s = .next (s.perform op f a b bs r))
    (hj : exec j s = .next (s.perform op' f' a' b' bs r)) :
    ∃ t u, exec i s = .next t ∧ exec j s = .next u ∧ t = { u with operands := t.operands } := by
  refine ⟨_, _, hi, hj, ?_⟩
  rw [perform_withOperands op op' f f' a b a' b' bs r s hr]
  rfl

/-- Settles O33: the beats of each operation are made of the fields it reads, so both requests run the same list. -/
theorem unreadFieldsAreIgnored : Obligations.UnreadFieldsAreIgnored := by
  intro f g a b c d s same
  refine ⟨?init, ?enable, ?setBrightness, ?displaySegments, ?clearSegments, ?setLed, ?clearLeds, ?scanKeys⟩
  case scanKeys => exact exec_same_but_operands keysResult_readsWork rfl rfl
  all_goals exact exec_same_but_operands noResult_readsWork rfl rfl

/-- Settles O34: the beats of `DISPLAY_DIGIT` are those of the mapped segments (43_display_memory.md R154). -/
theorem digitIsSegments : Obligations.DigitIsSegments := fun _ _ _ _ _ =>
  exec_same_but_operands noResult_readsWork rfl rfl

end Sys2Proof.Machine
end

section
/-! PROOFS. The clears as their eight operations one after another (43_display_memory.md R157, R159, 30_encoding.md R92). -/

namespace Sys2Proof.Machine

/-- From `s` to `t` the adapter emitted `es`: the trace, the lines and the device on the bus are those after these events, and
`CFG` is as it was. -/
structure Emitted (es : List PinEvent) (s t : State) : Prop where
  trace : t.trace = es.reverse ++ s.trace
  pins : t.pins = pinsAfter s.pins es
  peer : t.peer = observeAll s.pins es s.peer
  cfg : t.cfg = s.cfg

theorem Emitted.refl (s : State) : Emitted [] s s := ⟨rfl, rfl, rfl, rfl⟩

theorem Emitted.trans {es fs : List PinEvent} {s t u : State} (h : Emitted es s t) (h' : Emitted fs t u) :
    Emitted (es ++ fs) s u where
  trace := by rw [h'.trace, h.trace, List.reverse_append, List.append_assoc]
  pins := by rw [h'.pins, h.pins, pinsAfter_append]
  peer := by rw [h'.peer, h.pins, h.peer, observeAll_append]
  cfg := h'.cfg.trans h.cfg

/-- The events decide the rest. -/
theorem Emitted.unique {es : List PinEvent} {s t u : State} (h : Emitted es s t) (h' : Emitted es s u) :
    t.trace = u.trace ∧ t.pins = u.pins ∧ t.peer = u.peer ∧ t.cfg = u.cfg :=
  ⟨h.trace.trans h'.trace.symm, h.pins.trans h'.pins.symm, h.peer.trans h'.peer.symm, h.cfg.trans h'.cfg.symm⟩

/-- A chain of states, each after one more list of events. -/
theorem emitted_chain (es : Nat → List PinEvent) (r : Nat → State) (n : Nat)
    (h : ∀ p, p < n → Emitted (es p) (r p) (r (p + 1))) : Emitted ((List.range n).flatMap es) (r 0) (r n) := by
  induction n with
  | zero => exact Emitted.refl _
  | succ n ih =>
    have hinit := ih fun p hp => h p (Nat.lt_succ_of_lt hp)
    have hall := hinit.trans (h n (Nat.lt_succ_self n))
    rwa [List.range_succ, List.flatMap_append, List.flatMap_singleton]

/-- An operation that writes no configuration: what it leaves is what its events leave, with an empty response. -/
theorem emitted_of_exec {i : Instr} {op : BitVec 4} {f : Bool} {a b : Byte} {es : List PinEvent} {w : Work} {s t : State}
    (h : exec i s = .next t)
    (hi : exec i s = .next (((s.accept op f a b).emits es w s.cfg).complete 0 false)) :
    Emitted es s t ∧ t.rsp = { data := 0, illegal := false, valid := true } := by
  rw [hi] at h
  cases h
  exact ⟨⟨rfl, rfl, rfl, rfl⟩, rfl⟩

/-- The frames of clearing eight positions are those of each position in turn. -/
theorem clearEight_frames (addr : Byte → Byte) :
    clearFrames addr 8 0 = (List.range 8).flatMap fun p => dataFrames (addr (BitVec.ofNat 8 p)) 0 := rfl

theorem clearEight_events (addr : Byte → Byte) :
    transcriptEvents (clearFrames addr 8 0) =
      (List.range 8).flatMap fun p => transcriptEvents (dataFrames (addr (BitVec.ofNat 8 p)) 0) := by
  rw [clearEight_frames, transcriptEvents, List.flatMap_assoc]
  rfl

/-- Clearing eight positions at once leaves what clearing one after another leaves. -/
theorem clear_is_eight (addr : Byte → Byte) (r : Nat → State) (t : State)
    (hone : ∀ p, p < 8 → Emitted (transcriptEvents (dataFrames (addr (BitVec.ofNat 8 p)) 0)) (r p) (r (p + 1)) ∧
      (r (p + 1)).rsp = { data := 0, illegal := false, valid := true })
    (hall : Emitted (transcriptEvents (clearFrames addr 8 0)) (r 0) t ∧
      t.rsp = { data := 0, illegal := false, valid := true }) :
    t.trace = (r 8).trace ∧ t.pins = (r 8).pins ∧ t.peer = (r 8).peer ∧ t.cfg = (r 8).cfg ∧ t.rsp = (r 8).rsp := by
  obtain ⟨hemitted, hrsp⟩ := hall
  have hchain := emitted_chain _ r 8 fun p hp => (hone p hp).1
  rw [← clearEight_events] at hchain
  obtain ⟨htrace, hpins, hpeer, hcfg⟩ := hemitted.unique hchain
  exact ⟨htrace, hpins, hpeer, hcfg, hrsp.trans (hone 7 (by decide)).2.symm⟩

theorem positionOk_ofNat (p : Nat) (h : p < 8) : positionOk (BitVec.ofNat 8 p) = true := by
  rw [positionOk, decide_eq_true_eq, BitVec.toNat_ofNat]
  omega

/-- Settles O35: both ways emit the same events, which decide the trace, the lines and the peer. -/
theorem clearsAreEightOperations : Obligations.ClearsAreEightOperations := by
  intro f g a b r
  constructor
  · intro h
    have hall := exec_clearSegments f a b (r 0)
    exact ⟨_, hall, clear_is_eight digitAddr r _
      (fun p hp => emitted_of_exec (h p hp) (exec_displaySegments g _ 0 (r p) (positionOk_ofNat p hp)))
      (emitted_of_exec hall hall)⟩
  · intro h
    have hall := exec_clearLeds f a b (r 0)
    exact ⟨_, hall, clear_is_eight ledAddr r _
      (fun p hp => emitted_of_exec (h p hp) (exec_setLed g _ 0 (r p) (positionOk_ofNat p hp)))
      (emitted_of_exec hall hall)⟩

end Sys2Proof.Machine
end

section
/-! PROOFS. The frames that the adapter emits (30_encoding.md R84, R89). -/

namespace Sys2Proof.Machine

/-- The shapes of a frame and the command bytes it may begin with (30_encoding.md R84, R89): one command byte, an address
with one data byte, the block clear, the key scan. -/
def EmittedShape (fr : List Transfer) : Prop :=
  (∃ c : Byte, fr = [.w c] ∧ (c = 0x40 ∨ c = 0x44 ∨ (0x80 ≤ c.toNat ∧ c.toNat ≤ 0x8F))) ∨
    (∃ c d : Byte, fr = [.w c, .w d] ∧ ((0xC0 ≤ c.toNat ∧ c.toNat ≤ 0xCE) ∨ c = 0xFF)) ∨
    fr = .w 0xC0 :: List.replicate 16 (.w 0x00) ∨
    ∃ b0 b1 b2 b3 : Byte, fr = [.w 0x42, .r b0, .r b1, .r b2, .r b3]

/-- An address byte that `SendData` may send. -/
def addrByteOk (c : Byte) : Bool := (decide (0xC0 ≤ c.toNat) && decide (c.toNat ≤ 0xCE)) || c == 0xFF

theorem addrByteOk_digit : ∀ p : Byte, positionOk p = true → addrByteOk (0xC0 ||| digitAddr p) = true := by
  decide +kernel

/-- The LED address of position 0 wraps to `0xFF` (43_display_memory.md R156). -/
theorem addrByteOk_led : ∀ p : Byte, positionOk p = true → addrByteOk (0xC0 ||| ledAddr p) = true := by
  decide +kernel

theorem dispCmd_range : ∀ (en : Bool) (br : BitVec 3), 0x80 ≤ (dispCmd en br).toNat ∧ (dispCmd en br).toNat ≤ 0x8F := by
  decide

theorem emittedShape_config (en : Bool) (br : BitVec 3) : ∀ fr ∈ configFrames en br, EmittedShape fr := by
  intro fr hfr
  rcases List.mem_pair.1 hfr with rfl | rfl
  · exact .inl ⟨0x40, rfl, .inl rfl⟩
  · exact .inl ⟨_, rfl, .inr (.inr (dispCmd_range en br))⟩

theorem emittedShape_data (a d : Byte) (h : addrByteOk (0xC0 ||| a) = true) :
    ∀ fr ∈ dataFrames a d, EmittedShape fr := by
  intro fr hfr
  rcases List.mem_pair.1 hfr with rfl | rfl
  · exact .inl ⟨0x44, rfl, .inr (.inl rfl)⟩
  · exact .inr (.inl ⟨_, d, rfl, by simpa [addrByteOk] using h⟩)

theorem emittedShape_init (en : Bool) (br : BitVec 3) : ∀ fr ∈ initFrames en br, EmittedShape fr := by
  intro fr hfr
  rcases List.mem_cons.1 hfr with rfl | hconfig
  · exact .inr (.inr (.inl rfl))
  · exact emittedShape_config en br fr hconfig

theorem emittedShape_clear (addr : Byte → Byte) (h : ∀ p, positionOk p = true → addrByteOk (0xC0 ||| addr p) = true) :
    ∀ fr ∈ clearFrames addr 8 0, EmittedShape fr := by
  intro fr hfr
  rw [clearEight_frames, List.mem_flatMap] at hfr
  obtain ⟨p, hp, hfr⟩ := hfr
  exact emittedShape_data _ 0 (h _ (positionOk_ofNat p (List.mem_range.1 hp))) fr hfr

/-- From `s` to `t` whole frames of the given shapes were emitted, after the leading events of `INIT` or after none. -/
def EmitsFrames (s t : State) : Prop :=
  ∃ lead fs, t.trace = (lead ++ transcriptEvents fs).reverse ++ s.trace ∧
    (lead = [] ∨ lead = [.dirAllOut, .stb true, .clk true]) ∧ ∀ fr ∈ fs, EmittedShape fr

theorem emitsFrames_of_frames {s t : State} (fs : List (List Transfer))
    (ht : t.trace = (transcriptEvents fs).reverse ++ s.trace) (hfs : ∀ fr ∈ fs, EmittedShape fr) : EmitsFrames s t :=
  ⟨[], fs, ht, .inl rfl, hfs⟩

theorem emitsFrames_of_nothing {s t : State} (ht : t.trace = s.trace) : EmitsFrames s t :=
  emitsFrames_of_frames [] ht nofun

theorem emitsFrames_of_scan {s t : State} (b0 b1 b2 b3 : Byte)
    (ht : t.trace = (frameEvents [.w 0x42, .r b0, .r b1, .r b2, .r b3]).reverse ++ s.trace) : EmitsFrames s t := by
  refine emitsFrames_of_frames [[.w 0x42, .r b0, .r b1, .r b2, .r b3]] ?_ fun fr hfr => ?_
  · rw [ht, transcriptEvents, List.flatMap_singleton]
  · exact .inr (.inr (.inr ⟨b0, b1, b2, b3, List.mem_singleton.1 hfr⟩))

/-- Every instruction answers a state that its frames lead to. -/
theorem exec_emitsFrames (i : Instr) (s : State) : ∃ t, exec i s = .next t ∧ EmitsFrames s t := by
  cases hl : latched i with
  | none =>
    obtain ⟨c, hc⟩ := exec_not_latched i s hl
    exact ⟨_, hc, emitsFrames_of_nothing rfl⟩
  | some o =>
    cases i with
    | init f a b => exact ⟨_, exec_init f a b s, _, _, rfl, .inr rfl, emittedShape_init _ _⟩
    | enable f a b => exact ⟨_, exec_enable f a b s, emitsFrames_of_frames _ rfl (emittedShape_config _ _)⟩
    | setBrightness f a b => exact ⟨_, exec_setBrightness f a b s, emitsFrames_of_frames _ rfl (emittedShape_config _ _)⟩
    | displaySegments f a b =>
      cases h : positionOk a with
      | false => exact ⟨_, exec_displaySegments_out f a b s h, emitsFrames_of_nothing rfl⟩
      | true =>
        exact ⟨_, exec_displaySegments f a b s h, emitsFrames_of_frames _ rfl (emittedShape_data _ _ (addrByteOk_digit a h))⟩
    | displayDigit f a b =>
      cases h : positionOk a with
      | false => exact ⟨_, exec_displayDigit_out f a b s h, emitsFrames_of_nothing rfl⟩
      | true =>
        exact ⟨_, exec_displayDigit f a b s h, emitsFrames_of_frames _ rfl (emittedShape_data _ _ (addrByteOk_digit a h))⟩
    | setLed f a b =>
      cases h : positionOk a with
      | false => exact ⟨_, exec_setLed_out f a b s h, emitsFrames_of_nothing rfl⟩
      | true => exact ⟨_, exec_setLed f a b s h, emitsFrames_of_frames _ rfl (emittedShape_data _ _ (addrByteOk_led a h))⟩
    | clearSegments f a b =>
      exact ⟨_, exec_clearSegments f a b s, emitsFrames_of_frames _ rfl (emittedShape_clear _ addrByteOk_digit)⟩
    | clearLeds f a b => exact ⟨_, exec_clearLeds f a b s, emitsFrames_of_frames _ rfl (emittedShape_clear _ addrByteOk_led)⟩
    | scanKeys f a b => exact ⟨_, exec_scanKeys_completed f a b s, emitsFrames_of_scan _ _ _ _ rfl⟩
    | _ => cases hl

/-- Settles O42: every operation is one of the cases of `exec_emitsFrames`. -/
theorem emittedFrames : Obligations.EmittedFrames := by
  intro i s t h
  obtain ⟨u, hu, hframes⟩ := exec_emitsFrames i s
  rw [hu] at h
  cases h
  exact hframes

end Sys2Proof.Machine
end

section
/-! PROOFS. The lines and the open frame after every instruction, and between whole operations (40_pin_interface.md R111,
10_state.md R12, 20_memory.md R52). -/

namespace Sys2Proof.Machine

/-! ## The events of an operation that only writes to the idle bus -/

/-- The events of the operations other than `INIT` and `SCAN_KEYS`: none, a configuration, one byte of display RAM, or eight
positions cleared (42_command_encoder.md R138, 43_display_memory.md R151 to R159). -/
inductive WriteEvents : List PinEvent → Prop where
  | nothing : WriteEvents []
  | config (en : Bool) (br : BitVec 3) : WriteEvents (transcriptEvents (configFrames en br))
  | data (a d : Byte) : WriteEvents (transcriptEvents (dataFrames a d))
  | clear (addr : Byte → Byte) : WriteEvents (transcriptEvents (clearFrames addr 8 0))

/-- They leave every direction as it is, and the lines as they are or at idle levels. -/
theorem WriteEvents.pins {es : List PinEvent} (h : WriteEvents es) (pins : Pins) :
    pinsAfter pins es = pins ∨ ∃ v, pinsAfter pins es = pins.idledWith v := by
  cases h with
  | nothing => exact .inl rfl
  | config en br => exact .inr ⟨true, pinsAfter_configFrames pins en br⟩
  | data a d => exact .inr ⟨d.getLsbD 7, pinsAfter_dataFrames pins a d⟩
  | clear addr => exact .inr ⟨false, pinsAfter_clearEight pins addr⟩

/-- On the idle bus every frame they open they close (20_memory.md R52). -/
theorem WriteEvents.frame {es : List PinEvent} (h : WriteEvents es) (pins : Pins) (p : Peer) (hp : pins.idleBus = true)
    (hk : p.kind = .reference) (hf : p.frame = none) : (observeAll pins es p).frame = none := by
  cases h with
  | nothing => exact hf
  | config en br => rw [observeAll_configFrames pins en br p hp hk, configured_frame]
  | data a d => rw [observeAll_dataFrames pins a d p hp hk, stored_frame]
  | clear addr => rw [observeAll_clear pins addr 7 0 p hp hk]; exact found_frame p

/-- From `s` to `t` the lines and the device saw the events of an operation that only writes. -/
def OnlyWrites (s t : State) : Prop :=
  ∃ es, WriteEvents es ∧ t.pins = pinsAfter s.pins es ∧ t.peer = observeAll s.pins es s.peer

section OnlyWrites
variable {i : Instr} {op : BitVec 4} {f : Bool} {a b : Byte} {s t : State}

theorem onlyWrites_of_emits {es : List PinEvent} {w : Work} {c : Cfg} (hes : WriteEvents es) (h : exec i s = .next t)
    (hi : exec i s = .next (((s.accept op f a b).emits es w c).complete 0 false)) : OnlyWrites s t := by
  rw [hi] at h
  cases h
  exact ⟨es, hes, rfl, rfl⟩

theorem onlyWrites_of_nothing (h : exec i s = .next t) (hi : exec i s = .next ((s.accept op f a b).complete 0 false)) :
    OnlyWrites s t :=
  onlyWrites_of_emits (w := s.work) (c := s.cfg) .nothing h hi

end OnlyWrites

/-- What an instruction does to the lines and to the device: `INIT`, a key scan, a byte from other logic, or the events of an
operation that only writes. -/
theorem exec_bus_cases (i : Instr) (s t : State) (h : exec i s = .next t) :
    (∃ f a b, i = .init f a b) ∨ (∃ f a b, i = .scanKeys f a b) ∨ (∃ c, t = s.wireCommand c) ∨ OnlyWrites s t := by
  rcases exec_cases i s t h with ⟨o, ho, -⟩ | ⟨-, hc⟩
  · cases i with
    | init f a b => exact .inl ⟨f, a, b, rfl⟩
    | scanKeys f a b => exact .inr (.inl ⟨f, a, b, rfl⟩)
    | enable f a b => exact .inr (.inr (.inr (onlyWrites_of_emits (.config _ _) h (exec_enable f a b s))))
    | setBrightness f a b => exact .inr (.inr (.inr (onlyWrites_of_emits (.config _ _) h (exec_setBrightness f a b s))))
    | clearSegments f a b => exact .inr (.inr (.inr (onlyWrites_of_emits (.clear _) h (exec_clearSegments f a b s))))
    | clearLeds f a b => exact .inr (.inr (.inr (onlyWrites_of_emits (.clear _) h (exec_clearLeds f a b s))))
    | displaySegments f a b =>
      refine .inr (.inr (.inr ?_))
      cases hpos : positionOk a with
      | false => exact onlyWrites_of_nothing h (exec_displaySegments_out f a b s hpos)
      | true => exact onlyWrites_of_emits (.data _ _) h (exec_displaySegments f a b s hpos)
    | displayDigit f a b =>
      refine .inr (.inr (.inr ?_))
      cases hpos : positionOk a with
      | false => exact onlyWrites_of_nothing h (exec_displayDigit_out f a b s hpos)
      | true => exact onlyWrites_of_emits (.data _ _) h (exec_displayDigit f a b s hpos)
    | setLed f a b =>
      refine .inr (.inr (.inr ?_))
      cases hpos : positionOk a with
      | false => exact onlyWrites_of_nothing h (exec_setLed_out f a b s hpos)
      | true => exact onlyWrites_of_emits (.data _ _) h (exec_setLed f a b s hpos)
    | _ => cases ho
  · exact .inr (.inr (.inl hc))

/-! ## The lines after an instruction -/

theorem idledWith_idleBus (p : Pins) (v : Bool) (h : p.idleBus = true) : (p.idledWith v).idleBus = true := by
  obtain ⟨hclk, hstb, hdio, -, -⟩ := (idleBus_iff p).1 h
  exact (idleBus_iff _).2 ⟨hclk, hstb, hdio, rfl, rfl⟩

/-- `INIT` makes every line an output and high (45_initialization.md R185). -/
theorem exec_init_pins (f : Bool) (a b : Byte) (s t : State) (h : exec (.init f a b) s = .next t) :
    t.pins = { clk := ⟨true, true⟩, stb := ⟨true, true⟩, dio := ⟨true, true⟩ } := by
  rw [exec_init] at h
  cases h
  rw [operation_pins, pinsAfter_init]

/-- `SCAN_KEYS` ends at idle levels with the data line driven low, whichever direction it had (41_bus_transport.md R116). -/
theorem exec_scanKeys_pins (f : Bool) (a b : Byte) (s t : State) (h : exec (.scanKeys f a b) s = .next t) :
    t.pins = { s.pins.idledWith false with dio := { out := false, oe := true } } := by
  rw [exec_scanKeys_completed] at h
  cases h
  rfl

/-- An instruction other than `INIT` leaves clock and strobe in their directions (45_initialization.md R187). -/
theorem exec_keeps_directions (i : Instr) (s t : State) (h : exec i s = .next t) (hi : ∀ f a b, i ≠ .init f a b) :
    t.pins.clk.oe = s.pins.clk.oe ∧ t.pins.stb.oe = s.pins.stb.oe := by
  rcases exec_bus_cases i s t h with ⟨f, a, b, rfl⟩ | ⟨f, a, b, rfl⟩ | ⟨c, rfl⟩ | ⟨es, hes, hpins, -⟩
  · exact absurd rfl (hi f a b)
  · rw [exec_scanKeys_pins f a b s t h]; exact ⟨rfl, rfl⟩
  · exact ⟨rfl, rfl⟩
  · rcases hes.pins s.pins with heq | ⟨v, heq⟩ <;> rw [hpins, heq] <;> exact ⟨rfl, rfl⟩

theorem exec_keeps_idleBus (i : Instr) (s t : State) (hidle : s.pins.idleBus = true) (h : exec i s = .next t) :
    t.pins.idleBus = true := by
  rcases exec_bus_cases i s t h with ⟨f, a, b, rfl⟩ | ⟨f, a, b, rfl⟩ | ⟨c, rfl⟩ | ⟨es, hes, hpins, -⟩
  · rw [exec_init_pins f a b s t h]; rfl
  · obtain ⟨hclk, hstb, -, -, -⟩ := (idleBus_iff s.pins).1 hidle
    rw [exec_scanKeys_pins f a b s t h]
    exact (idleBus_iff _).2 ⟨hclk, hstb, rfl, rfl, rfl⟩
  · exact hidle
  · rcases hes.pins s.pins with heq | ⟨v, heq⟩ <;> rw [hpins, heq]
    · exact hidle
    · exact idledWith_idleBus s.pins v hidle

/-- Settles O53: the lines after `INIT`, after every instruction on the idle bus, and after a key scan. -/
theorem idleBusAfterOperations : Obligations.IdleBusAfterOperations := by
  refine ⟨fun f a b s t h => ?_, fun i s t hidle h => ⟨exec_keeps_idleBus i s t hidle h, ?_⟩⟩
  · rw [exec_init_pins f a b s t h]; rfl
  · rintro f a b rfl
    rw [exec_scanKeys_pins f a b s t h]

/-! ## The frame of the reference peer after an instruction -/

/-- A byte from other logic leaves no frame open (assumption 4). -/
theorem loneCommand_frame (c : Byte) (p : Peer) (h : p.kind = .reference) : (p.loneCommand c).frame = none := by
  rw [loneCommand_eq c p h, withFrame_frame]

theorem exec_init_frame (f : Bool) (a b : Byte) (s t : State) (hk : s.peer.kind = .reference)
    (h : exec (.init f a b) s = .next t) : t.peer.frame = none := by
  obtain ⟨u, hu, hpeer, -⟩ := exec_init_peer f a b s hk
  rw [hu] at h
  cases h
  rw [hpeer, configured_frame]

theorem exec_scanKeys_frame (f : Bool) (a b : Byte) (s t : State) (hidle : s.pins.idleBus = true)
    (hk : s.peer.kind = .reference) (h : exec (.scanKeys f a b) s = .next t) : t.peer.frame = none := by
  rw [exec_scanKeys_completed] at h
  cases h
  rw [completed_peer, (scan_idle s.pins s.peer hidle hk).2]
  exact found_frame s.peer

/-- On the idle bus no instruction leaves a frame open. -/
theorem exec_keeps_frame_closed (i : Instr) (s t : State) (hidle : s.pins.idleBus = true)
    (hk : s.peer.kind = .reference) (hf : s.peer.frame = none) (h : exec i s = .next t) : t.peer.frame = none := by
  rcases exec_bus_cases i s t h with ⟨f, a, b, rfl⟩ | ⟨f, a, b, rfl⟩ | ⟨c, rfl⟩ | ⟨es, hes, -, hpeer⟩
  · exact exec_init_frame f a b s t hk h
  · exact exec_scanKeys_frame f a b s t hidle hk h
  · exact loneCommand_frame c s.peer hk
  · rw [hpeer]; exact hes.frame s.pins s.peer hidle hk hf

/-! ## A step of whole operations -/

/-- What a step can do between operations: reset, nothing, a packet that is no instruction, or a whole instruction
(10_state.md R21). -/
theorem atomic_step_cases (s t : State) (ha : s.atomicIdle = true) (h : step s = .next t) :
    t = s.resetAdapter ∨ t = s.endCycle ∨
      ∃ p, t = (s.consume p).takeUndecoded p ∨ ∃ i, decode p = .ok i ∧ exec i (s.consume p) = .next t := by
  obtain ⟨hidle, hpe⟩ := (atomicIdle_iff s).1 ha
  rcases step_cases s t h with ⟨-, ht⟩ | ⟨-, ⟨op, k, hrun, -⟩ | ⟨-, ⟨-, ht⟩ | ⟨p, -, hp⟩⟩⟩
  · exact .inl ht
  · exact absurd (hidle.symm.trans hrun) nofun
  · exact .inr (.inl ht)
  · rcases hp with ⟨e, -, ht⟩ | ⟨i, hd, ⟨w, hw, -⟩ | ⟨-, hexec⟩⟩
    · exact .inr (.inr ⟨p, .inl ht⟩)
    · exact absurd ((startsPerEvent_eq_none s p fun _ _ => hpe).symm.trans hw) nofun
    · exact .inr (.inr ⟨p, .inr ⟨i, hd, hexec⟩⟩)

/-- A whole instruction leaves the sequencer idle. -/
theorem exec_keeps_seq_idle (i : Instr) (s t : State) (hs : s.seq = .idle) (h : exec i s = .next t) : t.seq = .idle := by
  rcases exec_cases i s t h with ⟨o, -, rfl⟩ | ⟨-, c, rfl⟩
  · rfl
  · exact hs

theorem takeUndecoded_keeps_seq_idle (p : Packet) (s : State) (hs : s.seq = .idle) :
    (s.takeUndecoded p).seq = .idle := by
  cases p with
  | request w => rfl
  | wire c => exact hs

/-- A whole-operation step ends between operations. -/
theorem step_keeps_atomicIdle (s t : State) (ha : s.atomicIdle = true) (h : step s = .next t) : t.atomicIdle = true := by
  obtain ⟨hidle, hpe⟩ := (atomicIdle_iff s).1 ha
  obtain ⟨-, -, -, -, -, -, hpeKept⟩ := constantsNeverChange s t h
  have hconsume : ∀ p, (s.consume p).seq = .idle := fun p => by rw [consume_seq, hidle]
  refine (atomicIdle_iff t).2 ⟨?_, hpeKept.trans hpe⟩
  rcases atomic_step_cases s t ha h with rfl | rfl | ⟨p, rfl | ⟨i, -, hexec⟩⟩
  · rfl
  · exact hidle
  · exact takeUndecoded_keeps_seq_idle p _ (hconsume p)
  · exact exec_keeps_seq_idle i _ t (hconsume p) hexec

/-! ## The coherent bus -/

theorem busCoherent_iff (s : State) :
    s.busCoherent = true ↔ s.pins.clk.oe = s.pins.stb.oe ∧
      (s.pins.stb.oe = true → s.pins.idleBus = true ∧ (s.peer.kind = .reference → s.peer.frame = none)) := by
  simp [State.busCoherent, imp_iff_not_or]

/-- Only the lines and the device tell whether the bus is coherent. -/
theorem busCoherent_congr {s t : State} (hpins : t.pins = s.pins) (hpeer : t.peer = s.peer) :
    t.busCoherent = s.busCoherent := by simp only [State.busCoherent, hpins, hpeer]

/-- Other logic cannot leave the bus incoherent: its frame is closed when it is done (70_reset_and_hazards.md R243). -/
theorem wireCommand_keeps_busCoherent (c : Byte) (s : State) (hs : s.busCoherent = true) :
    (s.wireCommand c).busCoherent = true := by
  obtain ⟨hdir, hbus⟩ := (busCoherent_iff s).1 hs
  refine (busCoherent_iff _).2 ⟨hdir, fun hstb => ⟨(hbus hstb).1, fun hk => loneCommand_frame c s.peer ?_⟩⟩
  rwa [wireCommand_peer, loneCommand_kind] at hk

theorem takeUndecoded_keeps_busCoherent (p : Packet) (s : State) (hs : s.busCoherent = true) :
    (s.takeUndecoded p).busCoherent = true := by
  cases p with
  | request w => exact hs
  | wire c => exact wireCommand_keeps_busCoherent c s hs

/-- The kind of device is a constant (assumption 10). -/
theorem exec_kind (i : Instr) (s t : State) (h : exec i s = .next t) : t.peer.kind = s.peer.kind := by
  obtain ⟨-, -, hkind, -⟩ := (constants_eq_iff s t).1 (exec_constants i s t h)
  exact hkind

theorem exec_init_busCoherent (f : Bool) (a b : Byte) (s t : State) (h : exec (.init f a b) s = .next t) :
    t.busCoherent = true := by
  have hpins := exec_init_pins f a b s t h
  refine (busCoherent_iff t).2 ⟨by rw [hpins], fun _ => ⟨by rw [hpins]; rfl, fun hk => ?_⟩⟩
  exact exec_init_frame f a b s t ((exec_kind _ s t h).symm.trans hk) h

/-- `INIT` makes the bus coherent; every other instruction leaves the strobe released, or finds the bus idle and leaves it
so. -/
theorem exec_keeps_busCoherent (i : Instr) (s t : State) (hs : s.busCoherent = true) (h : exec i s = .next t) :
    t.busCoherent = true := by
  by_cases hinit : ∃ f a b, i = .init f a b
  · obtain ⟨f, a, b, rfl⟩ := hinit
    exact exec_init_busCoherent f a b s t h
  · obtain ⟨hdir, hbus⟩ := (busCoherent_iff s).1 hs
    obtain ⟨hclk, hstb⟩ := exec_keeps_directions i s t h fun f a b hi => hinit ⟨f, a, b, hi⟩
    refine (busCoherent_iff t).2 ⟨by rw [hclk, hstb, hdir], fun hdriven => ?_⟩
    obtain ⟨hidle, hclosed⟩ := hbus (hstb.symm.trans hdriven)
    refine ⟨exec_keeps_idleBus i s t hidle h, fun hk => ?_⟩
    have hks : s.peer.kind = .reference := (exec_kind i s t h).symm.trans hk
    exact exec_keeps_frame_closed i s t hidle hks (hclosed hks) h

theorem step_keeps_busCoherent (s t : State) (ha : s.atomicIdle = true) (hs : s.busCoherent = true)
    (h : step s = .next t) : t.busCoherent = true := by
  have hconsume : ∀ p, (s.consume p).busCoherent = true := fun p => by
    rw [busCoherent_congr (consume_pins p s) (consume_peer p s), hs]
  rcases atomic_step_cases s t ha h with rfl | rfl | ⟨p, rfl | ⟨i, -, hexec⟩⟩
  · exact (busCoherent_iff _).2 ⟨rfl, nofun⟩
  · exact hs
  · exact takeUndecoded_keeps_busCoherent p _ (hconsume p)
  · exact exec_keeps_busCoherent i _ t (hconsume p) hexec

/-- Settles O48: a reset releases the strobe, and every packet leaves the bus coherent. -/
theorem stepKeepsBusCoherent : Obligations.StepKeepsBusCoherent := fun s t ha hs h =>
  ⟨step_keeps_atomicIdle s t ha h, step_keeps_busCoherent s t ha hs h⟩

end Sys2Proof.Machine
end

section
/-! PROOFS. The events that a step appends to the pin trace (40_pin_interface.md R110, 10_state.md R18,
70_reset_and_hazards.md R233). -/

namespace Sys2Proof.Machine

/-- The events that a step from `s` may emit: one at most while an operation is in progress, none in a reset cycle, none in an
idle cycle without a packet. -/
def MayEmit (s : State) (es : List PinEvent) : Prop :=
  (s.seq ≠ .idle → es.length ≤ 1) ∧ (s.host.rst = true → es = []) ∧ (s.seq = .idle → s.fetch = none → es = [])

theorem mayEmit_nothing (s : State) : MayEmit s [] := ⟨fun _ => Nat.zero_le 1, fun _ => rfl, fun _ _ => rfl⟩

theorem mayEmit_one_running (s : State) (op : BitVec 4) (k : Nat) (e : PinEvent) (hr : s.host.rst = false)
    (hs : s.seq = .running op k) : MayEmit s [e] :=
  ⟨fun _ => le_rfl, fun hrst => absurd (hr.symm.trans hrst) nofun, fun hidle => absurd (hs.symm.trans hidle) nofun⟩

theorem mayEmit_packet (s : State) (p : Packet) (es : List PinEvent) (hr : s.host.rst = false) (hs : s.seq = .idle)
    (hf : s.fetch = some p) : MayEmit s es :=
  ⟨fun hrun => absurd hs hrun, fun hrst => absurd (hr.symm.trans hrst) nofun,
    fun _ hnone => absurd (hf.symm.trans hnone) nofun⟩

/-- A register write emits nothing. -/
theorem writes_trace (ws : List RegWrite) (s : State) : (ws.foldl State.write s).trace = s.trace := by
  obtain ⟨-, -, -, -, -, -, -, htrace⟩ := writes_frame ws s
  exact htrace

theorem act_trace (a : Act) (s : State) : ∃ e, (s.act a).trace = e :: s.trace := by
  cases a with
  | pin e => exact ⟨e, by rw [State.act, emit_trace, loadTimer_trace]⟩
  | shiftOut => exact ⟨_, rfl⟩
  | sampleIn => exact ⟨_, rfl⟩

/-- A beat appends its event (10_state.md R18). -/
theorem beat_trace (b : Beat) (s : State) : ∃ e, (s.beat b).trace = e :: s.trace := by
  obtain ⟨e, he⟩ := act_trace b.act (b.pre.foldl State.write s)
  exact ⟨e, by rw [State.beat, writes_trace, he, writes_trace]⟩

@[simp] theorem takeUndecoded_trace (p : Packet) (s : State) : (s.takeUndecoded p).trace = s.trace := by
  cases p <;> rfl

/-- An instruction appends the events of its frames (`emittedFrames`). -/
theorem exec_trace (i : Instr) (s t : State) (h : exec i s = .next t) : ∃ es, t.trace = es ++ s.trace := by
  obtain ⟨lead, fs, htrace, -, -⟩ := emittedFrames i s t h
  exact ⟨_, htrace⟩

/-- The sequencer emits one event or completes. -/
theorem advance_trace (op : BitVec 4) (k : Nat) (s : State) (hr : s.host.rst = false) (hs : s.seq = .running op k) :
    ∃ es, (s.advance op k).trace = es ++ s.trace ∧ MayEmit s es := by
  rcases advance_cases op k s with ⟨b, -, heq⟩ | ⟨-, heq⟩
  · obtain ⟨e, he⟩ := beat_trace b s
    exact ⟨[e], by rw [heq, atSeq_trace, he]; rfl, mayEmit_one_running s op k e hr hs⟩
  · exact ⟨[], by rw [heq]; rfl, mayEmit_nothing s⟩

/-- Settles O56: only the sequencer and an instruction executed whole emit anything. -/
theorem traceOnlyGrows : Obligations.TraceOnlyGrows := by
  intro s t h
  have silent : t.trace = s.trace → ∃ es, t.trace = es ++ s.trace ∧ MayEmit s es := fun ht =>
    ⟨[], ht, mayEmit_nothing s⟩
  rcases step_cases s t h with ⟨-, rfl⟩ | ⟨hr, ⟨op, k, hs, rfl⟩ | ⟨hs, ⟨-, rfl⟩ | ⟨p, hf, hp⟩⟩⟩
  · exact silent (resetAdapter_trace s)
  · exact advance_trace op k s hr hs
  · exact silent (endCycle_trace s)
  · rcases hp with ⟨e, -, rfl⟩ | ⟨i, -, ⟨w, -, rfl⟩ | ⟨-, hexec⟩⟩
    · exact silent (by rw [takeUndecoded_trace, consume_trace])
    · exact silent (by rw [acceptWord_trace, consume_trace])
    · obtain ⟨es, htrace⟩ := exec_trace i _ t hexec
      exact ⟨es, by rw [htrace, consume_trace], mayEmit_packet s p es hr hs hf⟩

end Sys2Proof.Machine
end

section
/-! PROOFS. The parser of pin traces (41_bus_transport.md R121): each of its parts takes exactly the events of what it answers,
so that a trace parses when it is made of the frames of its transcript and of the leading events of each `INIT`. -/

namespace Sys2Proof.Machine

/-! ## The bits of a byte -/

theorem takeWriteBits_events (ls : List Bool) (rest : List PinEvent) :
    takeWriteBits ls.length (ls.flatMap writeBitEvents ++ rest) = some (ls, rest) := by
  induction ls with
  | nil => rfl
  | cons l ls ih => simp [writeBitEvents, takeWriteBits, ih]

theorem takeReadBits_events (ls : List Bool) (rest : List PinEvent) :
    takeReadBits ls.length (ls.flatMap readBitEvents ++ rest) = some (ls, rest) := by
  induction ls with
  | nil => rfl
  | cons l ls ih => simp [readBitEvents, takeReadBits, ih]

theorem eq_of_takeWriteBits (n : Nat) (es rest : List PinEvent) (ls : List Bool)
    (h : takeWriteBits n es = some (ls, rest)) : ls.length = n ∧ es = ls.flatMap writeBitEvents ++ rest := by
  induction n generalizing es ls with
  | zero => cases h; exact ⟨rfl, rfl⟩
  | succ n ih =>
    unfold takeWriteBits at h
    split at h
    · obtain ⟨⟨ls', rest'⟩, htake, hcons⟩ := Option.map_eq_some_iff.1 h
      cases hcons
      obtain ⟨hlen, hes⟩ := ih _ _ htake
      exact ⟨congrArg Nat.succ hlen, by rw [hes]; rfl⟩
    · cases h

theorem eq_of_takeReadBits (n : Nat) (es rest : List PinEvent) (ls : List Bool)
    (h : takeReadBits n es = some (ls, rest)) : ls.length = n ∧ es = ls.flatMap readBitEvents ++ rest := by
  induction n generalizing es ls with
  | zero => cases h; exact ⟨rfl, rfl⟩
  | succ n ih =>
    unfold takeReadBits at h
    split at h
    · obtain ⟨⟨ls', rest'⟩, htake, hcons⟩ := Option.map_eq_some_iff.1 h
      cases hcons
      obtain ⟨hlen, hes⟩ := ih _ _ htake
      exact ⟨congrArg Nat.succ hlen, by rw [hes]; rfl⟩
    · cases h

/-! ## A byte transfer -/

theorem takeTransfer_events (t : Transfer) (rest : List PinEvent) :
    takeTransfer (transferEvents t ++ rest) = some (t, rest) := by
  cases t with
  | w v =>
    have hbits := takeWriteBits_events (levelsOf v) rest
    have hfall : takeTransfer (transferEvents (.w v) ++ rest) =
        (takeWriteBits 8 (transferEvents (.w v) ++ rest)).map fun r => (.w (byteOfLevels r.1), r.2) := rfl
    rw [levelsOf_length] at hbits
    rw [hfall, transferEvents, hbits, Option.map_some, shiftIn_byteOfLevels]
  | r v =>
    have hbits := takeReadBits_events (levelsOf v) (.dirOut :: .dio false :: rest)
    rw [levelsOf_length] at hbits
    simp [transferEvents, takeTransfer, hbits]

/-- What is left after a transfer was taken; eight levels are the bits of the byte they make (41_bus_transport.md R122). -/
theorem eq_of_takeTransfer (es rest : List PinEvent) (t : Transfer) (h : takeTransfer es = some (t, rest)) :
    es = transferEvents t ++ rest := by
  unfold takeTransfer at h
  split at h
  · split at h
    · rename_i ls left htake
      cases h
      obtain ⟨hlen, hes⟩ := eq_of_takeReadBits 8 _ _ ls htake
      simp [transferEvents, levelsOf_byteOfLevels_of_length ls hlen, hes]
    · cases h
  · obtain ⟨⟨ls, left⟩, htake, hcons⟩ := Option.map_eq_some_iff.1 h
    cases hcons
    obtain ⟨hlen, hes⟩ := eq_of_takeWriteBits 8 _ _ ls htake
    rw [transferEvents, levelsOf_byteOfLevels_of_length ls hlen, hes]

/-! ## The transfers of a frame -/

/-- A transfer does not begin with the strobe event that closes its frame. -/
theorem transferEvents_append_ne_stb (t : Transfer) (es rest : List PinEvent) :
    transferEvents t ++ es ≠ .stb true :: rest := by cases t <;> nofun

theorem takeTransfers_transfer (k : Nat) (t : Transfer) (es : List PinEvent) :
    takeTransfers (k + 1) (transferEvents t ++ es) = (takeTransfers k es).map fun r => (t :: r.1, r.2) := by
  rw [takeTransfers, takeTransfer_events]
  exact transferEvents_append_ne_stb t es

theorem takeTransfers_events (ts : List Transfer) (rest : List PinEvent) (fuel : Nat) (h : ts.length < fuel) :
    takeTransfers fuel (ts.flatMap transferEvents ++ .stb true :: rest) = some (ts, rest) := by
  induction ts generalizing fuel with
  | nil => cases fuel with
    | zero => cases h
    | succ k => rfl
  | cons t ts ih => cases fuel with
    | zero => cases h
    | succ k =>
      rw [List.flatMap_cons, List.append_assoc, takeTransfers_transfer, ih k (Nat.lt_of_succ_lt_succ h)]
      rfl

theorem eq_of_takeTransfers (fuel : Nat) (es rest : List PinEvent) (ts : List Transfer)
    (h : takeTransfers fuel es = some (ts, rest)) : es = ts.flatMap transferEvents ++ .stb true :: rest := by
  induction fuel generalizing es ts with
  | zero => cases h
  | succ k ih =>
    unfold takeTransfers at h
    split at h
    · cases h; rfl
    · split at h
      · rename_i t left htake
        obtain ⟨⟨ts', rest'⟩, htakes, hcons⟩ := Option.map_eq_some_iff.1 h
        cases hcons
        rw [eq_of_takeTransfer _ _ _ htake, ih _ _ htakes, List.flatMap_cons, List.append_assoc]
      · cases h

/-! ## The frames of a trace -/

/-- The trace is made of the events of the frames, one after another, with the leading events of an `INIT` at any place
between them (45_initialization.md R185). -/
inductive MadeOf : List PinEvent → List (List Transfer) → Prop where
  | nothing : MadeOf [] []
  | lead {es : List PinEvent} {fs : List (List Transfer)} (h : MadeOf es fs) : MadeOf (initLead ++ es) fs
  | frame (ts : List Transfer) {es : List PinEvent} {fs : List (List Transfer)} (h : MadeOf es fs) :
      MadeOf (frameEvents ts ++ es) (ts :: fs)

theorem frameEvents_append (ts : List Transfer) (rest : List PinEvent) :
    frameEvents ts ++ rest = .stb false :: (ts.flatMap transferEvents ++ .stb true :: rest) := by
  simp [frameEvents]

/-- A frame has more events than transfers. -/
theorem transfers_lt_frameEvents (ts : List Transfer) : ts.length < (frameEvents ts).length := by
  have hwaits := frameEvents_waits ts
  have hle := List.countP_le_length (p := PinEvent.isWait) (l := frameEvents ts)
  have hlen := frameEvents_length ts
  omega

theorem takeFrames_lead (k : Nat) (es : List PinEvent) : takeFrames (k + 1) (initLead ++ es) = takeFrames k es := rfl

theorem takeFrames_frame (k : Nat) (ts : List Transfer) (es : List PinEvent) :
    takeFrames (k + 1) (frameEvents ts ++ es) = (takeFrames k es).map fun fs => ts :: fs := by
  have hlt : ts.length < (ts.flatMap transferEvents ++ .stb true :: es).length + 1 := by
    have hfew := transfers_lt_frameEvents ts
    have hframe := congrArg List.length (frameEvents_append ts es)
    simp only [List.length_append, List.length_cons] at hframe ⊢
    omega
  rw [frameEvents_append, takeFrames, takeTransfers_events ts es _ hlt]

/-- Each lead and each frame has an event, so that as much fuel as events is enough. -/
theorem takeFrames_of_madeOf {es : List PinEvent} {fs : List (List Transfer)} (h : MadeOf es fs) (fuel : Nat)
    (hfuel : es.length < fuel) : takeFrames fuel es = some fs := by
  induction h generalizing fuel with
  | nothing => cases fuel with
    | zero => cases hfuel
    | succ k => rfl
  | lead h ih => cases fuel with
    | zero => cases hfuel
    | succ k =>
      rw [takeFrames_lead]
      exact ih k (by simp only [initLead, List.length_append, List.length_cons] at hfuel; omega)
  | frame ts h ih => cases fuel with
    | zero => cases hfuel
    | succ k =>
      have hpos := frameEvents_length ts
      rw [takeFrames_frame, ih k (by rw [List.length_append] at hfuel; omega)]
      rfl

theorem madeOf_of_takeFrames (fuel : Nat) (es : List PinEvent) (fs : List (List Transfer))
    (h : takeFrames fuel es = some fs) : MadeOf es fs := by
  induction fuel generalizing es fs with
  | zero => cases h
  | succ k ih =>
    unfold takeFrames at h
    split at h
    · cases h; exact .nothing
    · exact .lead (ih _ _ h)
    · split at h
      · rename_i ts left htake
        obtain ⟨fs', hfs, rfl⟩ := Option.map_eq_some_iff.1 h
        rw [eq_of_takeTransfers _ _ _ _ htake, ← frameEvents_append]
        exact .frame ts (ih _ _ hfs)
      · cases h
    · cases h

theorem transcript_eq_some_iff (es : List PinEvent) (fs : List (List Transfer)) : transcript es = some fs ↔ MadeOf es fs :=
  ⟨madeOf_of_takeFrames _ es fs, fun h => takeFrames_of_madeOf h _ (Nat.lt_succ_self _)⟩

theorem MadeOf.append {es es' : List PinEvent} {fs fs' : List (List Transfer)} (h : MadeOf es fs) (h' : MadeOf es' fs') :
    MadeOf (es ++ es') (fs ++ fs') := by
  induction h with
  | nothing => exact h'
  | lead h ih => rw [List.append_assoc]; exact .lead ih
  | frame ts h ih => rw [List.append_assoc]; exact .frame ts ih

theorem madeOf_lead : MadeOf initLead [] := .lead .nothing

theorem madeOf_frames (fs : List (List Transfer)) : MadeOf (transcriptEvents fs) fs := by
  induction fs with
  | nil => exact .nothing
  | cons ts fs ih => exact .frame ts ih

/-! ## The events of a run of operations -/

/-- The events of transcripts one after another, with the leading events of `INIT` before those so marked. -/
def eventsOf (ops : List (Bool × List (List Transfer))) : List PinEvent :=
  ops.flatMap fun o => (if o.1 then initLead else []) ++ transcriptEvents o.2

theorem eventsOf_cons (o : Bool × List (List Transfer)) (ops : List (Bool × List (List Transfer))) :
    eventsOf (o :: ops) = ((if o.1 then initLead else []) ++ transcriptEvents o.2) ++ eventsOf ops := rfl

theorem madeOf_eventsOf (ops : List (Bool × List (List Transfer))) : MadeOf (eventsOf ops) (ops.flatMap Prod.snd) := by
  induction ops with
  | nil => exact .nothing
  | cons o ops ih =>
    obtain ⟨lead, fs⟩ := o
    rw [eventsOf_cons, List.flatMap_cons]
    cases lead with
    | false => exact (madeOf_frames fs).append ih
    | true => exact (madeOf_lead.append (madeOf_frames fs)).append ih

theorem eventsOf_of_madeOf {es : List PinEvent} {fs : List (List Transfer)} (h : MadeOf es fs) :
    ∃ ops, es = eventsOf ops ∧ fs = ops.flatMap Prod.snd := by
  induction h with
  | nothing => exact ⟨[], rfl, rfl⟩
  | lead h ih =>
    obtain ⟨ops, rfl, rfl⟩ := ih
    exact ⟨(true, []) :: ops, rfl, rfl⟩
  | frame ts h ih =>
    obtain ⟨ops, rfl, rfl⟩ := ih
    exact ⟨(false, [ts]) :: ops, by simp [eventsOf_cons, transcriptEvents], rfl⟩

/-- Settles O41: a trace parses when it is made of frames and leads, and then it is the events of a run of operations. -/
theorem transcriptIsFaithful : Obligations.TranscriptIsFaithful :=
  ⟨fun ops => (transcript_eq_some_iff _ _).2 (madeOf_eventsOf ops),
    fun es fs h => eventsOf_of_madeOf ((transcript_eq_some_iff es fs).1 h)⟩

/-! ## The transcript of every run of whole operations -/

/-- The new events of a state, in order, after the trace of the one before. -/
theorem pinTrace_of_trace {s t : State} (es : List PinEvent) (h : t.trace = es.reverse ++ s.trace) :
    t.pinTrace = s.pinTrace ++ es := by
  rw [State.pinTrace, h, List.reverse_append, List.reverse_reverse, State.pinTrace]

/-- From `s` to `t` whole frames were emitted, and leading events of `INIT`. -/
def AppendsFrames (s t : State) : Prop := ∃ es gs, t.pinTrace = s.pinTrace ++ es ∧ MadeOf es gs

theorem appendsFrames_of_nothing {s t : State} (h : t.trace = s.trace) : AppendsFrames s t :=
  ⟨[], [], pinTrace_of_trace [] h, .nothing⟩

/-- An instruction appends frames, after the leading events of `INIT` or after none (`emittedFrames`). -/
theorem exec_appends_frames (i : Instr) (s t : State) (h : exec i s = .next t) : AppendsFrames s t := by
  obtain ⟨lead, gs, htrace, hlead, -⟩ := emittedFrames i s t h
  refine ⟨_, gs, pinTrace_of_trace _ htrace, ?_⟩
  rcases hlead with rfl | rfl
  · exact madeOf_frames gs
  · exact madeOf_lead.append (madeOf_frames gs)

/-- Between operations a reset, an idle cycle and a packet that is no instruction emit nothing. -/
theorem atomic_step_appends_frames (s t : State) (ha : s.atomicIdle = true) (h : step s = .next t) :
    AppendsFrames s t := by
  rcases atomic_step_cases s t ha h with rfl | rfl | ⟨p, rfl | ⟨i, -, hexec⟩⟩
  · exact appendsFrames_of_nothing (resetAdapter_trace s)
  · exact appendsFrames_of_nothing (endCycle_trace s)
  · exact appendsFrames_of_nothing (by rw [takeUndecoded_trace, consume_trace])
  · obtain ⟨es, gs, htrace, hes⟩ := exec_appends_frames i _ t hexec
    exact ⟨es, gs, by rw [htrace, State.pinTrace, consume_trace, State.pinTrace], hes⟩

/-- Settles O60: a step appends a trace made of frames to one made of frames. -/
theorem stepKeepsTranscript : Obligations.StepKeepsTranscript := by
  intro s t fs ha hfs h
  obtain ⟨es, gs, htrace, hes⟩ := atomic_step_appends_frames s t ha h
  refine ⟨step_keeps_atomicIdle s t ha h, gs, ?_⟩
  rw [htrace]
  exact (transcript_eq_some_iff _ _).2 (((transcript_eq_some_iff _ _).1 hfs).append hes)

end Sys2Proof.Machine
end

section
/-! PROOFS. The micro-operations (41_bus_transport.md R115 to R119, R122): a byte written and read again, and the events, waits,
samples and strobe events of each. -/

namespace Sys2Proof.Machine

/-! ## A byte written and read again -/

theorem dioOperands_write (v : Byte) : dioOperands (transferEvents (.w v)) = levelsOf v := rfl

theorem sampleLevels_read (v : Byte) : sampleLevels (transferEvents (.r v)) = levelsOf v := rfl

theorem levelsOf_injective : Function.Injective levelsOf := fun v w h => by
  rw [← shiftIn_byteOfLevels v, h, shiftIn_byteOfLevels]

/-- The new events of a trace are determined by it. -/
theorem events_unique {es fs tr : List PinEvent} (h : es.reverse ++ tr = fs.reverse ++ tr) : es = fs :=
  List.reverse_injective (List.append_cancel_right h)

/-- Settles O40: both bytes have the levels of one list, and `ACC` holds the byte that was read. -/
theorem byteRoundTrip : Obligations.ByteRoundTrip := by
  intro s t v es fs hwrite hread hlevels
  rw [writeByte_effect, emits_trace] at hwrite
  rw [readByte_effect] at hread ⊢
  cases events_unique hwrite
  cases events_unique hread
  rw [sampleLevels_read, dioOperands_write] at hlevels
  exact levelsOf_injective hlevels

/-! ## Counts -/

/-- The events count so many, with so many waits, samples and strobe events among them. -/
structure Counted (es : List PinEvent) (events waits samples strobes : Nat) : Prop where
  length : es.length = events
  waits : es.countP PinEvent.isWait = waits
  samples : es.countP PinEvent.isSample = samples
  strobes : es.countP PinEvent.isStrobe = strobes

theorem counted_transfer (t : Transfer) : Counted (transferEvents t) t.events 16 t.samples 0 :=
  ⟨transferEvents_length t, transferEvents_waits t, transferEvents_samples t, transferEvents_strobes t⟩

theorem counted_frame (ts : List Transfer) :
    Counted (frameEvents ts) ((ts.map Transfer.events).sum + 2) (16 * ts.length) (ts.map Transfer.samples).sum 2 :=
  ⟨frameEvents_length ts, frameEvents_waits ts, frameEvents_samples ts, frameEvents_strobes ts⟩

theorem counted_transcript (fs : List (List Transfer)) :
    Counted (transcriptEvents fs) (fs.map fun ts => (ts.map Transfer.events).sum + 2).sum
      (fs.map fun ts => 16 * ts.length).sum (fs.map fun ts => (ts.map Transfer.samples).sum).sum (2 * fs.length) :=
  ⟨transcriptEvents_length fs, transcriptEvents_waits fs, transcriptEvents_samples fs, transcriptEvents_strobes fs⟩

/-- From `s` the beats emit events with these counts, for as long as these ask under every value of the two parameters, and
leave the settle timer at `T_SETTLE`. -/
def Takes (s : State) (bs : List Beat) (events waits samples strobes : Nat) : Prop :=
  ∃ es, (s.runBeats bs).trace = es.reverse ++ s.trace ∧ es.length = events ∧ es.countP PinEvent.isWait = waits ∧
    es.countP PinEvent.isSample = samples ∧ es.countP PinEvent.isStrobe = strobes ∧
    (∀ tm : Timing, leastDuration tm es = waits * tm.tSettle + strobes * tm.tStbGap) ∧
    (s.runBeats bs).work.tmr = s.timing.tSettle

/-- The duration follows from the counts (41_bus_transport.md R119). -/
theorem takes_of_counted {s : State} {bs : List Beat} {events waits samples strobes : Nat} (es : List PinEvent)
    (htrace : (s.runBeats bs).trace = es.reverse ++ s.trace) (htmr : (s.runBeats bs).work.tmr = s.timing.tSettle)
    (h : Counted es events waits samples strobes) : Takes s bs events waits samples strobes :=
  ⟨es, htrace, h.length, h.waits, h.samples, h.strobes, fun tm => by rw [leastDuration_eq, h.waits, h.strobes], htmr⟩

/-- Beats that emit `es` and end as a `WriteByte` does. -/
theorem takes_of_writes {s : State} {bs : List Beat} {c : Cfg} {events waits samples strobes : Nat} (es : List PinEvent)
    (heffect : s.runBeats bs = s.emits es (s.work.wrote s.timing.tSettle) c)
    (h : Counted es events waits samples strobes) : Takes s bs events waits samples strobes :=
  takes_of_counted es (by rw [heffect, emits_trace]) (by rw [heffect, emits_work]; rfl) h

theorem takes_readByte (s : State) : Takes s readByte 44 16 8 0 :=
  takes_of_counted _ (by rw [readByte_effect]) (by rw [readByte_effect]; rfl) (counted_transfer (.r _))

theorem takes_scanFrame (s : State) : Takes s scanFrame 218 80 32 2 :=
  takes_of_counted _ (by rw [scanFrame_effect]) (by rw [scanFrame_effect]) (counted_frame [.w _, .r _, .r _, .r _, .r _])

/-- Settles O44: the events of each list of beats are those of a transfer, a frame or a transcript, which are counted. -/
theorem microOperationCounts : Obligations.MicroOperationCounts := by
  intro v d en s bs events waits samples strobes hmem
  simp only [List.mem_cons, List.not_mem_nil, or_false, Prod.mk.injEq] at hmem
  rcases hmem with ⟨rfl, rfl, rfl, rfl, rfl⟩ | ⟨rfl, rfl, rfl, rfl, rfl⟩ | ⟨rfl, rfl, rfl, rfl, rfl⟩ |
    ⟨rfl, rfl, rfl, rfl, rfl⟩ | ⟨rfl, rfl, rfl, rfl, rfl⟩ | ⟨rfl, rfl, rfl, rfl, rfl⟩
  · exact takes_of_writes _ (writeByte_effect s v) (counted_transfer (.w v))
  · exact takes_readByte s
  · exact takes_of_writes _ (sendCommand_effect s v) (counted_frame [.w v])
  · exact takes_of_writes _ (sendData_effect s v d) (counted_transcript (dataFrames v d))
  · exact takes_of_writes _ (sendConfig_effect s en v) (counted_transcript (configFrames en (clamp v)))
  · exact takes_scanFrame s

end Sys2Proof.Machine
end

section
/-! PROOFS. `ENABLE` and `SET_BRIGHTNESS`, and the configuration that the peer shows (42_command_encoder.md R137 to R142). -/

namespace Sys2Proof.Machine

/-- Settles O36. -/
theorem clampSaturates : Obligations.ClampSaturates := clamp_toNat

/-! ## A configuration sent from every state -/

section Configuration
variable (en : Bool) (br : BitVec 3)

theorem configFrames_events_length : (transcriptEvents (configFrames en br)).length = 84 := by
  rw [transcriptEvents_length]
  rfl

theorem configuredTo_configured (p : Peer) : Peer.configuredTo en br p.found (p.configured en br) := by
  refine ⟨configured_readRam en br p, ?_⟩
  rw [← found_frame p]
  rfl

/-- The reference peer on the idle bus is configured. -/
theorem configuredTo_of_ready (s : State) (h : s.ready = true) :
    Peer.configuredTo en br s.peer.found (observeAll s.pins (transcriptEvents (configFrames en br)) s.peer) := by
  obtain ⟨hidle, hkind, -⟩ := (ready_iff s).1 h
  rw [observeAll_configFrames s.pins en br s.peer hidle hkind]
  exact configuredTo_configured en br s.peer

/-- A host operation that sends a configuration, field by field. -/
theorem configuration_completed (op : BitVec 4) (f : Bool) (a b : Byte) (w : Work) (c : Cfg) (s : State) :
    ((s.accept op f a b).emits (transcriptEvents (configFrames en br)) w c).complete 0 false =
      s.completed op f a b
        { cfg := c
          pins := s.pins.idledWith true
          work := w
          peer := observeAll s.pins (transcriptEvents (configFrames en br)) s.peer
          events := transcriptEvents (configFrames en br)
          data := 0 } := by
  rw [State.emits, accept_pins, pinsAfter_configFrames]
  rfl

end Configuration

/-- Settles O15: `ENABLE` sends the flag with the brightness of `CFG`. -/
theorem enableResult : Obligations.EnableResult := fun f a b s =>
  ⟨_, _, (exec_enable f a b s).trans (congrArg _ (configuration_completed f s.cfg.br ..)),
    configFrames_events_length f s.cfg.br, rfl, configuredTo_of_ready f s.cfg.br s,
    observeAll_unheard s.pins (configFrames f s.cfg.br) s.peer⟩

/-- Settles O16: `SET_BRIGHTNESS` sends the clamped level with the enable bit of `CFG`. -/
theorem setBrightnessResult : Obligations.SetBrightnessResult := fun f a b s =>
  ⟨_, _, (exec_setBrightness f a b s).trans (congrArg _ (configuration_completed s.cfg.en (clamp a) ..)),
    configFrames_events_length s.cfg.en (clamp a), rfl, configuredTo_of_ready s.cfg.en (clamp a) s,
    observeAll_unheard s.pins (configFrames s.cfg.en (clamp a)) s.peer⟩

end Sys2Proof.Machine
end

section
/-! PROOFS. The peer shows what `CFG` holds, as long as the adapter alone drives the lines (42_command_encoder.md R139,
70_reset_and_hazards.md R243). -/

namespace Sys2Proof.Machine

/-- Not in test mode, the peer shows the configuration of `CFG` (42_command_encoder.md R139). -/
def State.shown (s : State) : Prop := s.peer.mode.test = false ∧ s.peer.disp = { on := s.cfg.en, br := s.cfg.br }

/-- What an operation relies on and leaves behind: the reference peer on its idle bus, showing the configuration. -/
def State.served (s : State) : Prop := s.ready = true ∧ s.shown

theorem configShown_iff (s : State) : s.configShown = true ↔ s.peer.disp = { on := s.cfg.en, br := s.cfg.br } := by
  cases hd : s.peer.disp
  simp [State.configShown, hd]

theorem inContract_iff (s : State) :
    s.inContract = true ↔ s.atomicIdle = true ∧ s.served ∧ s.host.rst = false ∧ s.host.busIn = none := by
  simp only [State.inContract, Bool.and_eq_true, configShown_iff, State.served, State.shown, Bool.not_eq_true',
    Option.isNone_iff_eq_none]
  tauto

theorem served_congr {s t : State} (hpins : t.pins = s.pins) (hpeer : t.peer = s.peer) (hcfg : t.cfg = s.cfg)
    (h : s.served) : t.served := by
  simpa only [State.served, State.ready, State.shown, hpins, hpeer, hcfg] using h

/-! ## Events that leave the display control alone -/

/-- Emitted on the idle bus outside test mode, these events do not enter test mode and leave the display control. -/
def KeepsDisplay (es : List PinEvent) : Prop :=
  ∀ (pins : Pins) (p : Peer), pins.idleBus = true → p.kind = .reference → p.frame = none → p.mode.test = false →
    (observeAll pins es p).mode.test = false ∧ (observeAll pins es p).disp = p.disp

theorem keepsDisplay_nothing : KeepsDisplay [] := fun _ _ _ _ _ ht => ⟨ht, rfl⟩

/-- One byte of display RAM: the data mode changes, test mode stays off (20_memory.md R53). -/
theorem keepsDisplay_data (a d : Byte) : KeepsDisplay (transcriptEvents (dataFrames a d)) := by
  intro pins p hp hk hf ht
  rw [observeAll_dataFrames pins a d p hp hk, stored_disp, found_of_settled p hf ht]
  exact ⟨rfl, rfl⟩

theorem keepsDisplay_clear (addr : Byte → Byte) : KeepsDisplay (transcriptEvents (clearFrames addr 8 0)) := by
  intro pins p hp hk hf ht
  rw [observeAll_clear pins addr 7 0 p hp hk, found_of_settled p hf ht]
  exact ⟨rfl, rfl⟩

/-! ## What an operation leaves shown -/

section Shown
variable {i : Instr} {op : BitVec 4} {f : Bool} {a b : Byte} {s t : State}

/-- Events that leave the display control, under an unchanged `CFG`. -/
theorem shown_of_emitted {es : List PinEvent} (hs : s.served) (hes : KeepsDisplay es) (h : Emitted es s t) : t.shown := by
  obtain ⟨hready, htest, hdisp⟩ := hs
  obtain ⟨hidle, hkind, hframe⟩ := (ready_iff s).1 hready
  obtain ⟨htest', hdisp'⟩ := hes s.pins s.peer hidle hkind hframe htest
  exact ⟨by rw [h.peer, htest'], by rw [h.peer, hdisp', hdisp, h.cfg]⟩

/-- An operation on a position stores one byte, or does nothing when the position check fails (43_display_memory.md R151). -/
theorem shown_of_position {x d : Byte} {w : Work} (hs : s.served) (h : exec i s = .next t)
    (hin : positionOk a = true →
      exec i s = .next (((s.accept op f a b).emits (transcriptEvents (dataFrames x d)) w s.cfg).complete 0 false))
    (hout : positionOk a = false → exec i s = .next ((s.accept op f a b).complete 0 false)) : t.shown := by
  cases hpos : positionOk a with
  | true => exact shown_of_emitted hs (keepsDisplay_data x d) (emitted_of_exec h (hin hpos)).1
  | false => exact shown_of_emitted hs keepsDisplay_nothing (emitted_of_exec (es := []) (w := s.work) h (hout hpos)).1

/-- A configuration is shown as it is latched (42_command_encoder.md R138). -/
theorem shown_of_configuration {en : Bool} {br : BitVec 3} {w : Work} (hs : s.served) (h : exec i s = .next t)
    (hi : exec i s = .next (((s.accept op f a b).emits (transcriptEvents (configFrames en br)) w
      { en := en, br := br }).complete 0 false)) : t.shown := by
  obtain ⟨hidle, hkind, -⟩ := (ready_iff s).1 hs.1
  rw [hi] at h
  cases h
  rw [State.shown, operation_peer, observeAll_configFrames s.pins en br s.peer hidle hkind]
  exact ⟨rfl, rfl⟩

/-- `INIT` ends with a configuration (45_initialization.md R185). -/
theorem exec_init_shown (hs : s.served) (h : exec (.init f a b) s = .next t) : t.shown := by
  obtain ⟨-, hkind, -⟩ := (ready_iff s).1 hs.1
  rw [exec_init] at h
  cases h
  have hpeer := observeAll_init s.pins f (clamp a) s.peer hkind
  rw [State.shown, operation_peer, hpeer]
  exact ⟨rfl, rfl⟩

/-- A key scan leaves read mode and the display control as it was (44_key_scanner.md R178). -/
theorem exec_scanKeys_shown (hs : s.served) (h : exec (.scanKeys f a b) s = .next t) : t.shown := by
  obtain ⟨hready, htest, hdisp⟩ := hs
  obtain ⟨hidle, hkind, hframe⟩ := (ready_iff s).1 hready
  rw [exec_scanKeys_completed] at h
  cases h
  rw [State.shown, completed_peer, (scan_idle s.pins s.peer hidle hkind).2, Peer.scannedOver,
    found_of_settled s.peer hframe htest]
  exact ⟨rfl, hdisp⟩

end Shown

/-- A host operation leaves the configuration shown: three send it, the others leave it. -/
theorem exec_keeps_shown (i : Instr) (o : Operands) (s t : State) (ho : latched i = some o) (hs : s.served)
    (h : exec i s = .next t) : t.shown := by
  cases i with
  | init f a b => exact exec_init_shown hs h
  | enable f a b => exact shown_of_configuration hs h (exec_enable f a b s)
  | setBrightness f a b => exact shown_of_configuration hs h (exec_setBrightness f a b s)
  | displaySegments f a b =>
    exact shown_of_position hs h (exec_displaySegments f a b s) (exec_displaySegments_out f a b s)
  | clearSegments f a b =>
    exact shown_of_emitted hs (keepsDisplay_clear digitAddr) (emitted_of_exec h (exec_clearSegments f a b s)).1
  | displayDigit f a b => exact shown_of_position hs h (exec_displayDigit f a b s) (exec_displayDigit_out f a b s)
  | setLed f a b => exact shown_of_position hs h (exec_setLed f a b s) (exec_setLed_out f a b s)
  | clearLeds f a b =>
    exact shown_of_emitted hs (keepsDisplay_clear ledAddr) (emitted_of_exec h (exec_clearLeds f a b s)).1
  | scanKeys f a b => exact exec_scanKeys_shown hs h
  | _ => cases ho

theorem exec_keeps_ready (i : Instr) (s t : State) (hs : s.ready = true) (h : exec i s = .next t) : t.ready = true := by
  obtain ⟨hidle, hkind, hframe⟩ := (ready_iff s).1 hs
  exact (ready_iff t).2 ⟨exec_keeps_idleBus i s t hidle h, (exec_kind i s t h).trans hkind,
    exec_keeps_frame_closed i s t hidle hkind hframe h⟩

theorem exec_keeps_served (i : Instr) (o : Operands) (s t : State) (ho : latched i = some o) (hs : s.served)
    (h : exec i s = .next t) : t.served :=
  ⟨exec_keeps_ready i s t hs.1 h, exec_keeps_shown i o s t ho hs h⟩

/-! ## A step in contract -/

/-- With no byte from other logic only a request is taken (10_state.md R21). -/
theorem fetch_request_of_quiet_bus (s : State) (p : Packet) (hb : s.host.busIn = none) (hf : s.fetch = some p) :
    ∃ w, p = .request w := by
  cases hr : s.host.requests with
  | nil => simp [fetch_of_no_requests s hr, hb] at hf
  | cons w rest => exact ⟨w, by simpa [fetch_of_requests s w rest hr] using hf.symm⟩

/-- Between operations, with `rst` 0 and nothing from other logic, a step does nothing, answers an illegal request, or
executes a legal one whole. -/
theorem request_step_cases (s t : State) (ha : s.atomicIdle = true) (hr : s.host.rst = false) (hb : s.host.busIn = none)
    (h : step s = .next t) :
    t = s.endCycle ∨ ∃ w, t = (s.consume (.request w)).takeUndecoded (.request w) ∨
      ∃ i, decode (.request w) = .ok i ∧ exec i (s.consume (.request w)) = .next t := by
  obtain ⟨hidle, hpe⟩ := (atomicIdle_iff s).1 ha
  rcases step_cases s t h with ⟨hrst, -⟩ | ⟨-, ⟨op, k, hrun, -⟩ | ⟨-, ⟨-, ht⟩ | ⟨p, hf, hp⟩⟩⟩
  · exact absurd (hr.symm.trans hrst) nofun
  · exact absurd (hidle.symm.trans hrun) nofun
  · exact .inl ht
  · obtain ⟨w, rfl⟩ := fetch_request_of_quiet_bus s p hb hf
    rcases hp with ⟨e, -, ht⟩ | ⟨i, hd, ⟨v, hv, -⟩ | ⟨-, hexec⟩⟩
    · exact .inr ⟨w, .inl ht⟩
    · exact absurd ((startsPerEvent_eq_none s _ fun _ _ => hpe).symm.trans hv) nofun
    · exact .inr ⟨w, .inr ⟨i, hd, hexec⟩⟩

/-- A request leaves the waiting byte from other logic alone. -/
theorem exec_request_host (w : ReqWord) (i : Instr) (s t : State) (hd : decode (.request w) = .ok i)
    (h : exec i s = .next t) : t.host = s.host := by
  obtain ⟨u, hu, hhost, -⟩ := exec_request_completes w i s hd
  rw [hu] at h
  cases h
  exact hhost

/-- A step in contract leaves the peer served and brings in nothing from other logic. -/
theorem step_keeps_served (s t : State) (ha : s.atomicIdle = true) (hs : s.served) (hr : s.host.rst = false)
    (hb : s.host.busIn = none) (h : step s = .next t) : t.served ∧ t.host.busIn = none := by
  rcases request_step_cases s t ha hr hb h with rfl | ⟨w, rfl | ⟨i, hd, hexec⟩⟩
  · exact ⟨served_congr rfl rfl rfl hs, hb⟩
  · exact ⟨served_congr rfl rfl rfl hs, hb⟩
  · have hconsumed : (s.consume (.request w)).served := served_congr rfl rfl rfl hs
    exact ⟨exec_keeps_served i _ _ t (latched_of_decode_request w i hd) hconsumed hexec,
      (congrArg HostPort.busIn (exec_request_host w i _ t hd hexec)).trans hb⟩

/-- Settles O49: the contract is between operations, with the peer served, `rst` 0 and no other logic; a step keeps each. -/
theorem stepKeepsConfigurationShown : Obligations.StepKeepsConfigurationShown := by
  intro s t hs h
  obtain ⟨ha, hserved, hr, hb⟩ := (inContract_iff s).1 hs
  obtain ⟨⟨hready, htest, hdisp⟩, hb'⟩ := step_keeps_served s t ha hserved hr hb h
  obtain ⟨-, -, -, -, -, hrst, -⟩ := constantsNeverChange s t h
  exact ⟨(inContract_iff t).2 ⟨step_keeps_atomicIdle s t ha h, ⟨hready, htest, hdisp⟩, hrst.trans hr, hb'⟩, hdisp⟩

end Sys2Proof.Machine
end

section
/-! PROOFS. Positions and their addresses, and the segment byte of a digit (43_display_memory.md R150, R153, R155, R156,
30_encoding.md R83). -/

namespace Sys2Proof.Machine

/-! ## Addresses -/

theorem positionOk_iff (a : Byte) : positionOk a = true ↔ a.toNat ≤ 7 := decide_eq_true_iff

theorem positionOk_eq_false_iff (a : Byte) : positionOk a = false ↔ 7 < a.toNat := by
  rw [positionOk, decide_eq_false_iff_not, not_le]

theorem digitAddr_toNat (p : Byte) (h : p.toNat ≤ 7) : (digitAddr p).toNat = 2 * p.toNat := by
  rw [digitAddr, BitVec.toNat_shiftLeft, Nat.shiftLeft_eq]
  omega

/-- Position 0 wraps (43_display_memory.md R156). -/
theorem ledAddr_toNat (p : Byte) (h : p.toNat ≤ 7) : (ledAddr p).toNat = (2 * p.toNat + 255) % 256 := by
  have hdigit := digitAddr_toNat p h
  have hone : (1 : Byte).toNat = 1 := rfl
  rw [digitAddr] at hdigit
  rw [ledAddr, BitVec.toNat_sub, hdigit, hone]
  omega

theorem ramAddr_toNat (a : Byte) : (ramAddr a).toNat = a.toNat % 16 := BitVec.extractLsb'_toNat 0 4 a

theorem pointerOf_addrCmd (a : Byte) : pointerOf (addrCmd a) = ramAddr a := (addrCmd_bits a).2

/-- Below 64 the address does not meet the class bits of the address byte (30_encoding.md R83). -/
theorem addrCmd_toNat (a : Byte) (h : a.toNat < 64) : (addrCmd a).toNat = 0xC0 + a.toNat := by
  have hdisjoint : 2 ^ 6 * 3 + a.toNat = 2 ^ 6 * 3 ||| a.toNat := Nat.two_pow_add_eq_or_of_lt h 3
  rw [addrCmd, BitVec.toNat_or]
  exact hdisjoint.symm

theorem digit_pointer_toNat (p : Byte) (h : p.toNat ≤ 7) : (pointerOf (addrCmd (digitAddr p))).toNat = 2 * p.toNat := by
  rw [pointerOf_addrCmd, ramAddr_toNat, digitAddr_toNat p h]
  omega

theorem led_pointer_toNat (p : Byte) (h : p.toNat ≤ 7) :
    (pointerOf (addrCmd (ledAddr p))).toNat = if p.toNat = 0 then 15 else 2 * p.toNat - 1 := by
  rw [pointerOf_addrCmd, ramAddr_toNat, ledAddr_toNat p h]
  split <;> omega

/-- Settles O37: the addresses by arithmetic below 8, the wrap of position 0 by evaluation. -/
theorem positionAddresses : Obligations.PositionAddresses := by
  intro p h
  have hdigit := digitAddr_toNat p h
  have hled := ledAddr_toNat p h
  refine ⟨hdigit, hled, by rw [addrCmd_toNat _ (by omega), hdigit], ?_, fun hp => ?_⟩
  · rintro rfl
    exact ⟨rfl, rfl, rfl⟩
  · have hpos : p.toNat ≠ 0 := fun h0 => hp (BitVec.eq_of_toNat_eq h0)
    exact ⟨by rw [addrCmd_toNat _ (by omega)]; omega, by rw [led_pointer_toNat p h, if_neg hpos]⟩

/-! ## Segment bytes -/

theorem segOf_of_lt (rom : Vector Byte 10) (d : Byte) (h : d.toNat < 10) (dot : Bool) :
    segOf rom d dot = rom[d.toNat] ||| (if dot then 0x80 else 0) := by rw [segOf, dif_pos h]

/-- A digit that the table does not hold is blank (43_display_memory.md R153). -/
theorem segOf_of_ge (rom : Vector Byte 10) (d : Byte) (h : 10 ≤ d.toNat) (dot : Bool) :
    segOf rom d dot = if dot then 0x80 else 0 := by
  rw [segOf, dif_neg (not_lt.2 h)]
  exact BitVec.zero_or

/-- The dot is bit 7 over the byte without it. -/
theorem segOf_dot (rom : Vector Byte 10) (d : Byte) : segOf rom d true = segOf rom d false ||| 0x80 := by
  simp [segOf]

theorem romOk_entry (rom : Vector Byte 10) (h : romOk rom = true) (k : Nat) (hk : k < 10) :
    (rom[k]).getLsbD 7 = false := by
  have hall := List.all_eq_true.1 h rom[k] (by simp)
  rwa [Bool.not_eq_true'] at hall

theorem segOf_bit7_of_no_dot (rom : Vector Byte 10) (d : Byte) (h : romOk rom = true) :
    (segOf rom d false).getLsbD 7 = false := by
  rcases Nat.lt_or_ge d.toNat 10 with hd | hd
  · rw [segOf_of_lt rom d hd]
    simpa using romOk_entry rom h d.toNat hd
  · rw [segOf_of_ge rom d hd]
    rfl

/-- Settles O38: the table's entry or blank, with the dot over bit 7, which the table leaves clear. -/
theorem segmentMapper : Obligations.SegmentMapper :=
  ⟨segOf_of_lt, fun rom d dot h => segOf_of_ge rom d h dot,
    fun rom d h => ⟨segOf_bit7_of_no_dot rom d h, segOf_dot rom d⟩⟩

end Sys2Proof.Machine
end

section
/-! PROOFS. The display memory operations from every state: one byte stored, eight positions cleared, or nothing when the
position check fails (43_display_memory.md R151 to R161). -/

namespace Sys2Proof.Machine

/-- A host operation that keeps `CFG`, emits `es` and leaves the bus at idle levels, field by field (10_state.md R21,
40_pin_interface.md R111). -/
theorem emits_completed (op : BitVec 4) (f : Bool) (a b : Byte) (w : Work) {es : List PinEvent} {v : Bool} {s : State}
    (hpins : pinsAfter s.pins es = s.pins.idledWith v) :
    ((s.accept op f a b).emits es w s.cfg).complete 0 false = s.completed op f a b
      { cfg := s.cfg
        pins := s.pins.idledWith v
        work := w
        peer := observeAll s.pins es s.peer
        events := es
        data := 0 } := by
  rw [← hpins]
  rfl

/-! ## One byte -/

/-- A value reduced to one bit leaves the data line low (43_display_memory.md R155). -/
theorem nz_bit7 (v : Byte) : (nz v).getLsbD 7 = false := by
  rw [nz]
  split <;> rfl

/-- The reference peer on the idle bus stores the byte. -/
theorem storedAt_of_ready (x d : Byte) (s : State) (h : s.ready = true) :
    Peer.storedAt (pointerOf (addrCmd x)) d s.peer.found
      (observeAll s.pins (transcriptEvents (dataFrames x d)) s.peer) := by
  obtain ⟨hidle, hkind, -⟩ := (ready_iff s).1 h
  rw [observeAll_dataFrames s.pins x d s.peer hidle hkind, pointerOf_addrCmd]
  exact storedAt_stored x d s.peer

/-- A host operation on position `a`. In range it sends one byte `d` with address byte `AddrCmd(x)`, which points at display RAM
address `n`; out of range it does nothing (43_display_memory.md R151). -/
theorem position_result {i : Instr} {op : BitVec 4} {f : Bool} {a b x d : Byte} {s : State} {v : Bool} {n : Nat}
    (hin : positionOk a = true → exec i s = .next (((s.accept op f a b).emits (transcriptEvents (dataFrames x d))
      (s.work.wrote s.timing.tSettle) s.cfg).complete 0 false))
    (hout : positionOk a = false → exec i s = .next ((s.accept op f a b).complete 0 false))
    (hbit : d.getLsbD 7 = v) (haddr : a.toNat ≤ 7 → (pointerOf (addrCmd x)).toNat = n) :
    (a.toNat ≤ 7 → ∃ w p,
      exec i s = .next (s.completed op f a b
        { cfg := s.cfg
          pins := s.pins.idledWith v
          work := w
          peer := p
          events := transcriptEvents (dataFrames x d)
          data := 0 }) ∧
        (transcriptEvents (dataFrames x d)).length = 124 ∧ (pointerOf (addrCmd x)).toNat = n ∧
        w = { s.work with shr := w.shr, bitCnt := w.bitCnt, tmr := w.tmr } ∧
        (s.ready = true → Peer.storedAt (pointerOf (addrCmd x)) d s.peer.found p) ∧ (s.unheard = true → p = s.peer)) ∧
      (7 < a.toNat → exec i s = .next (s.completed op f a b s.noEffect)) := by
  refine ⟨fun h => ?_, fun h => hout ((positionOk_eq_false_iff a).2 h)⟩
  have hpins : pinsAfter s.pins (transcriptEvents (dataFrames x d)) = s.pins.idledWith v :=
    hbit ▸ pinsAfter_dataFrames s.pins x d
  exact ⟨_, _, (hin ((positionOk_iff a).2 h)).trans (congrArg _ (emits_completed op f a b _ hpins)),
    transcriptEvents_length _, haddr h, rfl, storedAt_of_ready x d s, observeAll_unheard s.pins (dataFrames x d) s.peer⟩

/-- Settles O17: the byte goes to the digit's address. -/
theorem displaySegmentsResult : Obligations.DisplaySegmentsResult := fun f a b s =>
  position_result (exec_displaySegments f a b s) (exec_displaySegments_out f a b s) rfl (digit_pointer_toNat a)

/-- Settles O18: as `DISPLAY_SEGMENTS`, with the segment byte of the digit. -/
theorem displayDigitResult : Obligations.DisplayDigitResult := fun f a b s =>
  position_result (exec_displayDigit f a b s) (exec_displayDigit_out f a b s) rfl (digit_pointer_toNat a)

/-- Settles O19: the reduced value goes to the LED's address. -/
theorem setLedResult : Obligations.SetLedResult := fun f a b s =>
  position_result (exec_setLed f a b s) (exec_setLed_out f a b s) (nz_bit7 b) (led_pointer_toNat a)

/-! ## Eight positions cleared -/

/-- The display RAM after zeros at the addresses `as`. -/
theorem readRam_foldl_insert (as : List Nat) (q p : Peer) (x : Nat) (hepoch : p.epoch = q.epoch)
    (hram : p.ram = as.foldl (fun m a => Ram.insert m a 0) q.ram) :
    p.readRam x = if x ∈ as then 0 else q.readRam x := by
  rw [Peer.readRam, hram, lookup_foldl_insert, hepoch]
  split <;> rfl

/-- The reference peer on the idle bus: the eight addresses read zero, the others as before, and the pointer is the last
position's address. -/
theorem cleared_of_ready (addr : Byte → Byte) (s : State) (h : s.ready = true) :
    let p := observeAll s.pins (transcriptEvents (clearFrames addr 8 0)) s.peer
    (∀ x, p.readRam x = if x ∈ clearedAddrs addr 8 0 then 0 else s.peer.found.readRam x) ∧
      p = { s.peer.found with
        ram := p.ram, mode := { fixed := true, read := false, test := false }, ptr := ramAddr (addr 7) } := by
  obtain ⟨hidle, hkind, -⟩ := (ready_iff s).1 h
  intro p
  rw [show p = _ from observeAll_clear s.pins addr 7 0 s.peer hidle hkind]
  exact ⟨fun x => readRam_foldl_insert _ _ _ x rfl rfl, rfl⟩

theorem clearFrames_events_length (addr : Byte → Byte) (n : Nat) (p : Byte) :
    (transcriptEvents (clearFrames addr n p)).length = 124 * n := by
  induction n generalizing p with
  | zero => rfl
  | succ n ih =>
    have hone := transcriptEvents_length (dataFrames (addr p) 0)
    have hrest := ih (p + 1)
    rw [transcriptEvents] at hone hrest
    rw [clearFrames_succ, transcriptEvents, List.flatMap_append, List.length_append, hone, hrest,
      Nat.mul_succ, Nat.add_comm]
    rfl

/-- A host operation that clears eight positions, every field and the device (43_display_memory.md R157, R159). -/
theorem clear_result {i : Instr} {op : BitVec 4} {f : Bool} {a b : Byte} {addr : Byte → Byte} {s : State}
    (h : exec i s = .next (((s.accept op f a b).emits (transcriptEvents (clearFrames addr 8 0))
      { s.work.wrote s.timing.tSettle with posCnt := 8 } s.cfg).complete 0 false)) :
    ∃ w p,
      exec i s = .next (s.completed op f a b
        { cfg := s.cfg
          pins := s.pins.idledWith false
          work := w
          peer := p
          events := transcriptEvents (clearFrames addr 8 0)
          data := 0 }) ∧
        (transcriptEvents (clearFrames addr 8 0)).length = 992 ∧
        w = { s.work with shr := w.shr, bitCnt := w.bitCnt, posCnt := w.posCnt, tmr := w.tmr } ∧
        (s.ready = true →
          (∀ x, p.readRam x = if x ∈ clearedAddrs addr 8 0 then 0 else s.peer.found.readRam x) ∧
            p = { s.peer.found with
              ram := p.ram, mode := { fixed := true, read := false, test := false }, ptr := ramAddr (addr 7) }) ∧
        (s.unheard = true → p = s.peer) :=
  ⟨_, _, h.trans (congrArg _ (emits_completed op f a b _ (pinsAfter_clearEight s.pins addr))),
    clearFrames_events_length addr 8 0, rfl, cleared_of_ready addr s,
    observeAll_unheard s.pins (clearFrames addr 8 0) s.peer⟩

theorem clearFrames_digits :
    clearFrames digitAddr 8 0 =
      ([0, 2, 4, 6, 8, 10, 12, 14] : List Byte).flatMap fun x => [[.w 0x44], [.w (0xC0 ||| x), .w 0x00]] := by decide

/-- Position 0 comes first and wraps (43_display_memory.md R156). -/
theorem clearFrames_leds :
    clearFrames ledAddr 8 0 =
      ([0xFF, 1, 3, 5, 7, 9, 11, 13] : List Byte).flatMap fun x => [[.w 0x44], [.w (0xC0 ||| x), .w 0x00]] := by decide

theorem mem_clearedAddrs_digits (x : Nat) : x ∈ clearedAddrs digitAddr 8 0 ↔ x < 16 ∧ x % 2 = 0 := by
  have haddrs : clearedAddrs digitAddr 8 0 = [0, 2, 4, 6, 8, 10, 12, 14] := by decide
  simp only [haddrs, List.mem_cons, List.not_mem_nil, or_false]
  omega

theorem mem_clearedAddrs_leds (x : Nat) : x ∈ clearedAddrs ledAddr 8 0 ↔ x < 16 ∧ x % 2 = 1 := by
  have haddrs : clearedAddrs ledAddr 8 0 = [15, 1, 3, 5, 7, 9, 11, 13] := by decide
  simp only [haddrs, List.mem_cons, List.not_mem_nil, or_false]
  omega

/-- Settles O20: the addresses cleared are the even ones. -/
theorem clearSegmentsResult : Obligations.ClearSegmentsResult := by
  intro f a b s
  have h := clear_result (exec_clearSegments f a b s)
  simp only [mem_clearedAddrs_digits, clearFrames_digits] at h
  exact h

/-- Settles O21: the addresses cleared are the odd ones. -/
theorem clearLedsResult : Obligations.ClearLedsResult := by
  intro f a b s
  have h := clear_result (exec_clearLeds f a b s)
  simp only [mem_clearedAddrs_leds, clearFrames_leds] at h
  exact h

/-! ## One digit after the others are cleared -/

/-- Settles O57: the clear zeroes the even addresses, the store then changes the one of position `p`. -/
theorem segmentWritesAreLocal : Obligations.SegmentWritesAreLocal := by
  intro f g a b p v s hready hp
  obtain ⟨w, q, hclear, -, -, hcleared, -⟩ := clearSegmentsResult f a b s
  obtain ⟨hread, hq⟩ := hcleared hready
  generalize ht : s.completed 0x4 f a b _ = t at hclear
  have htpeer : t.peer = q := ht ▸ rfl
  have htcfg : t.cfg = s.cfg := ht ▸ rfl
  have hqfound : q.found = q := found_of_settled q (by rw [hq]; exact found_frame s.peer) (by rw [hq])
  obtain ⟨w', r, hstore, -, hx, -, hstored, -⟩ := (displaySegmentsResult g p v t).1 hp
  obtain ⟨hsame, hother, hr⟩ := hstored (exec_keeps_ready _ s t hready hclear)
  rw [htpeer, hqfound] at hother hr
  rw [hx] at hsame hother
  refine ⟨t, _, hclear, hstore, hsame, fun k hk hkp => ?_, fun y hy => ?_, htcfg, ?_⟩
  · rw [completed_peer, hother _ (by omega), hread, if_pos (by omega)]
  · rw [completed_peer, hother _ (by omega), hread, if_neg (by omega)]
  · rw [completed_peer, hr, hq]

end Sys2Proof.Machine
end

section
/-! PROOFS. The key decoder and `SCAN_KEYS` from every state: its frame, the keys of the reference peer, and the silent line
(44_key_scanner.md R175 to R178, 20_memory.md R58, R60). -/

namespace Sys2Proof.Machine

/-! ## The decoder -/

/-- Byte `i` is shifted up by `i`, so its bit `n - i` reaches bit `n` (44_key_scanner.md R176). -/
theorem keyDecode_getLsbD (b0 b1 b2 b3 : Byte) (n : Nat) (h : n < 8) :
    (keyDecode b0 b1 b2 b3).getLsbD n =
      (b0.getLsbD n || (decide (1 ≤ n) && b1.getLsbD (n - 1)) || (decide (2 ≤ n) && b2.getLsbD (n - 2)) ||
        (decide (3 ≤ n) && b3.getLsbD (n - 3))) := by
  have hshift : ∀ (v : Byte) (i : Nat), (v <<< i).getLsbD n = (decide (i ≤ n) && v.getLsbD (n - i)) := fun v i => by
    simp only [BitVec.getLsbD_shiftLeft, h, decide_true, Bool.true_and, ← decide_not, Nat.not_lt]
  simp only [keyDecode, BitVec.getLsbD_or, hshift]

/-- Settles O39: below bit 3 the zeros shifted in, from there on a bit of each byte. -/
theorem keyDecoderBits : Obligations.KeyDecoderBits := by
  intro b0 b1 b2 b3 r
  refine ⟨?_, ?_, ?_, fun i hi => ?_⟩
  · simpa using keyDecode_getLsbD b0 b1 b2 b3 0 (by decide)
  · simpa using keyDecode_getLsbD b0 b1 b2 b3 1 (by decide)
  · simpa using keyDecode_getLsbD b0 b1 b2 b3 2 (by decide)
  · simpa using keyDecode_getLsbD b0 b1 b2 b3 (i + 3) (by omega)

/-! ## The bytes of a scan -/

/-- A key-scan byte carries one key in its bit 0, one in its bit 4, and nothing else (20_memory.md R58). -/
theorem scanByte_getLsbD (keys : Byte) (k j : Nat) (h : j < 8) :
    (scanByte keys k).getLsbD j = ((j == 0 && keys.getLsbD k) || (j == 4 && keys.getLsbD (k + 4))) := by
  have hmark : ∀ (m : Byte) (i : Nat) (c : Bool), m.getLsbD j = (j == i) →
      (if c then m else 0).getLsbD j = (j == i && c) := fun m i c hm => by
    cases c with
    | false => rw [Bool.and_false]; exact BitVec.getLsbD_zero
    | true => rw [Bool.and_true]; exact hm
  have hbits : ∀ j, j < 8 → (0x01 : Byte).getLsbD j = (j == 0) ∧ (0x10 : Byte).getLsbD j = (j == 4) := by decide
  obtain ⟨hlow, hhigh⟩ := hbits j h
  rw [scanByte, BitVec.getLsbD_or, hmark _ _ _ hlow, hmark _ _ _ hhigh]

/-- The keys are held once the schedule of changes is used up (20_memory.md R60, assumption 19). -/
theorem keysAt_of_feed_used (p : Peer) (k : Nat) (h : p.keyFeed.length ≤ p.keyReads) : p.keysAt k = p.keys :=
  List.getD_eq_default _ _ (by omega)

/-- The four bytes of a scan are its reads by number. -/
theorem scanned_of_getElem? {pins : Pins} {p : Peer} {k : Nat} {x : Byte}
    (h : [scanned pins p 0, scanned pins p 1, scanned pins p 2, scanned pins p 3][k]? = some x) :
    k < 4 ∧ scanned pins p k = x := by
  have hmap : ((List.range 4).map (scanned pins p))[k]? = some x := h
  obtain ⟨hk, hx⟩ := List.getElem?_eq_some_iff.1 hmap
  rw [List.getElem_map, List.getElem_range] at hx
  exact ⟨hk, hx⟩

/-- A key scan changes neither the device on the bus nor its keys, whatever the peer (assumptions 10, 19). -/
theorem scan_keeps_device (s : State) :
    let p := (peerAfterReads (scanPins s.pins) (scanPeer s.pins s.peer) 4).observe (scanPins s.pins).hasRead
      ((PinEvent.stb true).onPins (scanPins s.pins).hasRead)
    p.kind = s.peer.kind ∧ p.keys = s.peer.keys ∧ p.keyFeed = s.peer.keyFeed := by
  have h := exec_constants _ _ _ (exec_scanKeys_completed false 0 0 s)
  obtain ⟨-, -, hkind, hkeys, hfeed, -, -⟩ := (constants_eq_iff _ _).1 h
  exact ⟨hkind, hkeys, hfeed⟩

/-! ## The operation -/

/-- Settles O22: the equation of `exec_scanKeys_completed`, with the reads of a transmitting peer on the idle bus and of a
silent line. -/
theorem scanKeysResult : Obligations.ScanKeysResult := by
  intro f a b s
  obtain ⟨hkind, hkeys, hfeed⟩ := scan_keeps_device s
  refine ⟨_, _, _, _, _, _, exec_scanKeys_completed f a b s, frameEvents_length _, rfl, rfl, hkind, hkeys, hfeed,
    fun hready => ?_, fun habsent => ?_⟩
  · obtain ⟨hidle, href, -⟩ := (ready_iff s).1 hready
    obtain ⟨hbytes, hpeer⟩ := scan_idle s.pins s.peer hidle href
    have hheld := fun v => scannedKeys_idle s.pins s.peer v hidle href
    refine ⟨fun k x hx j hj => ?_, hheld, fun hused => hheld _ fun k _ => keysAt_of_feed_used s.peer k hused, ?_, hpeer⟩
    · obtain ⟨hk, rfl⟩ := scanned_of_getElem? hx
      rw [hbytes k hk]
      exact scanByte_getLsbD (s.peer.keysAt k) k j hj
    · rw [hpeer]
      exact fun _ => rfl
  · obtain ⟨hones, hpeer⟩ := scan_silent s.pins s.peer (.inl habsent)
    rw [hpeer, hones 0, hones 1, hones 2, hones 3]
    exact ⟨rfl, rfl, rfl⟩

end Sys2Proof.Machine
end

section
/-! PROOFS. `INIT`: what it leaves from every state, and the display RAM that it clears (45_initialization.md R185, R186). -/

namespace Sys2Proof.Machine

/-! ## When `CFG` is written -/

theorem repeated_length (n : Nat) (bs : List Beat) : (repeated n bs).length = n * bs.length := by
  induction n with
  | zero => simp [repeated]
  | succ n ih => rw [repeated, List.length_append, ih, Nat.succ_mul, Nat.add_comm]

theorem repeated_quiet (n : Nat) (bs : List Beat) (h : bs.all Beat.quiet = true) :
    (repeated n bs).all Beat.quiet = true := by
  induction n with
  | zero => rfl
  | succ n ih => rw [repeated, List.all_append, h, ih, Bool.and_true]

/-- Seventeen bytes of 40 events, and the two edges of the strobe (41_bus_transport.md R119). -/
theorem blockClear_length : blockClear.length = 682 := by
  simp only [blockClear, List.length_append, repeated_length]
  rfl

theorem blockClear_quiet : blockClear.all Beat.quiet = true := by
  have hzeros := repeated_quiet 16 (after (writeByte 0) [.nextByte]) rfl
  simp only [blockClear, List.all_append, hzeros, Bool.and_true]
  rfl

/-- The configuration frames alone write `CFG`: up to the end of the block-clear frame it is as it was
(42_command_encoder.md R138). -/
theorem initBeats_cfg_before_config (en : Bool) (br : Byte) (s : State) :
    (s.runBeats ((initBeats en br).take 685)).cfg = s.cfg := by
  have hlength : ([pinBeat .dirAllOut, pinBeat (.stb true), pinBeat (.clk true)] ++ blockClear).length = 685 := by
    rw [List.length_append, blockClear_length]
    rfl
  rw [initBeats, List.take_left' hlength]
  refine runBeats_cfg_quiet _ s ?_
  rw [List.all_append, blockClear_quiet]
  rfl

/-! ## The device after `INIT` -/

/-- `INIT` only writes, so it uses up no read of the keys (20_memory.md R60). -/
theorem observeAll_init_keyReads (pins : Pins) (en : Bool) (br : BitVec 3) (p : Peer) :
    (observeAll pins ([.dirAllOut, .stb true, .clk true] ++ transcriptEvents (initFrames en br)) p).keyReads =
      p.keyReads := by
  by_cases hk : p.kind = .reference
  · rw [observeAll_init pins en br p hk, configured_keyReads, takeFrame_keyReads]
  · rw [observeAll_other _ _ _ hk]

/-- Two peers of one kind with the same keys differ in the registers and the display RAM alone (20_memory.md R51). -/
theorem peer_eq_of_device {p q : Peer} (hkind : p.kind = q.kind) (hkeys : p.keys = q.keys)
    (hfeed : p.keyFeed = q.keyFeed) (hreads : p.keyReads = q.keyReads) :
    p = { q with
      ram := p.ram, epoch := p.epoch, draws := p.draws, mode := p.mode, ptr := p.ptr
      disp := p.disp, frame := p.frame } := by
  rw [← hkind, ← hkeys, ← hfeed, ← hreads]

/-- The events of `INIT`: three to open the bus, then three frames (45_initialization.md R185). -/
theorem counted_init (en : Bool) (br : BitVec 3) :
    Counted ([.dirAllOut, .stb true, .clk true] ++ transcriptEvents (initFrames en br)) 769 304 0 7 := by
  obtain ⟨hlength, hwaits, hsamples, hstrobes⟩ := counted_transcript (initFrames en br)
  refine ⟨?_, ?_, ?_, ?_⟩
  · rw [List.length_append, hlength]; rfl
  · rw [List.countP_append, hwaits]; rfl
  · rw [List.countP_append, hsamples]; rfl
  · rw [List.countP_append, hstrobes]; rfl

/-- `INIT` field by field (45_initialization.md R185). -/
theorem exec_init_completed (f : Bool) (a b : Byte) (s : State) :
    exec (.init f a b) s = .next (s.completed 0x0 f a b
      { cfg := { en := f, br := clamp a }
        pins := { clk := ⟨true, true⟩, stb := ⟨true, true⟩, dio := ⟨true, true⟩ }
        work := { s.work.wrote s.timing.tSettle with byteCnt := 16 }
        peer := observeAll s.pins ([.dirAllOut, .stb true, .clk true] ++ transcriptEvents (initFrames f (clamp a))) s.peer
        events := [.dirAllOut, .stb true, .clk true] ++ transcriptEvents (initFrames f (clamp a))
        data := 0 }) := by
  rw [exec_init, ← pinsAfter_init s.pins f (clamp a)]
  rfl

/-- Settles O14: the equation of `exec_init_completed`, and what the events of `INIT` do to each kind of device. -/
theorem initResult : Obligations.InitResult := by
  intro f a b s
  have hcounts := counted_init f (clamp a)
  refine ⟨_, _, exec_init_completed f a b s, hcounts.length, hcounts.waits, hcounts.samples, rfl,
    initBeats_cfg_before_config f a _, ?_, fun hk => ?_, observeAll_other _ _ _⟩
  · exact peer_eq_of_device (observeAll_kind _ _ _) (observeAll_keys _ _ _) (observeAll_keyFeed _ _ _)
      (observeAll_init_keyReads _ _ _ _)
  · rw [observeAll_init s.pins f (clamp a) s.peer hk]
    exact ⟨configured_mode _ _ _, configured_disp _ _ _, configured_frame _ _ _⟩

/-! ## The display RAM -/

/-- No store reaches beyond the sixteen addresses (20_memory.md R40). -/
theorem lookup_zeroFill_beyond (fixed : Bool) (n : Nat) (a : BitVec 4) (m : List Host.Cell) (x : Nat) (h : 16 ≤ x) :
    Ram.lookup (zeroFill fixed n a m) x = Ram.lookup m x := by
  induction n generalizing a m with
  | zero => rfl
  | succ n ih => rw [zeroFill, ih, lookup_insert_other _ _ _ _ (by have := a.isLt; omega)]

/-- Settles O24: in write, auto-increment mode the sixteen zeros of the block-clear frame go to the sixteen addresses. -/
theorem initClearsPeer : Obligations.InitClearsPeer := by
  intro f a b s hk hw hmode
  obtain ⟨t, hexec, hpeer, -, -⟩ := exec_init_peer f a b s hk
  rw [takeFrame_clear_configured s.peer f (clamp a) hw (by rw [hmode]) (by rw [hmode]), hmode] at hpeer
  refine ⟨t, hexec, fun x hx => ?_, fun x hx => ?_, ?_⟩
  · rw [hpeer, Peer.readRam, lookup_zeroFill_auto _ x hx]
    rfl
  · rw [hpeer, Peer.readRam, lookup_zeroFill_beyond _ _ _ _ x hx]
    rfl
  · rw [hpeer, ← hmode]

end Sys2Proof.Machine
end

section
/-! PROOFS. Who writes the directions of the lines (45_initialization.md R187, 10_state.md R12). -/

namespace Sys2Proof.Machine

/-- From `s` to `t` whole frames were emitted and nothing else. -/
def EmitsOnlyFrames (s t : State) : Prop := ∃ fs, t.trace = (transcriptEvents fs).reverse ++ s.trace

section EmitsOnlyFrames
variable {i : Instr} {op : BitVec 4} {f : Bool} {a b : Byte} {s t : State}

theorem emitsOnlyFrames_of_emits {fs : List (List Transfer)} {w : Work} {c : Cfg} (h : exec i s = .next t)
    (hi : exec i s = .next (((s.accept op f a b).emits (transcriptEvents fs) w c).complete 0 false)) :
    EmitsOnlyFrames s t := by
  rw [hi] at h
  cases h
  exact ⟨fs, rfl⟩

/-- An operation on a position sends one byte, or nothing when the position check fails (43_display_memory.md R151). -/
theorem emitsOnlyFrames_of_position {x d : Byte} {w : Work} {c : Cfg} (h : exec i s = .next t)
    (hin : positionOk a = true →
      exec i s = .next (((s.accept op f a b).emits (transcriptEvents (dataFrames x d)) w c).complete 0 false))
    (hout : positionOk a = false → exec i s = .next ((s.accept op f a b).complete 0 false)) : EmitsOnlyFrames s t := by
  cases hpos : positionOk a with
  | true => exact emitsOnlyFrames_of_emits h (hin hpos)
  | false => exact emitsOnlyFrames_of_emits (fs := []) (w := s.work) (c := s.cfg) h (hout hpos)

theorem emitsOnlyFrames_of_scan (h : exec (.scanKeys f a b) s = .next t) : EmitsOnlyFrames s t := by
  rw [exec_scanKeys_completed] at h
  cases h
  exact ⟨[[.w 0x42, .r _, .r _, .r _, .r _]], by rw [transcriptEvents, List.flatMap_singleton]; rfl⟩

/-- The opening events are of `INIT` alone: every other instruction emits whole frames, or nothing
(45_initialization.md R187). -/
theorem exec_emitsOnlyFrames (h : exec i s = .next t) (hi : ∀ f a b, i ≠ .init f a b) : EmitsOnlyFrames s t := by
  rcases exec_cases i s t h with ⟨o, ho, -⟩ | ⟨-, c, rfl⟩
  · cases i with
    | init f a b => exact absurd rfl (hi f a b)
    | enable f a b => exact emitsOnlyFrames_of_emits h (exec_enable f a b s)
    | setBrightness f a b => exact emitsOnlyFrames_of_emits h (exec_setBrightness f a b s)
    | displaySegments f a b =>
      exact emitsOnlyFrames_of_position h (exec_displaySegments f a b s) (exec_displaySegments_out f a b s)
    | clearSegments f a b => exact emitsOnlyFrames_of_emits h (exec_clearSegments f a b s)
    | displayDigit f a b =>
      exact emitsOnlyFrames_of_position h (exec_displayDigit f a b s) (exec_displayDigit_out f a b s)
    | setLed f a b => exact emitsOnlyFrames_of_position h (exec_setLed f a b s) (exec_setLed_out f a b s)
    | clearLeds f a b => exact emitsOnlyFrames_of_emits h (exec_clearLeds f a b s)
    | scanKeys f a b => exact emitsOnlyFrames_of_scan h
    | _ => cases ho
  · exact ⟨[], rfl⟩

/-- `DIR_ALL_OUT` is in no frame (41_bus_transport.md R121). -/
theorem EmitsOnlyFrames.no_dirAllOut (h : EmitsOnlyFrames s t) :
    ∃ es, t.trace = es ++ s.trace ∧ PinEvent.dirAllOut ∉ es := by
  obtain ⟨fs, htrace⟩ := h
  exact ⟨_, htrace, fun hmem => dirAllOut_not_mem_transcript fs (List.mem_reverse.1 hmem)⟩

/-- An instruction other than `INIT` and `SCAN_KEYS` leaves the data line in its direction (10_state.md R12). -/
theorem exec_keeps_data_direction (h : exec i s = .next t) (hi : ∀ f a b, i ≠ .init f a b)
    (hscan : ∀ f a b, i ≠ .scanKeys f a b) : t.pins.dio.oe = s.pins.dio.oe := by
  rcases exec_bus_cases i s t h with ⟨f, a, b, rfl⟩ | ⟨f, a, b, rfl⟩ | ⟨c, rfl⟩ | ⟨es, hes, hpins, -⟩
  · exact absurd rfl (hi f a b)
  · exact absurd rfl (hscan f a b)
  · rfl
  · rw [hpins]
    rcases hes.pins s.pins with heq | ⟨v, heq⟩
    · rw [heq]
    · rw [heq]; rfl

end EmitsOnlyFrames

/-- Settles O51: `INIT` drives every line, the frames of the others hold no `DIR_ALL_OUT`, and a key scan alone turns the data
line around. -/
theorem onlyInitMakesOutputs : Obligations.OnlyInitMakesOutputs := by
  refine fun i s t h => ⟨?_, fun hi => ?_, exec_keeps_data_direction h⟩
  · rintro ⟨f, a, b, rfl⟩
    rw [exec_init_pins f a b s t h]
    exact ⟨rfl, rfl, rfl⟩
  · obtain ⟨hclk, hstb⟩ := exec_keeps_directions i s t h hi
    exact ⟨hclk, hstb, (exec_emitsOnlyFrames h hi).no_dirAllOut⟩

end Sys2Proof.Machine
end

section
/-! PROOFS. Every step answers a next state, and every host operation completes with a response (60_exceptions.md R200). -/

namespace Sys2Proof.Machine

/-- An instruction executed whole neither faults nor is refused, whether it is a host operation or a byte for the peer. -/
theorem exec_answers_next (i : Instr) (s : State) : ∃ t, exec i s = .next t := by
  cases hl : latched i with
  | some o => exact ⟨_, exec_latched i o s hl⟩
  | none =>
    obtain ⟨c, hc⟩ := exec_not_latched i s hl
    exact ⟨_, hc⟩

/-- A packet taken by the idle machine is an illegal request or an unlisted byte, a request begun event by event, or an
instruction executed whole (10_state.md R21). -/
theorem step_packet_answers_next (s : State) (p : Packet) (hr : s.host.rst = false) (hs : s.seq = .idle)
    (hf : s.fetch = some p) : ∃ t, step s = .next t := by
  cases hd : decode p with
  | error e => exact ⟨_, step_undecoded s p e hr hs hf hd⟩
  | ok i =>
    cases hb : s.startsPerEvent p with
    | some w => exact ⟨_, step_begins s p i w hr hs hf hd hb⟩
    | none =>
      obtain ⟨t, hexec⟩ := exec_answers_next i (s.consume p)
      exact ⟨t, (step_executes s p i hr hs hf hd hb).trans hexec⟩

theorem step_answers_next (s : State) : ∃ t, step s = .next t := by
  cases hr : s.host.rst with
  | true => exact ⟨_, step_rst s hr⟩
  | false =>
    cases hs : s.seq with
    | running op k => exact ⟨_, step_running s op k hr hs⟩
    | idle =>
      cases hf : s.fetch with
      | none => exact ⟨_, step_nothing s hr hs hf⟩
      | some p => exact step_packet_answers_next s p hr hs hf

/-- The instructions with a request code are those that load the operand latches (30_encoding.md R72). -/
theorem latched_of_requestOp (i : Instr) (h : (requestOp i).isSome = true) : ∃ o, latched i = some o := by
  rw [requestOp_eq_latched, Option.isSome_map] at h
  exact Option.isSome_iff_exists.1 h

/-- Settles O13: each case of a step has its answer, and a host operation ends in `State.complete`. -/
theorem everyStepAnswersNext : Obligations.EveryStepAnswersNext := by
  refine ⟨step_answers_next, fun i s hi => ?_⟩
  obtain ⟨o, ho⟩ := latched_of_requestOp i hi
  exact ⟨_, exec_latched i o s ho, rfl, rfl, rfl⟩

end Sys2Proof.Machine
end

section
/-! PROOFS. Reset, the operations before `INIT`, and the two ways `INIT` can go on a running system
(70_reset_and_hazards.md R230, R236, R238). -/

namespace Sys2Proof.Machine

/-! ## Reset -/

/-- While `rst` is 1 no request is taken (70_reset_and_hazards.md R230). -/
theorem reqReady_of_rst (s : State) (h : s.host.rst = true) : s.reqReady = false := by simp [State.reqReady, h]

/-- An idle adapter is ready, unless `rst` is 1 (10_state.md R19). -/
theorem reqReady_of_idle (s : State) (hs : s.seq = .idle) (hr : s.host.rst = false) : s.reqReady = true := by
  simp [State.reqReady, State.busy, hs, hr]

/-- Settles O3: the step is `State.resetAdapter`, field by field. -/
theorem resetCycle : Obligations.ResetCycle := fun s h =>
  ⟨reqReady_of_rst s h, s.resetAdapter, step_rst s h, resetAdapter_cfg s, resetAdapter_pins s, resetAdapter_operands s,
    resetAdapter_rsp s, resetAdapter_seq s, resetAdapter_digitRom s, resetAdapter_timing s, resetAdapter_host s,
    resetAdapter_peer s, resetAdapter_trace s, reqReady_of_idle _ (resetAdapter_seq s) rfl⟩

/-! ## Operations before `INIT` -/

/-- A host operation on a position emits whole frames, or nothing when the position check fails
(43_display_memory.md R151). -/
theorem eq_emits_of_position {i : Instr} {op : BitVec 4} {f : Bool} {a b x d : Byte} {w : Work} {s : State}
    (hin : positionOk a = true →
      exec i s = .next (((s.accept op f a b).emits (transcriptEvents (dataFrames x d)) w s.cfg).complete 0 false))
    (hout : positionOk a = false → exec i s = .next ((s.accept op f a b).complete 0 false)) :
    ∃ fs w, exec i s = .next (((s.accept op f a b).emits (transcriptEvents fs) w s.cfg).complete 0 false) := by
  cases hpos : positionOk a with
  | true => exact ⟨_, _, hin hpos⟩
  | false => exact ⟨[], s.work, hout hpos⟩

/-- A host operation other than `INIT` and `SCAN_KEYS` emits whole frames and completes: what it does to the lines and to the
device is what these frames do. -/
theorem exec_eq_emits_frames (i : Instr) (s : State) (hreq : (requestOp i).isSome = true)
    (hinit : ∀ f a b, i ≠ .init f a b) (hscan : ∀ f a b, i ≠ .scanKeys f a b) :
    ∃ op f a b fs w c,
      exec i s = .next (((s.accept op f a b).emits (transcriptEvents fs) w c).complete 0 false) := by
  cases i with
  | init f a b => exact absurd rfl (hinit f a b)
  | scanKeys f a b => exact absurd rfl (hscan f a b)
  | enable f a b => exact ⟨_, _, _, _, _, _, _, exec_enable f a b s⟩
  | setBrightness f a b => exact ⟨_, _, _, _, _, _, _, exec_setBrightness f a b s⟩
  | clearSegments f a b => exact ⟨_, _, _, _, _, _, _, exec_clearSegments f a b s⟩
  | clearLeds f a b => exact ⟨_, _, _, _, _, _, _, exec_clearLeds f a b s⟩
  | displaySegments f a b =>
    obtain ⟨fs, w, h⟩ := eq_emits_of_position (exec_displaySegments f a b s) (exec_displaySegments_out f a b s)
    exact ⟨_, _, _, _, fs, w, _, h⟩
  | displayDigit f a b =>
    obtain ⟨fs, w, h⟩ := eq_emits_of_position (exec_displayDigit f a b s) (exec_displayDigit_out f a b s)
    exact ⟨_, _, _, _, fs, w, _, h⟩
  | setLed f a b =>
    obtain ⟨fs, w, h⟩ := eq_emits_of_position (exec_setLed f a b s) (exec_setLed_out f a b s)
    exact ⟨_, _, _, _, fs, w, _, h⟩
  | _ => cases hreq

/-- A key scan of a silent line leaves the device and returns all ones (44_key_scanner.md R177). -/
theorem exec_scanKeys_silent (f : Bool) (a b : Byte) (s t : State) (hs : s.peer.silent s.pins)
    (h : exec (.scanKeys f a b) s = .next t) : t.peer = s.peer ∧ t.rsp.data = 0xFF := by
  obtain ⟨hones, hpeer⟩ := scan_silent s.pins s.peer hs
  rw [exec_scanKeys_completed] at h
  cases h
  rw [completed_peer, hpeer, completed_data, scannedKeys, hones 0, hones 1, hones 2, hones 3]
  exact ⟨rfl, rfl⟩

/-- On a silent line a host operation other than `INIT` leaves the device as it is (70_reset_and_hazards.md R236). -/
theorem exec_silent_peer (i : Instr) (s t : State) (hs : s.peer.silent s.pins) (hreq : (requestOp i).isSome = true)
    (hinit : ∀ f a b, i ≠ .init f a b) (h : exec i s = .next t) : t.peer = s.peer := by
  by_cases hscan : ∃ f a b, i = .scanKeys f a b
  · obtain ⟨f, a, b, rfl⟩ := hscan
    exact (exec_scanKeys_silent f a b s t hs h).1
  · obtain ⟨op, f, a, b, fs, w, c, hemits⟩ :=
      exec_eq_emits_frames i s hreq hinit fun f a b hi => hscan ⟨f, a, b, hi⟩
    rw [hemits] at h
    cases h
    exact observeAll_silent s.pins _ s.peer hs (dirAllOut_not_mem_transcript fs)

theorem exec_enable_cfg (f : Bool) (a b : Byte) (s t : State) (h : exec (.enable f a b) s = .next t) :
    t.cfg = { s.cfg with en := f } := by
  rw [exec_enable] at h
  cases h
  rfl

theorem exec_setBrightness_cfg (f : Bool) (a b : Byte) (s t : State) (h : exec (.setBrightness f a b) s = .next t) :
    t.cfg = { s.cfg with br := clamp a } := by
  rw [exec_setBrightness] at h
  cases h
  rfl

/-- Settles O28: while the strobe is released the line is silent, and only `INIT` drives it. -/
theorem operationsBeforeInit : Obligations.OperationsBeforeInit := by
  intro i s hk hframe hstb hreq hinit
  have hs : s.peer.silent s.pins := .inr ⟨hk, hframe, hstb⟩
  obtain ⟨t, h⟩ := exec_answers_next i s
  obtain ⟨hclk, hstb'⟩ := exec_keeps_directions i s t h hinit
  refine ⟨t, h, exec_silent_peer i s t hs hreq hinit h, hclk, hstb'.trans hstb, ?_, ?_, ?_⟩
  · rintro f a b rfl
    refine ⟨(exec_scanKeys_silent f a b s t hs h).2, ?_⟩
    rw [exec_scanKeys_pins f a b s t h]
  · rintro f a b rfl
    exact exec_enable_cfg f a b s t h
  · rintro f a b rfl
    exact exec_setBrightness_cfg f a b s t h

/-! ## The re-initialisation hazard -/

/-- Sixteen zeros stored in fixed mode all go to the one address (20_memory.md R57). -/
theorem readRam_of_zeroFill_fixed (p q : Peer) (x : Nat) (hepoch : p.epoch = q.epoch)
    (hram : p.ram = zeroFill true 16 0 q.ram) : p.readRam x = if x = 0 then 0 else q.readRam x := by
  have hzero : (0 : BitVec 4).toNat = 0 := rfl
  rw [Peer.readRam, hram, lookup_zeroFill_fixed, hepoch, hzero]
  split <;> rfl

/-- Settles O25: the block-clear frame of `INIT` stores its zeros in the mode it finds, and only then sets the mode. -/
theorem initInFixedMode : Obligations.InitInFixedMode := by
  intro f a b s hk hw hmode
  obtain ⟨t, hexec, hpeer, -, -⟩ := exec_init_peer f a b s hk
  rw [takeFrame_clear_configured s.peer f (clamp a) hw (by rw [hmode]) (by rw [hmode]), hmode] at hpeer
  have hread : ∀ x, t.peer.readRam x = if x = 0 then 0 else s.peer.readRam x := fun x =>
    readRam_of_zeroFill_fixed t.peer s.peer x (by rw [hpeer]) (by rw [hpeer])
  refine ⟨t, hexec, (hread 0).trans (if_pos rfl), fun x hx => (hread x).trans (if_neg hx), ?_⟩
  rw [hpeer]

/-! ## The safe ways to initialise again -/

/-- `INIT` clears the display RAM after an instruction that leaves the peer in write, auto-increment mode with no frame
open. -/
theorem init_after_clears {i : Instr} {s t : State} (f : Bool) (a b : Byte) (h : exec i s = .next t)
    (hk : s.peer.kind = .reference) (hmode : t.peer.mode = { fixed := false, read := false, test := false })
    (hframe : t.peer.frame = none) :
    ∃ t u, exec i s = .next t ∧ exec (.init f a b) t = .next u ∧ ∀ x, x < 16 → u.peer.readRam x = 0 := by
  have hwhole : t.peer.midByte = false := by rw [Peer.midByte, hframe]
  obtain ⟨u, hinit, hzero, -⟩ := initClearsPeer f a b t ((exec_kind i s t h).trans hk) hwhole hmode
  exact ⟨t, u, h, hinit, hzero⟩

/-- A configuration sent leaves the peer in write, auto-increment mode with no frame open (42_command_encoder.md R142). -/
theorem mode_frame_of_configuredTo {en : Bool} {br : BitVec 3} {q p : Peer} (h : Peer.configuredTo en br q p) :
    p.mode = { fixed := false, read := false, test := false } ∧ p.frame = none := by
  obtain ⟨-, hp⟩ := h
  rw [hp]
  exact ⟨rfl, rfl⟩

/-- Settles O27: `ENABLE`, `SET_BRIGHTNESS` and the first `INIT` end with a configuration, which sets the mode. -/
theorem reinitialisationClears : Obligations.ReinitialisationClears := by
  refine fun f g a b c d s => ⟨fun hready => ?_, fun hk => ?_⟩
  · obtain ⟨-, hk, -⟩ := (ready_iff s).1 hready
    obtain ⟨_, _, henable, -, -, hsent, -⟩ := enableResult g c d s
    obtain ⟨_, _, hbrightness, -, -, hsent', -⟩ := setBrightnessResult g c d s
    obtain ⟨hmode, hframe⟩ := mode_frame_of_configuredTo (hsent hready)
    obtain ⟨hmode', hframe'⟩ := mode_frame_of_configuredTo (hsent' hready)
    exact ⟨init_after_clears f a b henable hk hmode hframe, init_after_clears f a b hbrightness hk hmode' hframe'⟩
  · obtain ⟨t, hinit, hpeer, -, -⟩ := exec_init_peer g c d s hk
    refine init_after_clears f a b hinit hk ?_ ?_ <;> rw [hpeer]
    · exact configured_mode _ _ _
    · exact configured_frame _ _ _

end Sys2Proof.Machine
end

section
/-! PROOFS. What each host operation costs: frames, bytes, pin events, waits, strobe events and least duration
(70_reset_and_hazards.md R246, R248). -/

namespace Sys2Proof.Machine

/-- The cost of an operation is read off the frames its events are made of and the counts of these events. -/
theorem costs_of_counted {i : Instr} {s t : State} {es : List PinEvent} {fs : List (List Transfer)}
    {events waits samples strobes : Nat} (h : exec i s = .next t) (htrace : t.trace = es.reverse ++ s.trace)
    (hmade : MadeOf es fs) (hcounts : Counted es events waits samples strobes) :
    Costs i s fs.length (fs.map List.length).sum events waits strobes :=
  ⟨t, es, fs, h, htrace, (transcript_eq_some_iff es fs).2 hmade, rfl, rfl, hcounts.length, hcounts.waits, hcounts.strobes,
    fun tm => by rw [leastDuration_eq, hcounts.waits, hcounts.strobes]⟩

/-- An operation that emits the frames `fs` and nothing else. -/
theorem costs_of_frames {i : Instr} {s t : State} (fs : List (List Transfer)) (h : exec i s = .next t)
    (htrace : t.trace = (transcriptEvents fs).reverse ++ s.trace) :
    Costs i s fs.length (fs.map List.length).sum (fs.map fun ts => (ts.map Transfer.events).sum + 2).sum
      (fs.map fun ts => 16 * ts.length).sum (2 * fs.length) :=
  costs_of_counted h htrace (madeOf_frames fs) (counted_transcript fs)

/-- `INIT` opens the bus and emits three frames (45_initialization.md R185). -/
theorem costs_init (f : Bool) (a b : Byte) (s : State) : Costs (.init f a b) s 3 19 769 304 7 :=
  costs_of_counted (exec_init_completed f a b s) rfl (madeOf_lead.append (madeOf_frames (initFrames f (clamp a))))
    (counted_init f (clamp a))

/-- `SCAN_KEYS` is one frame, whatever bytes it reads (44_key_scanner.md R175). -/
theorem costs_scanKeys (f : Bool) (a b : Byte) (s : State) : Costs (.scanKeys f a b) s 1 5 218 80 2 :=
  costs_of_frames [[.w 0x42, .r _, .r _, .r _, .r _]] (exec_scanKeys_completed f a b s)
    (by rw [transcriptEvents, List.flatMap_singleton]; rfl)

/-- A host operation on a position sends two frames of three bytes, or nothing when the position check fails
(43_display_memory.md R151). -/
theorem costs_position {i : Instr} {op : BitVec 4} {f : Bool} {a b x d : Byte} {w : Work} {s : State}
    (hin : positionOk a = true →
      exec i s = .next (((s.accept op f a b).emits (transcriptEvents (dataFrames x d)) w s.cfg).complete 0 false))
    (hout : positionOk a = false → exec i s = .next ((s.accept op f a b).complete 0 false)) :
    (a.toNat ≤ 7 → Costs i s 2 3 124 48 4) ∧ (7 < a.toNat → Costs i s 0 0 0 0 0) :=
  ⟨fun h => costs_of_frames (dataFrames x d) (hin ((positionOk_iff a).2 h)) rfl,
    fun h => costs_of_frames [] (hout ((positionOk_eq_false_iff a).2 h)) rfl⟩

/-- Settles O43: the cost of each operation is that of its frames. -/
theorem eventCounts : Obligations.EventCounts := by
  refine ⟨rfl, fun f a b s => ?_⟩
  obtain ⟨hsegments, hsegmentsOut⟩ := costs_position (exec_displaySegments f a b s) (exec_displaySegments_out f a b s)
  obtain ⟨hdigit, hdigitOut⟩ := costs_position (exec_displayDigit f a b s) (exec_displayDigit_out f a b s)
  obtain ⟨hled, hledOut⟩ := costs_position (exec_setLed f a b s) (exec_setLed_out f a b s)
  exact ⟨costs_init f a b s, costs_of_frames (configFrames f s.cfg.br) (exec_enable f a b s) rfl,
    costs_of_frames (configFrames s.cfg.en (clamp a)) (exec_setBrightness f a b s) rfl,
    fun h => ⟨hsegments h, hdigit h, hled h⟩, fun h => ⟨hsegmentsOut h, hdigitOut h, hledOut h⟩,
    costs_of_frames (clearFrames digitAddr 8 0) (exec_clearSegments f a b s) rfl,
    costs_of_frames (clearFrames ledAddr 8 0) (exec_clearLeds f a b s) rfl, costs_scanKeys f a b s⟩

end Sys2Proof.Machine
end
